-- ==== Sys2Proof/Word.lean ====
section
/-! DEFINITION. The word types of the core (00_scope.md R9): bytes, 16-bit words, register numbers,
bit numbers and I/O register numbers. -/

namespace Sys2Proof

/-- `u8` of 00_scope.md R9: a register, a RAM byte, the status byte, an immediate. -/
abbrev Byte := BitVec 8

/-- `u16` of 00_scope.md R9: an instruction word, the pc, SP, a data address, a register pair. -/
abbrev Word := BitVec 16

/-- The number of a general register, r0 to r31 (10_state.md R20). -/
abbrev Reg := Fin 32

/-- The number of a bit in a byte, or of a flag in SREG (30_encoding.md R82, fields `b` and `s`). -/
abbrev BitNum := Fin 8

/-- IO_COUNT: the number of I/O register numbers, which follows from the 6-bit field of IN and OUT
(00_scope.md R6, 20_memory.md R57). -/
abbrev ioCount : Nat := 64

/-- A 6-bit I/O register number (30_encoding.md R82, field `A` of F-IO). -/
abbrev IoNum := Fin ioCount

/-- A 5-bit I/O register number (30_encoding.md R82, field `A` of F-AB). -/
abbrev IoLow := Fin 32

/-- The pair field `p` of F-PI, the pair `24 + 2p` (30_encoding.md R82). -/
abbrev PairNum := Fin 4

/-- The low byte `v[7:0]` of a word. -/
def Word.lo (v : Word) : Byte := v.extractLsb' 0 8

/-- The high byte `v[15:8]` of a word. -/
def Word.hi (v : Word) : Byte := v.extractLsb' 8 8

end Sys2Proof
end

