-- ==== Sys2Proof/Syntax.lean ====
section
/-! DEFINITION. The 77 instructions of 30_encoding.md R88, one constructor per row of spec/opcode_table.json, in the
table's order. An operand has the value the instruction means (30_encoding.md R82): a register number 0..31, not
a field of four bits; a signed `k` stays a bit vector, since the rules sign-extend it. -/

namespace Sys2Proof

inductive Instr
  -- rows 1 and 2
  | halt
  | nop
  -- rows 3 to 15, format F-RR (`lsl` and `rol` are the d == r words of ADD and ADC)
  | cpc (d r : Reg)
  | sbc (d r : Reg)
  | lsl (d : Reg)
  | add (d r : Reg)
  | cpse (d r : Reg)
  | cp (d r : Reg)
  | sub (d r : Reg)
  | rol (d : Reg)
  | adc (d r : Reg)
  | and (d r : Reg)
  | eor (d r : Reg)
  | or (d r : Reg)
  | mov (d r : Reg)
  -- rows 16 to 20, format F-RI: `d` is the register number 16..31
  | cpi (d : Reg) (k : Byte)
  | sbci (d : Reg) (k : Byte)
  | subi (d : Reg) (k : Byte)
  | ori (d : Reg) (k : Byte)
  | andi (d : Reg) (k : Byte)
  -- rows 21 to 42, format F-R1: loads, stores, LPM with a destination, POP, PUSH
  | ldZ (d : Reg)
  | ldY (d : Reg)
  | stZ (r : Reg)
  | stY (r : Reg)
  | ldZInc (d : Reg)
  | ldZDec (d : Reg)
  | lpm (d : Reg)
  | lpmInc (d : Reg)
  | ldYInc (d : Reg)
  | ldYDec (d : Reg)
  | ldX (d : Reg)
  | ldXInc (d : Reg)
  | ldXDec (d : Reg)
  | pop (d : Reg)
  | stZInc (r : Reg)
  | stZDec (r : Reg)
  | stYInc (r : Reg)
  | stYDec (r : Reg)
  | stX (r : Reg)
  | stXInc (r : Reg)
  | stXDec (r : Reg)
  | push (r : Reg)
  -- rows 43 to 50, format F-R1: one-operand arithmetic
  | com (d : Reg)
  | neg (d : Reg)
  | swap (d : Reg)
  | inc (d : Reg)
  | asr (d : Reg)
  | lsr (d : Reg)
  | ror (d : Reg)
  | dec (d : Reg)
  -- rows 51 and 52, format F-S
  | bset (s : BitNum)
  | bclr (s : BitNum)
  -- rows 53 to 60, format F-0
  | ret
  | reti
  | sleep
  | brk
  | wdr
  | lpmR0
  | ijmp
  | icall
  -- rows 61 and 62, format F-PI: the pair 24 + 2p
  | adiw (p : PairNum) (k : BitVec 6)
  | sbiw (p : PairNum) (k : BitVec 6)
  -- rows 63 to 66, format F-AB
  | cbi (a : IoLow) (b : BitNum)
  | sbic (a : IoLow) (b : BitNum)
  | sbi (a : IoLow) (b : BitNum)
  | sbis (a : IoLow) (b : BitNum)
  -- rows 67 and 68, format F-IO
  | inp (d : Reg) (a : IoNum)
  | out (a : IoNum) (r : Reg)
  -- rows 69 and 70, format F-K12
  | rjmp (k : BitVec 12)
  | rcall (k : BitVec 12)
  -- row 71, format F-RI
  | ldi (d : Reg) (k : Byte)
  -- rows 72 and 73, format F-BR
  | brbs (s : BitNum) (k : BitVec 7)
  | brbc (s : BitNum) (k : BitVec 7)
  -- rows 74 to 77, format F-RB
  | bld (d : Reg) (b : BitNum)
  | bst (d : Reg) (b : BitNum)
  | sbrc (r : Reg) (b : BitNum)
  | sbrs (r : Reg) (b : BitNum)
  deriving DecidableEq, Repr

end Sys2Proof
end

