-- ==== Sys2Proof/Decode.lean ====
section
/-! DEFINITION. The decoder and the encoder of 30_encoding.md. The table is R88's, row for row and in its order; a row is
tried by its mask, its match and its extra constraint (R83), and the first that matches gives the
instruction. No word is refused for its operand fields (R85); a word that no row matches is
answered by name. -/

namespace Sys2Proof

/-! ## Fields of a word (30_encoding.md R81, R82) -/

/-- `d` = w[8:4] of F-RR, F-R1, F-IO and F-RB; also the `r` of a store, of PUSH, OUT, SBRC and SBRS. -/
def fieldD (w : Word) : Reg := (w.extractLsb' 4 5).toFin

/-- `r` = w[9] ++ w[3:0] of F-RR. -/
def fieldR (w : Word) : Reg := (w.extractLsb' 9 1 ++ w.extractLsb' 0 4).toFin

/-- `d` = w[7:4] of F-RI, the register `16 + d`. -/
def fieldHigh (w : Word) : Reg := ⟨16 + (w.extractLsb' 4 4).toNat, by have := (w.extractLsb' 4 4).isLt; omega⟩

/-- `K` = w[11:8] ++ w[3:0] of F-RI. -/
def fieldK8 (w : Word) : Byte := w.extractLsb' 8 4 ++ w.extractLsb' 0 4

/-- `p` = w[5:4] of F-PI. -/
def fieldP (w : Word) : PairNum := (w.extractLsb' 4 2).toFin

/-- `K` = w[7:6] ++ w[3:0] of F-PI. -/
def fieldK6 (w : Word) : BitVec 6 := w.extractLsb' 6 2 ++ w.extractLsb' 0 4

/-- `A` = w[7:3] of F-AB. -/
def fieldA5 (w : Word) : IoLow := (w.extractLsb' 3 5).toFin

/-- `A` = w[10:9] ++ w[3:0] of F-IO. -/
def fieldA6 (w : Word) : IoNum := (w.extractLsb' 9 2 ++ w.extractLsb' 0 4).toFin

/-- `b` = w[2:0] of F-AB and F-RB; also the `s` of F-BR. -/
def fieldB (w : Word) : BitNum := (w.extractLsb' 0 3).toFin

/-- `s` = w[6:4] of F-S. -/
def fieldS (w : Word) : BitNum := (w.extractLsb' 4 3).toFin

/-- `k` = w[11:0] of F-K12. -/
def fieldK12 (w : Word) : BitVec 12 := w.extractLsb' 0 12

/-- `k` = w[9:3] of F-BR. -/
def fieldK7 (w : Word) : BitVec 7 := w.extractLsb' 3 7

/-! ## The decode table -/

/-- One row of 30_encoding.md R88. -/
structure Row where
  mask : Word
  pattern : Word
  /-- The row's extra constraint. -/
  extra : Word → Bool
  /-- The instruction, its operands read from the word. -/
  build : Word → Instr

/-- No extra constraint. -/
def always (_ : Word) : Bool := true

/-- The constraint `d == r` of LSL and ROL (30_encoding.md R84). -/
def fieldsEqual (w : Word) : Bool := fieldD w == fieldR w

/-- Whether a row selects the word (30_encoding.md R83). -/
def Row.selects (row : Row) (w : Word) : Bool := (w &&& row.mask == row.pattern) && row.extra w

/-- Rows 1 to 2 of 30_encoding.md R88. -/
def sentinelNopRows : List Row := [
  ⟨0xFFFF, 0xCFFF, always, fun _ => .halt⟩,
  ⟨0xFFFF, 0x0000, always, fun _ => .nop⟩]

/-- Rows 3 to 15 of 30_encoding.md R88. -/
def twoRegisterRows : List Row := [
  ⟨0xFC00, 0x0400, always, fun w => .cpc (fieldD w) (fieldR w)⟩,
  ⟨0xFC00, 0x0800, always, fun w => .sbc (fieldD w) (fieldR w)⟩,
  ⟨0xFC00, 0x0C00, fieldsEqual, fun w => .lsl (fieldD w)⟩,
  ⟨0xFC00, 0x0C00, always, fun w => .add (fieldD w) (fieldR w)⟩,
  ⟨0xFC00, 0x1000, always, fun w => .cpse (fieldD w) (fieldR w)⟩,
  ⟨0xFC00, 0x1400, always, fun w => .cp (fieldD w) (fieldR w)⟩,
  ⟨0xFC00, 0x1800, always, fun w => .sub (fieldD w) (fieldR w)⟩,
  ⟨0xFC00, 0x1C00, fieldsEqual, fun w => .rol (fieldD w)⟩,
  ⟨0xFC00, 0x1C00, always, fun w => .adc (fieldD w) (fieldR w)⟩,
  ⟨0xFC00, 0x2000, always, fun w => .and (fieldD w) (fieldR w)⟩,
  ⟨0xFC00, 0x2400, always, fun w => .eor (fieldD w) (fieldR w)⟩,
  ⟨0xFC00, 0x2800, always, fun w => .or (fieldD w) (fieldR w)⟩,
  ⟨0xFC00, 0x2C00, always, fun w => .mov (fieldD w) (fieldR w)⟩]

/-- Rows 16 to 20 of 30_encoding.md R88. -/
def immediateRows : List Row := [
  ⟨0xF000, 0x3000, always, fun w => .cpi (fieldHigh w) (fieldK8 w)⟩,
  ⟨0xF000, 0x4000, always, fun w => .sbci (fieldHigh w) (fieldK8 w)⟩,
  ⟨0xF000, 0x5000, always, fun w => .subi (fieldHigh w) (fieldK8 w)⟩,
  ⟨0xF000, 0x6000, always, fun w => .ori (fieldHigh w) (fieldK8 w)⟩,
  ⟨0xF000, 0x7000, always, fun w => .andi (fieldHigh w) (fieldK8 w)⟩]

/-- Rows 21 to 42 of 30_encoding.md R88. -/
def loadStoreRows : List Row := [
  ⟨0xFE0F, 0x8000, always, fun w => .ldZ (fieldD w)⟩,
  ⟨0xFE0F, 0x8008, always, fun w => .ldY (fieldD w)⟩,
  ⟨0xFE0F, 0x8200, always, fun w => .stZ (fieldD w)⟩,
  ⟨0xFE0F, 0x8208, always, fun w => .stY (fieldD w)⟩,
  ⟨0xFE0F, 0x9001, always, fun w => .ldZInc (fieldD w)⟩,
  ⟨0xFE0F, 0x9002, always, fun w => .ldZDec (fieldD w)⟩,
  ⟨0xFE0F, 0x9004, always, fun w => .lpm (fieldD w)⟩,
  ⟨0xFE0F, 0x9005, always, fun w => .lpmInc (fieldD w)⟩,
  ⟨0xFE0F, 0x9009, always, fun w => .ldYInc (fieldD w)⟩,
  ⟨0xFE0F, 0x900A, always, fun w => .ldYDec (fieldD w)⟩,
  ⟨0xFE0F, 0x900C, always, fun w => .ldX (fieldD w)⟩,
  ⟨0xFE0F, 0x900D, always, fun w => .ldXInc (fieldD w)⟩,
  ⟨0xFE0F, 0x900E, always, fun w => .ldXDec (fieldD w)⟩,
  ⟨0xFE0F, 0x900F, always, fun w => .pop (fieldD w)⟩,
  ⟨0xFE0F, 0x9201, always, fun w => .stZInc (fieldD w)⟩,
  ⟨0xFE0F, 0x9202, always, fun w => .stZDec (fieldD w)⟩,
  ⟨0xFE0F, 0x9209, always, fun w => .stYInc (fieldD w)⟩,
  ⟨0xFE0F, 0x920A, always, fun w => .stYDec (fieldD w)⟩,
  ⟨0xFE0F, 0x920C, always, fun w => .stX (fieldD w)⟩,
  ⟨0xFE0F, 0x920D, always, fun w => .stXInc (fieldD w)⟩,
  ⟨0xFE0F, 0x920E, always, fun w => .stXDec (fieldD w)⟩,
  ⟨0xFE0F, 0x920F, always, fun w => .push (fieldD w)⟩]

/-- Rows 43 to 50 of 30_encoding.md R88. -/
def oneRegisterRows : List Row := [
  ⟨0xFE0F, 0x9400, always, fun w => .com (fieldD w)⟩,
  ⟨0xFE0F, 0x9401, always, fun w => .neg (fieldD w)⟩,
  ⟨0xFE0F, 0x9402, always, fun w => .swap (fieldD w)⟩,
  ⟨0xFE0F, 0x9403, always, fun w => .inc (fieldD w)⟩,
  ⟨0xFE0F, 0x9405, always, fun w => .asr (fieldD w)⟩,
  ⟨0xFE0F, 0x9406, always, fun w => .lsr (fieldD w)⟩,
  ⟨0xFE0F, 0x9407, always, fun w => .ror (fieldD w)⟩,
  ⟨0xFE0F, 0x940A, always, fun w => .dec (fieldD w)⟩]

/-- Rows 51 to 60 of 30_encoding.md R88. -/
def fixedRows : List Row := [
  ⟨0xFF8F, 0x9408, always, fun w => .bset (fieldS w)⟩,
  ⟨0xFF8F, 0x9488, always, fun w => .bclr (fieldS w)⟩,
  ⟨0xFFFF, 0x9508, always, fun _ => .ret⟩,
  ⟨0xFFFF, 0x9518, always, fun _ => .reti⟩,
  ⟨0xFFFF, 0x9588, always, fun _ => .sleep⟩,
  ⟨0xFFFF, 0x9598, always, fun _ => .brk⟩,
  ⟨0xFFFF, 0x95A8, always, fun _ => .wdr⟩,
  ⟨0xFFFF, 0x95C8, always, fun _ => .lpmR0⟩,
  ⟨0xFFFF, 0x9409, always, fun _ => .ijmp⟩,
  ⟨0xFFFF, 0x9509, always, fun _ => .icall⟩]

/-- Rows 61 to 66 of 30_encoding.md R88. -/
def wordAndIoBitRows : List Row := [
  ⟨0xFF00, 0x9600, always, fun w => .adiw (fieldP w) (fieldK6 w)⟩,
  ⟨0xFF00, 0x9700, always, fun w => .sbiw (fieldP w) (fieldK6 w)⟩,
  ⟨0xFF00, 0x9800, always, fun w => .cbi (fieldA5 w) (fieldB w)⟩,
  ⟨0xFF00, 0x9900, always, fun w => .sbic (fieldA5 w) (fieldB w)⟩,
  ⟨0xFF00, 0x9A00, always, fun w => .sbi (fieldA5 w) (fieldB w)⟩,
  ⟨0xFF00, 0x9B00, always, fun w => .sbis (fieldA5 w) (fieldB w)⟩]

/-- Rows 67 to 71 of 30_encoding.md R88. -/
def ioAndRelativeRows : List Row := [
  ⟨0xF800, 0xB000, always, fun w => .inp (fieldD w) (fieldA6 w)⟩,
  ⟨0xF800, 0xB800, always, fun w => .out (fieldA6 w) (fieldD w)⟩,
  ⟨0xF000, 0xC000, always, fun w => .rjmp (fieldK12 w)⟩,
  ⟨0xF000, 0xD000, always, fun w => .rcall (fieldK12 w)⟩,
  ⟨0xF000, 0xE000, always, fun w => .ldi (fieldHigh w) (fieldK8 w)⟩]

/-- Rows 72 to 77 of 30_encoding.md R88. -/
def branchAndBitRows : List Row := [
  ⟨0xFC00, 0xF000, always, fun w => .brbs (fieldB w) (fieldK7 w)⟩,
  ⟨0xFC00, 0xF400, always, fun w => .brbc (fieldB w) (fieldK7 w)⟩,
  ⟨0xFE08, 0xF800, always, fun w => .bld (fieldD w) (fieldB w)⟩,
  ⟨0xFE08, 0xFA00, always, fun w => .bst (fieldD w) (fieldB w)⟩,
  ⟨0xFE08, 0xFC00, always, fun w => .sbrc (fieldD w) (fieldB w)⟩,
  ⟨0xFE08, 0xFE00, always, fun w => .sbrs (fieldD w) (fieldB w)⟩]

/-- The complete decode table in decode order (30_encoding.md R88). -/
def table : List Row :=
  sentinelNopRows ++ twoRegisterRows ++ immediateRows ++ loadStoreRows ++ oneRegisterRows ++
    fixedRows ++ wordAndIoBitRows ++ ioAndRelativeRows ++ branchAndBitRows

/-- Why the decoder answers no instruction. -/
inductive DecodeError
  /-- The word matches no row: an unknown instruction (60_exceptions.md R301). -/
  | unknownWord (w : Word)
  /-- Fewer than the two bytes of one word (30_encoding.md R80). -/
  | truncated
  deriving DecidableEq, Repr

/-- The instruction of a word: the first row that selects it (30_encoding.md R83). -/
def decode (w : Word) : Except DecodeError Instr :=
  match table.find? (fun row => row.selects w) with
  | some row => .ok (row.build w)
  | none => .error (.unknownWord w)

/-- The instruction at the head of a list of bytes, low byte first (30_encoding.md R80), and the bytes after it. -/
def decodeBytes : List Byte → Except DecodeError (Instr × List Byte)
  | lo :: hi :: rest =>
    match decode (hi ++ lo) with
    | .ok i => .ok (i, rest)
    | .error e => .error e
  | _ => .error .truncated

/-- The decoder's answer for a row of the opcode table, from the bits as the table numbers them. -/
def decodeTableWord (nbits w : Nat) : Option Instr :=
  match decodeBytes [BitVec.ofNat 8 (w % 2 ^ nbits), BitVec.ofNat 8 (w % 2 ^ nbits / 256)] with
  | .ok (i, _) => some i
  | .error _ => none

/-! ## The encoder (30_encoding.md R92): a row's match, each field's bits at the positions of R81 -/

def placeD (d : Reg) : Word := BitVec.ofNat 16 d.val <<< 4

def placeR (r : Reg) : Word := BitVec.ofNat 16 (r.val / 16) <<< 9 ||| BitVec.ofNat 16 (r.val % 16)

/-- The four-bit field of r16..r31 (the low four bits of the register number). -/
def placeHigh (d : Reg) : Word := BitVec.ofNat 16 (d.val % 16) <<< 4

def placeK8 (k : Byte) : Word := BitVec.ofNat 16 (k.toNat / 16) <<< 8 ||| BitVec.ofNat 16 (k.toNat % 16)

def placeP (p : PairNum) : Word := BitVec.ofNat 16 p.val <<< 4

def placeK6 (k : BitVec 6) : Word := BitVec.ofNat 16 (k.toNat / 16) <<< 6 ||| BitVec.ofNat 16 (k.toNat % 16)

def placeA5 (a : IoLow) : Word := BitVec.ofNat 16 a.val <<< 3

def placeA6 (a : IoNum) : Word := BitVec.ofNat 16 (a.val / 16) <<< 9 ||| BitVec.ofNat 16 (a.val % 16)

def placeB (b : BitNum) : Word := BitVec.ofNat 16 b.val

def placeS (s : BitNum) : Word := BitVec.ofNat 16 s.val <<< 4

def placeK12 (k : BitVec 12) : Word := k.zeroExtend 16

def placeK7 (k : BitVec 7) : Word := k.zeroExtend 16 <<< 3

/-- The word of an instruction. -/
def encode : Instr → Word
  | .halt => 0xCFFF
  | .nop => 0x0000
  | .cpc d r => 0x0400 ||| placeD d ||| placeR r
  | .sbc d r => 0x0800 ||| placeD d ||| placeR r
  | .lsl d => 0x0C00 ||| placeD d ||| placeR d
  | .add d r => 0x0C00 ||| placeD d ||| placeR r
  | .cpse d r => 0x1000 ||| placeD d ||| placeR r
  | .cp d r => 0x1400 ||| placeD d ||| placeR r
  | .sub d r => 0x1800 ||| placeD d ||| placeR r
  | .rol d => 0x1C00 ||| placeD d ||| placeR d
  | .adc d r => 0x1C00 ||| placeD d ||| placeR r
  | .and d r => 0x2000 ||| placeD d ||| placeR r
  | .eor d r => 0x2400 ||| placeD d ||| placeR r
  | .or d r => 0x2800 ||| placeD d ||| placeR r
  | .mov d r => 0x2C00 ||| placeD d ||| placeR r
  | .cpi d k => 0x3000 ||| placeHigh d ||| placeK8 k
  | .sbci d k => 0x4000 ||| placeHigh d ||| placeK8 k
  | .subi d k => 0x5000 ||| placeHigh d ||| placeK8 k
  | .ori d k => 0x6000 ||| placeHigh d ||| placeK8 k
  | .andi d k => 0x7000 ||| placeHigh d ||| placeK8 k
  | .ldZ d => 0x8000 ||| placeD d
  | .ldY d => 0x8008 ||| placeD d
  | .stZ d => 0x8200 ||| placeD d
  | .stY d => 0x8208 ||| placeD d
  | .ldZInc d => 0x9001 ||| placeD d
  | .ldZDec d => 0x9002 ||| placeD d
  | .lpm d => 0x9004 ||| placeD d
  | .lpmInc d => 0x9005 ||| placeD d
  | .ldYInc d => 0x9009 ||| placeD d
  | .ldYDec d => 0x900A ||| placeD d
  | .ldX d => 0x900C ||| placeD d
  | .ldXInc d => 0x900D ||| placeD d
  | .ldXDec d => 0x900E ||| placeD d
  | .pop d => 0x900F ||| placeD d
  | .stZInc d => 0x9201 ||| placeD d
  | .stZDec d => 0x9202 ||| placeD d
  | .stYInc d => 0x9209 ||| placeD d
  | .stYDec d => 0x920A ||| placeD d
  | .stX d => 0x920C ||| placeD d
  | .stXInc d => 0x920D ||| placeD d
  | .stXDec d => 0x920E ||| placeD d
  | .push d => 0x920F ||| placeD d
  | .com d => 0x9400 ||| placeD d
  | .neg d => 0x9401 ||| placeD d
  | .swap d => 0x9402 ||| placeD d
  | .inc d => 0x9403 ||| placeD d
  | .asr d => 0x9405 ||| placeD d
  | .lsr d => 0x9406 ||| placeD d
  | .ror d => 0x9407 ||| placeD d
  | .dec d => 0x940A ||| placeD d
  | .bset s => 0x9408 ||| placeS s
  | .bclr s => 0x9488 ||| placeS s
  | .ret => 0x9508
  | .reti => 0x9518
  | .sleep => 0x9588
  | .brk => 0x9598
  | .wdr => 0x95A8
  | .lpmR0 => 0x95C8
  | .ijmp => 0x9409
  | .icall => 0x9509
  | .adiw p k => 0x9600 ||| placeP p ||| placeK6 k
  | .sbiw p k => 0x9700 ||| placeP p ||| placeK6 k
  | .cbi a b => 0x9800 ||| placeA5 a ||| placeB b
  | .sbic a b => 0x9900 ||| placeA5 a ||| placeB b
  | .sbi a b => 0x9A00 ||| placeA5 a ||| placeB b
  | .sbis a b => 0x9B00 ||| placeA5 a ||| placeB b
  | .inp d a => 0xB000 ||| placeD d ||| placeA6 a
  | .out a r => 0xB800 ||| placeD r ||| placeA6 a
  | .rjmp k => 0xC000 ||| placeK12 k
  | .rcall k => 0xD000 ||| placeK12 k
  | .ldi d k => 0xE000 ||| placeHigh d ||| placeK8 k
  | .brbs s k => 0xF000 ||| placeB s ||| placeK7 k
  | .brbc s k => 0xF400 ||| placeB s ||| placeK7 k
  | .bld d b => 0xF800 ||| placeD d ||| placeB b
  | .bst d b => 0xFA00 ||| placeD d ||| placeB b
  | .sbrc d b => 0xFC00 ||| placeD d ||| placeB b
  | .sbrs d b => 0xFE00 ||| placeD d ||| placeB b

/-- The two bytes of an instruction as the Byte Store holds them (20_memory.md R58). -/
def encodeBytes (i : Instr) : List Byte := [(encode i).lo, (encode i).hi]

end Sys2Proof
end

