-- ==== Sys2Proof/Machine/Bits.lean ====
section
/-! DEFINITION. Bit-field helpers on bytes and words (00_scope.md R8, R9). -/

namespace Sys2Proof.Machine

/-- `bit(v, b)` of a byte (00_scope.md R9). -/
def testBit (v : Byte) (b : BitNum) : Bool := v.getLsbD b.val

/-- The byte with bit `b` alone set, `1 << b`. -/
def bitMask (b : BitNum) : Byte := 1#8 <<< b.val

/-- The byte with bit `b` replaced: `v | (1 << b)` or `v & ~(1 << b)`. -/
def putBit (v : Byte) (b : BitNum) (x : Bool) : Byte :=
  if x then v ||| bitMask b else v &&& ~~~ bitMask b

/-- A word from its high and its low byte, `hi ++ lo`. -/
def joinBytes (hi lo : Byte) : Word := hi ++ lo

/-- The carry-in or borrow-in bit as a number. -/
def bitNat (c : Bool) : Nat := if c then 1 else 0

end Sys2Proof.Machine
end

