-- ==== Sys2Proof/Config.lean ====
section
/-! DEFINITION. The parameters of 00_scope.md R6. Those whose value is in the source are constants here; those
the spec decides, or leaves OPEN, are the fields of `Params`, which State holds, so that a
statement about every state is a statement about every value of them. At the end the one free
value of the model, the oracle host's answers. -/

namespace Sys2Proof
namespace Config

/-- REG_LIMIT: data addresses below this select registers (00_scope.md R6, 20_memory.md R52). -/
abbrev regLimit : Nat := 0x20

/-- RAM_SIZE: bytes of RAM (10_state.md R38). -/
abbrev ramSize : Nat := 128

/-- VEC_FIRST: the first syscall-vector offset (00_scope.md R6). -/
abbrev vecFirst : Nat := 2

/-- VEC_LAST: the last syscall-vector offset (00_scope.md R6). -/
abbrev vecLast : Nat := 26

end Config

/-- The parameters of 00_scope.md R6 whose value the spec decides (D4, D7, D34) or leaves OPEN (93_implementation_defined.md U7) and
that are not state of another name: the host fixes them before `init` and no step changes
them (log 25). -/
structure Params where
  /-- IO_BASE: data address of I/O register number 0 (20_memory.md R57, D4). -/
  ioBase : Word
  /-- SPL_ADDR (10_state.md R31, D4). -/
  splAddr : Word
  /-- SPH_ADDR (10_state.md R31, D4). -/
  sphAddr : Word
  /-- SREG_ADDR (10_state.md R31, D4). -/
  sregAddr : Word
  /-- RAM_BASE: the first data address of the RAM window (20_memory.md R53, D4). -/
  ramBase : Word
  /-- SP_RESET: SP after `init` (70_reset_and_hazards.md R330, D7). -/
  spReset : Word
  /-- STR_SCAN_MAX: the most bytes a NUL-terminated scan visits (48_syscall_vectors.md R279, D34). -/
  strScanMax : Nat
  /-- CHAR_OUT_ADDR (20_memory.md R56). -/
  charOutAddr : Word
  /-- STORE_SIZE, the length N of the Byte Store (20_memory.md R50, R51). -/
  storeSize : Nat
  /-- NEWLINE, the bytes the println vectors append (48_syscall_vectors.md R284). -/
  newline : List Byte
  deriving DecidableEq, Repr

/-- The parameters at reset: the values and defaults of 00_scope.md R6 (log 3, log 25), SP_RESET being
RAM_BASE + RAM_SIZE - 1; and 65536 for STORE_SIZE, which has no default. DESIGN CHOICE, unsafe
(log 2). -/
def Params.default : Params where
  ioBase := 0x0020
  splAddr := 0x005D
  sphAddr := 0x005E
  sregAddr := 0x005F
  ramBase := 0x0060
  spReset := 0x00DF
  strScanMax := 65536
  charOutAddr := 0x002C
  storeSize := 65536
  newline := [0x0D, 0x0A]

/-- What an oracle host may answer to one of the eight file operations (48_syscall_vectors.md R271): a result
value, buffer bytes, and bytes it writes into the Byte Store. The core side of each operation
cuts them to the bounds of R275. -/
structure HostAnswer where
  /-- The value for r25:r24, or for r24 in its low byte. -/
  value : Word
  /-- Bytes for the buffer of file_name or file_read. -/
  bytes : List Byte
  /-- Byte Store writes of file_open or file_write, by Byte Store address. -/
  storeWrites : List Host.Cell
  deriving DecidableEq, Repr, Inhabited

/-- The oracle host's n-th answer: a FREE VALUE (93_implementation_defined.md U3, U4: `any value`). It has no body, so
nothing can be proved of it. DESIGN CHOICE, safe (log 11). -/
opaque Config.hostAnswer : Nat → HostAnswer

end Sys2Proof
end

