-- ==== Sys2Proof/Machine/State.lean ====
section
/-! DEFINITION. The state of one core instance and of the host beside it (10_state.md R20 to R42,
48_syscall_vectors.md R276), the reasons a step can stop, and the state after reset. All of it is plain data. -/

namespace Sys2Proof.Machine

/-! ## Memories -/

/-- A byte memory: (address, byte) pairs with strictly rising addresses and no byte equal to
`blankByte`, which is what an unlisted address reads as. -/
abbrev Memory := List Host.Cell

/-- What an unlisted address reads as: RAM is 0x00 after `init` (10_state.md R42), and `zero-filled` is
the Byte Store's own initialisation (70_reset_and_hazards.md R331; log 5). -/
def blankByte : Byte := 0x00

/-! ## The classification of a step -/

/-- What `clock()` returns (40_step_cycle.md R106). -/
inductive StepClass
  /-- Every instruction not listed below. -/
  | normal
  /-- RCALL, ICALL. -/
  | call
  /-- RET, RETI, every vector step. -/
  | ret
  /-- The halt sentinel; every step of a Halted core. -/
  | halted
  /-- A word that matches no decode row. -/
  | unknown
  deriving DecidableEq, Repr

/-! ## The host's state (48_syscall_vectors.md R276) -/

/-- Which host answers the eight file operations (48_syscall_vectors.md R271, 93_implementation_defined.md U3; log 10). -/
inductive HostKind
  /-- The reference behaviour of R286 to R293. -/
  | reference
  /-- Any answer within the bounds of R275: `Config.hostAnswer`. -/
  | oracle
  deriving DecidableEq, Repr

/-- The mode a handle was opened with (48_syscall_vectors.md R286). -/
inductive OpenMode
  | read
  | write
  | append
  deriving DecidableEq, Repr

/-- A file of the reference host: its name, its stored size (the entry's size word) and the bytes
of its block, of which the first `size` are the file (48_syscall_vectors.md R286 to R292; log 16). The same bytes
stand in the Byte Store (log 12). -/
structure FileEntry where
  name : List Byte
  size : Nat
  data : List Byte
  deriving DecidableEq, Repr

/-- A slot of the open-file table (48_syscall_vectors.md R276); `file` is the entry's index, which stands for
the source's block address and name length. -/
structure Slot where
  file : Nat
  size : Nat
  cursor : Nat
  mode : OpenMode
  deriving DecidableEq, Repr

/-- The host as the vectors show it. -/
structure HostState where
  /-- The serial output stream, in emission order. -/
  serial : List Byte
  kind : HostKind
  files : List FileEntry
  /-- The open-file table; its length is FILE_SLOTS. -/
  slots : List (Option Slot)
  /-- The Byte Store address where the reference host's file area starts (log 12). -/
  fileBase : Nat
  /-- How many bytes of entries the reference host can hold (log 13). -/
  capacity : Nat
  /-- The model's own counter: how many free values the oracle has given (log 11). -/
  asked : Nat
  deriving DecidableEq, Repr

/-! ## The state -/

/-- One core instance, its parameters, the Byte Store and the host. -/
structure State where
  /-- x[0..31] (10_state.md R20). -/
  regs : Vector Byte 32
  /-- SREG (10_state.md R27). -/
  sreg : Byte
  /-- SP (10_state.md R33). -/
  sp : Word
  /-- pc, a byte offset from `programBase` (10_state.md R25). -/
  pc : Word
  /-- program_base, a Byte Store address (10_state.md R36). -/
  programBase : Nat
  /-- Running or Halted (10_state.md R37). -/
  running : Bool
  /-- ram[0..127], by index (10_state.md R38). -/
  ram : Memory
  /-- What the last `clock()` returned; `none` after `init` (40_step_cycle.md R106, 10_state.md R42; log 7). -/
  cls : Option StepClass
  /-- The decided and the OPEN parameters (00_scope.md R6). -/
  params : Params
  /-- The Byte Store, by Byte Store address (20_memory.md R50). -/
  store : Memory
  /-- The host's state (48_syscall_vectors.md R276). -/
  host : HostState
  deriving DecidableEq, Repr

/-! ## Reasons to stop -/

/-- The one fault. -/
inductive Fault
  /-- `StoreRange`: a fetch, an LPM or a program-memory string read at a Byte Store address
  beyond STORE_SIZE (20_memory.md R51, 60_exceptions.md R303, 93_implementation_defined.md U1). Raised by `progRead`. Safe: the spec makes it the
  model's own stop, with no state change, where the source says nothing (log 8). -/
  | storeRange (address : Nat)
  deriving DecidableEq, Repr

/-- The refusals. -/
inductive Refusal
  /-- An instruction whose arm gives it no meaning yet. Raised by `exec` alone, and by no arm of
  this model. Safe: the model stops. -/
  | notModelled (mnemonic : String)
  deriving DecidableEq, Repr

/-- What an instruction, a host operation or a step answers. -/
abbrev Result := Host.Outcome State Fault Refusal

/-! ## Reset -/

/-- The host before anything has run: log 4 (four slots), log 9 (no serial output, no files),
log 10 (the reference host), logs 12 and 13 (where the file area lies and how large it is), log 11
(no free value used). -/
def HostState.fresh : HostState where
  serial := []
  kind := .reference
  files := []
  slots := List.replicate 4 none
  fileBase := 0x8000
  capacity := 0x8000
  asked := 0

/-- The machine right after `init(0)` (10_state.md R42, 70_reset_and_hazards.md R330), with the default parameters and
nothing loaded. -/
def State.reset : State where
  regs := Vector.replicate 32 0x00
  sreg := 0x00
  sp := Params.default.spReset
  pc := 0x0000
  programBase := 0
  running := true
  ram := []
  cls := none
  params := Params.default
  store := []
  host := HostState.fresh

end Sys2Proof.Machine
end

