-- ==== Sys2Proof/Machine/Ops.lean ====
section
/-! DEFINITION. The named operations over registers, memories, stack and program counter. Every instruction reads and
writes the state through them. The data-space map (20_memory.md R54, R55) stands here once, and so
does taking the one exception (60_exceptions.md R301). -/

namespace Sys2Proof.Machine

/-! ## Byte memories in canonical form -/

/-- The byte at an address. -/
def Memory.read : Memory → Nat → Byte
  | [], _ => blankByte
  | (b, v) :: m, a => if b = a then v else Memory.read m a

/-- The memory with one byte written; writing `blankByte` removes the entry. -/
def Memory.write : Memory → Nat → Byte → Memory
  | [], a, v => if v = blankByte then [] else [(a, v)]
  | (b, w) :: m, a, v =>
    if a < b then
      if v = blankByte then (b, w) :: m else (a, v) :: (b, w) :: m
    else if a = b then
      if v = blankByte then m else (a, v) :: m
    else (b, w) :: Memory.write m a v

/-- The canonical form: addresses strictly rising, no blank byte listed. -/
abbrev Memory.wf (m : Memory) : Prop :=
  m.Pairwise (fun p q => p.1 < q.1) ∧ ∀ p ∈ m, p.2 ≠ blankByte

/-- Every listed address lies below a bound. -/
abbrev Memory.below (m : Memory) (bound : Nat) : Prop := ∀ p ∈ m, p.1 < bound

/-! ## Registers (10_state.md R20 to R23) -/

/-- `x[i]`. -/
def State.reg (s : State) (i : Reg) : Byte := s.regs[i.val]

/-- `x[i] <- v`. -/
def State.setReg (s : State) (i : Reg) (v : Byte) : State := { s with regs := s.regs.set i.val v }

/-- The register pairs an instruction or the syscall ABI uses (10_state.md R23, 48_syscall_vectors.md R273). -/
inductive RegPair
  | r20
  | r22
  | r24
  | x
  | y
  | z
  deriving DecidableEq, Repr

/-- The low, even register of a pair (10_state.md R21, R23). -/
def RegPair.lo : RegPair → Reg
  | .r20 => 20
  | .r22 => 22
  | .r24 => 24
  | .x => 26
  | .y => 28
  | .z => 30

/-- The high register of a pair. -/
def RegPair.hi : RegPair → Reg
  | .r20 => 21
  | .r22 => 23
  | .r24 => 25
  | .x => 27
  | .y => 29
  | .z => 31

/-- `pair(i) = x[i+1] ++ x[i]` (10_state.md R23). -/
def State.pair (s : State) (p : RegPair) : Word := joinBytes (s.reg p.hi) (s.reg p.lo)

/-- `pair(i) <- v`: low byte first (10_state.md R23). -/
def State.setPair (s : State) (p : RegPair) (v : Word) : State := (s.setReg p.lo v.lo).setReg p.hi v.hi

/-! ## Whole fields -/

def State.setSreg (s : State) (v : Byte) : State := { s with sreg := v }

def State.setSp (s : State) (v : Word) : State := { s with sp := v }

/-- `pc <- target` (10_state.md R26). -/
def State.setPc (s : State) (v : Word) : State := { s with pc := v }

/-- `class <- c` (40_step_cycle.md R106). -/
def State.setClass (s : State) (c : StepClass) : State := { s with cls := some c }

def State.setRam (s : State) (m : Memory) : State := { s with ram := m }

def State.setStore (s : State) (m : Memory) : State := { s with store := m }

def State.setHost (s : State) (h : HostState) : State := { s with host := h }

/-- `running <- false` (10_state.md R37). -/
def State.stop (s : State) : State := { s with running := false }

/-- The numeric code of a classification (40_step_cycle.md R106). -/
def StepClass.code : StepClass → Nat
  | .normal => 0
  | .call => 1
  | .ret => 2
  | .halted => 3
  | .unknown => 4

/-! ## Character output (20_memory.md R56) -/

/-- The serial stream with bytes appended (48_syscall_vectors.md R276). -/
def HostState.emit (h : HostState) (bytes : List Byte) : HostState := { h with serial := h.serial ++ bytes }

/-- `CharOut(v)`. -/
def State.charOut (s : State) (v : Byte) : State := s.setHost (s.host.emit [v])

/-! ## The data space (20_memory.md R52 to R57) -/

/-- What a data address selects. -/
inductive DataCell
  | reg (i : Reg)
  | spl
  | sph
  | sreg
  | ram (i : Nat)
  | charOut
  | unmapped
  deriving DecidableEq, Repr

/-- The data-space map, by the first matching line of 20_memory.md R54 and R55. -/
def dataCell (s : State) (a : Word) : DataCell :=
  if h : a.toNat < Config.regLimit then .reg ⟨a.toNat, h⟩
  else if a = s.params.splAddr then .spl
  else if a = s.params.sphAddr then .sph
  else if a = s.params.sregAddr then .sreg
  else if s.params.ramBase.toNat ≤ a.toNat ∧ a.toNat < s.params.ramBase.toNat + Config.ramSize then
    .ram (a.toNat - s.params.ramBase.toNat)
  else if a = s.params.charOutAddr then .charOut
  else .unmapped

/-! Which line of 20_memory.md R54 and R55 an address above the registers falls under: the first that matches. -/

/-- The line of SPL_ADDR. -/
abbrev atSpl (p : Params) (a : Word) : Prop := Config.regLimit ≤ a.toNat ∧ a = p.splAddr

/-- The line of SPH_ADDR. -/
abbrev atSph (p : Params) (a : Word) : Prop := Config.regLimit ≤ a.toNat ∧ a ≠ p.splAddr ∧ a = p.sphAddr

/-- The line of SREG_ADDR. -/
abbrev atSreg (p : Params) (a : Word) : Prop :=
  Config.regLimit ≤ a.toNat ∧ a ≠ p.splAddr ∧ a ≠ p.sphAddr ∧ a = p.sregAddr

/-- The address lies above the registers and is no alias. -/
abbrev pastAliases (p : Params) (a : Word) : Prop :=
  Config.regLimit ≤ a.toNat ∧ a ≠ p.splAddr ∧ a ≠ p.sphAddr ∧ a ≠ p.sregAddr

/-- The line of the RAM window, at `ram[i]`. -/
abbrev atRam (p : Params) (a : Word) (i : Nat) : Prop :=
  pastAliases p a ∧ i < Config.ramSize ∧ a.toNat = p.ramBase.toNat + i

/-- The address lies outside the RAM window. -/
abbrev offRam (p : Params) (a : Word) : Prop := a.toNat < p.ramBase.toNat ∨ p.ramBase.toNat + Config.ramSize ≤ a.toNat

/-- The lines after the RAM window: the character output or unmapped. -/
abbrev pastRam (p : Params) (a : Word) : Prop := pastAliases p a ∧ offRam p a

/-- The SP alias bytes: `SP[7:0]`, and `SP[9:8]` zero-extended (10_state.md R34, R35). -/
def splByte (sp : Word) : Byte := sp.lo

def sphByte (sp : Word) : Byte := (sp.extractLsb' 8 2).zeroExtend 8

/-- `SP <- SP[15:8] ++ v` (10_state.md R34). -/
def withSpl (sp : Word) (v : Byte) : Word := joinBytes sp.hi v

/-- `SP <- 0b000000 ++ v[1:0] ++ SP[7:0]` (10_state.md R35). -/
def withSph (sp : Word) (v : Byte) : Word := joinBytes ((v.extractLsb' 0 2).zeroExtend 8) sp.lo

/-- `MemRead(a, 1)` (20_memory.md R54). -/
def memRead (s : State) (a : Word) : Byte :=
  match dataCell s a with
  | .reg i => s.reg i
  | .spl => splByte s.sp
  | .sph => sphByte s.sp
  | .sreg => s.sreg
  | .ram i => Memory.read s.ram i
  | .charOut => 0x00
  | .unmapped => 0x00

/-- `MemWrite(a, 1, v)` (20_memory.md R55). -/
def memWrite (s : State) (a : Word) (v : Byte) : State :=
  match dataCell s a with
  | .reg i => s.setReg i v
  | .spl => s.setSp (withSpl s.sp v)
  | .sph => s.setSp (withSph s.sp v)
  | .sreg => s.setSreg v
  | .ram i => s.setRam (Memory.write s.ram i v)
  | .charOut => s.charOut v
  | .unmapped => s

/-- The data address of an I/O register number, `IO_BASE + A` (20_memory.md R57). -/
def ioAddr (p : Params) (a : Nat) : Word := p.ioBase + BitVec.ofNat 16 a

/-- `count` bytes read upward from an address, modulo 2^16 (48_syscall_vectors.md R275). -/
def readBytes (s : State) (a : Word) : Nat → List Byte
  | 0 => []
  | count + 1 => memRead s a :: readBytes s (a + 1) count

/-- Bytes written upward from an address, modulo 2^16, in ascending order (48_syscall_vectors.md R272, R275). -/
def writeBytes (s : State) (a : Word) : List Byte → State
  | [] => s
  | v :: vs => writeBytes (memWrite s a v) (a + 1) vs

/-! ## Program memory (20_memory.md R50, R51, R58) -/

/-- `ProgRead(off)`: the sum is formed in the natural numbers. -/
def progRead (s : State) (off : Word) : Except Fault Byte :=
  if s.programBase + off.toNat < s.params.storeSize then .ok (Memory.read s.store (s.programBase + off.toNat))
  else .error (.storeRange (s.programBase + off.toNat))

/-- Fetch: little-endian, `pc0 + 1` modulo 2^16 (20_memory.md R58, 40_step_cycle.md R101). -/
def fetchWord (s : State) : Except Fault Word :=
  match progRead s s.pc with
  | .error f => .error f
  | .ok lo =>
    match progRead s (s.pc + 1) with
    | .error f => .error f
    | .ok hi => .ok (joinBytes hi lo)

/-- A Byte Store write by the host; the store has no byte at or beyond STORE_SIZE (20_memory.md R50). -/
def storeWrite (size : Nat) (m : Memory) (a : Nat) (v : Byte) : Memory :=
  if a < size then Memory.write m a v else m

/-- The Byte Store after a list of the host's writes, in order. -/
def storeWrites (size : Nat) (m : Memory) : List Host.Cell → Memory
  | [] => m
  | (a, v) :: rest => storeWrites size (storeWrite size m a v) rest

/-! ## The stack (45_stack.md R232, R233; 43_control_flow.md R168, R169) -/

/-- `Push8(v)`: the decrement reads SP as the write left it. -/
def push8 (s : State) (v : Byte) : State :=
  (memWrite s s.sp v).setSp ((memWrite s s.sp v).sp - 1)

/-- The state after `Pop8()`. -/
def pop8State (s : State) : State := s.setSp (s.sp + 1)

/-- The byte `Pop8()` returns. -/
def pop8 (s : State) : Byte := memRead (pop8State s) (pop8State s).sp

/-- `Push16(v)`: low byte first. -/
def push16 (s : State) (v : Word) : State := push8 (push8 s v.lo) v.hi

/-- The state after `Pop16()`. -/
def pop16State (s : State) : State := pop8State (pop8State s)

/-- The value `Pop16()` returns: high byte first. -/
def pop16 (s : State) : Word := joinBytes (pop8 s) (pop8 (pop8State s))

/-! ## Control transfer -/

/-- The byte displacement `2*k` added to the advanced pc, modulo 2^16 (43_control_flow.md R160, R178). -/
def relTarget (pc : Word) (k : Int) : Word := BitVec.ofInt 16 (pc.toNat + 2 * k)

/-- `(2 * Z) mod 2^16` (43_control_flow.md R164). -/
def indirectTarget (z : Word) : Word := BitVec.ofNat 16 (2 * z.toNat)

/-- The skip law: one more word when the condition holds (43_control_flow.md R180). -/
def skipIf (cond : Bool) (s : State) : State := if cond then s.setPc (s.pc + 2) else s

/-- A branch taken when the condition holds (43_control_flow.md R178, R179). -/
def branchIf (cond : Bool) (k : BitVec 7) (s : State) : State :=
  if cond then s.setPc (relTarget s.pc k.toInt) else s

/-- A call: the return offset pushed, then the transfer, class Call (43_control_flow.md R163, R165). The target
is computed before the push (00_scope.md R11). -/
def callTo (target : Word) (s : State) : State := ((push16 s s.pc).setPc target).setClass .call

/-- The native return and the simulated one: pc popped, class Return (43_control_flow.md R166, 48_syscall_vectors.md R272). -/
def returnFrom (s : State) : State := ((pop16State s).setPc (pop16 s)).setClass .ret

/-! ## The one exception, and the return from one -/

/-- Taking `UnknownInstruction` (60_exceptions.md R301): nothing is saved, pc stays advanced, the instance halts.
No return from it exists (60_exceptions.md R313). -/
def State.raiseUnknown (s : State) : State := s.stop.setClass .unknown

/-- RETI's return: a plain return, then I <- 1; it restores nothing else, as nothing was saved
(43_control_flow.md R167, 60_exceptions.md R313). -/
def returnFromInterrupt (s : State) : State :=
  let t := returnFrom s
  t.setSreg (putBit t.sreg 7 true)

end Sys2Proof.Machine
end

