-- ==== Sys2Proof/Machine/Flags.lean ====
section
/-! DEFINITION. The status byte and every flag computation of the spec: 41_arithmetic.md R128 to R131, R126, R127,
42_logic.md R145, R147 to R149, 46_bit_manipulation.md R237. Sums and differences are exact numbers, compared with their bounds. -/

namespace Sys2Proof.Machine

/-- The flags of SREG (10_state.md R27). -/
inductive Flag
  | c
  | z
  | n
  | v
  | s
  | h
  | t
  | i
  deriving DecidableEq, Repr

/-- The bit a flag occupies (10_state.md R27). -/
def Flag.bit : Flag → BitNum
  | .c => 0
  | .z => 1
  | .n => 2
  | .v => 3
  | .s => 4
  | .h => 5
  | .t => 6
  | .i => 7

/-- A flag of a status byte. -/
def getFlag (f : Flag) (sr : Byte) : Bool := testBit sr f.bit

/-- A status byte with one flag replaced. -/
def putFlag (f : Flag) (b : Bool) (sr : Byte) : Byte := putBit sr f.bit b

/-- A flag of the state's SREG. -/
def State.flag (s : State) (f : Flag) : Bool := getFlag f s.sreg

/-- N and V written, and with them `S <- N ^ V`: S is never written alone (41_arithmetic.md R131). -/
def putNVS (n v : Bool) (sr : Byte) : Byte := putFlag .s (xor n v) (putFlag .v v (putFlag .n n sr))

/-- `bit(v, 7)`. -/
def signBit (v : Byte) : Bool := testBit v 7

/-- `bit(v, 15)`. -/
def signBit16 (v : Word) : Bool := v.getLsbD 15

/-- `(a + b + c) mod 256` (41_arithmetic.md R128). -/
def addResult (a b : Byte) (c : Bool) : Byte := BitVec.ofNat 8 (a.toNat + b.toNat + bitNat c)

/-- `AddFlags(a, b, c)` (41_arithmetic.md R128), Z from the result (R130). -/
def addFlags (a b : Byte) (c : Bool) (sr : Byte) : Byte :=
  let r := addResult a b c
  let carry : Bool := a.toNat + b.toNat + bitNat c > 255
  let half : Bool := a.toNat % 16 + b.toNat % 16 + bitNat c > 15
  let ovf : Bool := signBit a == signBit b && signBit r != signBit a
  putFlag .c carry (putFlag .h half (putFlag .z (r == 0) (putNVS (signBit r) ovf sr)))

/-- `(a - b - c) mod 256` (41_arithmetic.md R129). -/
def subResult (a b : Byte) (c : Bool) : Byte := BitVec.ofInt 8 ((a.toNat : Int) - b.toNat - bitNat c)

/-- `SubFlags(a, b, c)` (41_arithmetic.md R129), with the zero flag that R130 gives the instruction. -/
def subFlags (a b : Byte) (c : Bool) (zero : Bool) (sr : Byte) : Byte :=
  let r := subResult a b c
  let borrow : Bool := (a.toNat : Int) - b.toNat - bitNat c < 0
  let half : Bool := ((a.toNat % 16 : Nat) : Int) - (b.toNat % 16 : Nat) - bitNat c < 0
  let ovf : Bool := signBit a != signBit b && signBit r != signBit a
  putFlag .c borrow (putFlag .h half (putFlag .z zero (putNVS (signBit r) ovf sr)))

/-- SUB, SUBI, CP, CPI, NEG: `Z <- (R == 0)` (41_arithmetic.md R130). -/
def subFlagsPlain (a b : Byte) (sr : Byte) : Byte := subFlags a b false (subResult a b false == 0) sr

/-- SBC, SBCI, CPC: `Z <- Z_old & (R == 0)`, borrow-in from C (41_arithmetic.md R130). -/
def subFlagsChain (a b : Byte) (sr : Byte) : Byte :=
  subFlags a b (getFlag .c sr) (getFlag .z sr && subResult a b (getFlag .c sr) == 0) sr

/-- `(a + K) mod 65536` of ADIW (41_arithmetic.md R126). -/
def adiwResult (a : Word) (k : BitVec 6) : Word := BitVec.ofNat 16 (a.toNat + k.toNat)

/-- The flags of ADIW (41_arithmetic.md R126); H, T, I unchanged. -/
def adiwFlags (a : Word) (k : BitVec 6) (sr : Byte) : Byte :=
  let r := adiwResult a k
  let ovf : Bool := !signBit16 a && signBit16 r
  let carry : Bool := signBit16 a && !signBit16 r
  putFlag .c carry (putFlag .z (r == 0) (putNVS (signBit16 r) ovf sr))

/-- `(a - K) mod 65536` of SBIW (41_arithmetic.md R127). -/
def sbiwResult (a : Word) (k : BitVec 6) : Word := BitVec.ofInt 16 ((a.toNat : Int) - k.toNat)

/-- The flags of SBIW (41_arithmetic.md R127); Z without the chain rule; H, T, I unchanged. -/
def sbiwFlags (a : Word) (k : BitVec 6) (sr : Byte) : Byte :=
  let r := sbiwResult a k
  let ovf : Bool := signBit16 a && !signBit16 r
  let carry : Bool := !signBit16 a && signBit16 r
  putFlag .c carry (putFlag .z (r == 0) (putNVS (signBit16 r) ovf sr))

/-- `LogicFlags(R)` (42_logic.md R149). -/
def logicFlags (r : Byte) (sr : Byte) : Byte := putFlag .z (r == 0) (putNVS (signBit r) false sr)

/-- The flags of COM: `LogicFlags(R); C <- 1` (42_logic.md R145). -/
def comFlags (r : Byte) (sr : Byte) : Byte := putFlag .c true (logicFlags r sr)

/-- The flags of INC from its result: V at 0x80, C and H unchanged (42_logic.md R147). -/
def incFlags (r : Byte) (sr : Byte) : Byte := putFlag .z (r == 0) (putNVS (signBit r) (r == 0x80) sr)

/-- The flags of DEC from its result: V at 0x7F, C and H unchanged (42_logic.md R148). -/
def decFlags (r : Byte) (sr : Byte) : Byte := putFlag .z (r == 0) (putNVS (signBit r) (r == 0x7F) sr)

/-- `ShiftRightFlags(old, R)` (46_bit_manipulation.md R237). -/
def shiftRightFlags (old r : Byte) (sr : Byte) : Byte :=
  let carry := testBit old 0
  let neg := signBit r
  putFlag .c carry (putFlag .z (r == 0) (putNVS neg (xor neg carry) sr))

end Sys2Proof.Machine
end

