-- ==== Sys2Proof/Machine/Operands.lean ====
section
/-! DEFINITION. The operand forms: the pair field of ADIW and SBIW, the three pointer registers and their three modes
(44_data_movement.md section 2, R215), the program-memory operand of LPM, and I/O register numbers. Below them the
shapes that several instructions share: a register combined with a byte, a comparison, a
read-modify-write of an I/O register. -/

namespace Sys2Proof.Machine

/-- The pair `24 + 2p` of ADIW and SBIW (30_encoding.md R82). -/
def pairOf : PairNum → RegPair
  | 0 => .r24
  | 1 => .x
  | 2 => .y
  | 3 => .z

/-- The addressing modes of LD and ST (44_data_movement.md section 2). -/
inductive PointerMode
  | plain
  | postInc
  | preDec
  deriving DecidableEq, Repr

/-- The address used (44_data_movement.md section 2): P, or P - 1 for `-P`. -/
def pointerAddr (p : RegPair) (mode : PointerMode) (s : State) : Word :=
  match mode with
  | .plain => s.pair p
  | .postInc => s.pair p
  | .preDec => s.pair p - 1

/-- Step 3 of 44_data_movement.md R215: the pointer written before the access, for `-P`. -/
def beforeAccess (p : RegPair) (mode : PointerMode) (a : Word) (s : State) : State :=
  match mode with
  | .plain => s
  | .postInc => s
  | .preDec => s.setPair p a

/-- Step 5 of 44_data_movement.md R215: the pointer written after the access, for `P+`. -/
def afterAccess (p : RegPair) (mode : PointerMode) (a : Word) (s : State) : State :=
  match mode with
  | .plain => s
  | .postInc => s.setPair p (a + 1)
  | .preDec => s

/-- A load in the order of 44_data_movement.md R215: the destination is written last. -/
def loadVia (p : RegPair) (mode : PointerMode) (d : Reg) (s : State) : State :=
  let a := pointerAddr p mode s
  let before := beforeAccess p mode a s
  (afterAccess p mode a before).setReg d (memRead before a)

/-- A store in the order of 44_data_movement.md R215: the data register is read first. -/
def storeVia (p : RegPair) (mode : PointerMode) (r : Reg) (s : State) : State :=
  let a := pointerAddr p mode s
  afterAccess p mode a (memWrite (beforeAccess p mode a s) a (s.reg r))

/-- A load from program memory at Z (44_data_movement.md R210 to R212); `mode` is plain or post-increment.
A read beyond the Byte Store stops the step with nothing changed. -/
def loadProgram (mode : PointerMode) (d : Reg) (s : State) : Result :=
  let a := pointerAddr .z mode s
  match progRead s a with
  | .error f => .fault f
  | .ok v => .next ((afterAccess .z mode a (beforeAccess .z mode a s)).setReg d v)

/-! ## Shared shapes -/

/-- `x[d] <- (x[d] + b + c) mod 256` with its flags (41_arithmetic.md R120, R121). -/
def addTo (d : Reg) (b : Byte) (c : Bool) (s : State) : State :=
  (s.setReg d (addResult (s.reg d) b c)).setSreg (addFlags (s.reg d) b c s.sreg)

/-- `x[d] <- (x[d] - b) mod 256` with its flags (41_arithmetic.md R122, R124). -/
def subFrom (d : Reg) (b : Byte) (s : State) : State :=
  (s.setReg d (subResult (s.reg d) b false)).setSreg (subFlagsPlain (s.reg d) b s.sreg)

/-- `x[d] <- (x[d] - b - C) mod 256` with its flags, Z chained (41_arithmetic.md R123, R125). -/
def subChainFrom (d : Reg) (b : Byte) (s : State) : State :=
  (s.setReg d (subResult (s.reg d) b (s.flag .c))).setSreg (subFlagsChain (s.reg d) b s.sreg)

/-- A register and a result whose flags follow from the result alone (42_logic.md R140 to R148). -/
def writeWithFlags (d : Reg) (r : Byte) (flags : Byte → Byte → Byte) (s : State) : State :=
  (s.setReg d r).setSreg (flags r s.sreg)

/-- A right shift: the result and `ShiftRightFlags(old, R)` (46_bit_manipulation.md R241 to R243). -/
def shiftRightTo (d : Reg) (r : Byte) (s : State) : State :=
  (s.setReg d r).setSreg (shiftRightFlags (s.reg d) r s.sreg)

/-- Read an I/O register and write it back with bit `b` replaced (46_bit_manipulation.md R235, R236). -/
def modifyIo (a : IoLow) (b : BitNum) (x : Bool) (s : State) : State :=
  memWrite s (ioAddr s.params a.val) (putBit (memRead s (ioAddr s.params a.val)) b x)

/-- Bit `b` of an I/O register (43_control_flow.md R176, R177). -/
def ioBit (a : IoLow) (b : BitNum) (s : State) : Bool := testBit (memRead s (ioAddr s.params a.val)) b

end Sys2Proof.Machine
end

