-- ==== Sys2Proof/Machine/Arithmetic.lean ====
section
/-! DEFINITION. The arithmetic family (41_arithmetic.md R120 to R127). -/

namespace Sys2Proof.Machine

/-- ADD (R120). -/
def execAdd (d r : Reg) (s : State) : Result := .next (addTo d (s.reg r) false s)

/-- ADC (R121). -/
def execAdc (d r : Reg) (s : State) : Result := .next (addTo d (s.reg r) (s.flag .c) s)

/-- SUB (R122). -/
def execSub (d r : Reg) (s : State) : Result := .next (subFrom d (s.reg r) s)

/-- SBC (R123). -/
def execSbc (d r : Reg) (s : State) : Result := .next (subChainFrom d (s.reg r) s)

/-- SUBI (R124). -/
def execSubi (d : Reg) (k : Byte) (s : State) : Result := .next (subFrom d k s)

/-- SBCI (R125). -/
def execSbci (d : Reg) (k : Byte) (s : State) : Result := .next (subChainFrom d k s)

/-- ADIW (R126). -/
def execAdiw (p : PairNum) (k : BitVec 6) (s : State) : Result :=
  let a := s.pair (pairOf p)
  .next ((s.setPair (pairOf p) (adiwResult a k)).setSreg (adiwFlags a k s.sreg))

/-- SBIW (R127). -/
def execSbiw (p : PairNum) (k : BitVec 6) (s : State) : Result :=
  let a := s.pair (pairOf p)
  .next ((s.setPair (pairOf p) (sbiwResult a k)).setSreg (sbiwFlags a k s.sreg))

end Sys2Proof.Machine
end

