-- ==== Sys2Proof/Machine/BitManipulation.lean ====
section
/-! DEFINITION. The bit-manipulation family (46_bit_manipulation.md R235 to R248). -/

namespace Sys2Proof.Machine

/-- SBI (R235). -/
def execSbi (a : IoLow) (b : BitNum) (s : State) : Result := .next (modifyIo a b true s)

/-- CBI (R236). -/
def execCbi (a : IoLow) (b : BitNum) (s : State) : Result := .next (modifyIo a b false s)

/-- LSL (R239): `add Rd, Rd` in every effect. -/
def execLsl (d : Reg) (s : State) : Result := .next (addTo d (s.reg d) false s)

/-- ROL (R240): `adc Rd, Rd` in every effect. -/
def execRol (d : Reg) (s : State) : Result := .next (addTo d (s.reg d) (s.flag .c) s)

/-- LSR (R241). -/
def execLsr (d : Reg) (s : State) : Result := .next (shiftRightTo d (s.reg d >>> 1) s)

/-- ROR (R242): the old C enters at bit 7. -/
def execRor (d : Reg) (s : State) : Result := .next (shiftRightTo d (putBit (s.reg d >>> 1) 7 (s.flag .c)) s)

/-- ASR (R243): bit 7 is kept. -/
def execAsr (d : Reg) (s : State) : Result := .next (shiftRightTo d (s.reg d &&& 0x80 ||| s.reg d >>> 1) s)

/-- SWAP (R244). -/
def execSwap (d : Reg) (s : State) : Result := .next (s.setReg d (s.reg d <<< 4 ||| s.reg d >>> 4))

/-- BSET (R245). -/
def execBset (f : BitNum) (s : State) : Result := .next (s.setSreg (putBit s.sreg f true))

/-- BCLR (R246). -/
def execBclr (f : BitNum) (s : State) : Result := .next (s.setSreg (putBit s.sreg f false))

/-- BST (R247). -/
def execBst (d : Reg) (b : BitNum) (s : State) : Result := .next (s.setSreg (putFlag .t (testBit (s.reg d) b) s.sreg))

/-- BLD (R248). -/
def execBld (d : Reg) (b : BitNum) (s : State) : Result := .next (s.setReg d (putBit (s.reg d) b (s.flag .t)))

end Sys2Proof.Machine
end

