-- ==== Sys2Proof/Machine/ControlFlow.lean ====
section
/-! DEFINITION. The control-flow family (43_control_flow.md R160 to R182). The pc on entry is the advanced one (00_scope.md R11). -/

namespace Sys2Proof.Machine

/-- RJMP (R160). -/
def execRjmp (k : BitVec 12) (s : State) : Result := .next (s.setPc (relTarget s.pc k.toInt))

/-- HALT (R161): pc back to `pc0`, the core Halted, class Halted. -/
def execHalt (s : State) : Result := .next (((s.setPc (s.pc - 2)).stop).setClass .halted)

/-- RCALL (R163). -/
def execRcall (k : BitVec 12) (s : State) : Result := .next (callTo (relTarget s.pc k.toInt) s)

/-- IJMP (R164). -/
def execIjmp (s : State) : Result := .next (s.setPc (indirectTarget (s.pair .z)))

/-- ICALL (R165): Z is read before the push. -/
def execIcall (s : State) : Result := .next (callTo (indirectTarget (s.pair .z)) s)

/-- RET (R166). -/
def execRet (s : State) : Result := .next (returnFrom s)

/-- RETI (R167). -/
def execReti (s : State) : Result := .next (returnFromInterrupt s)

/-- CP (R170). -/
def execCp (d r : Reg) (s : State) : Result := .next (s.setSreg (subFlagsPlain (s.reg d) (s.reg r) s.sreg))

/-- CPC (R171). -/
def execCpc (d r : Reg) (s : State) : Result := .next (s.setSreg (subFlagsChain (s.reg d) (s.reg r) s.sreg))

/-- CPI (R172). -/
def execCpi (d : Reg) (k : Byte) (s : State) : Result := .next (s.setSreg (subFlagsPlain (s.reg d) k s.sreg))

/-- CPSE (R173). -/
def execCpse (d r : Reg) (s : State) : Result := .next (skipIf (s.reg d == s.reg r) s)

/-- SBRC (R174). -/
def execSbrc (r : Reg) (b : BitNum) (s : State) : Result := .next (skipIf (!testBit (s.reg r) b) s)

/-- SBRS (R175). -/
def execSbrs (r : Reg) (b : BitNum) (s : State) : Result := .next (skipIf (testBit (s.reg r) b) s)

/-- SBIC (R176). -/
def execSbic (a : IoLow) (b : BitNum) (s : State) : Result := .next (skipIf (!ioBit a b s) s)

/-- SBIS (R177). -/
def execSbis (a : IoLow) (b : BitNum) (s : State) : Result := .next (skipIf (ioBit a b s) s)

/-- BRBS (R178). -/
def execBrbs (f : BitNum) (k : BitVec 7) (s : State) : Result := .next (branchIf (testBit s.sreg f) k s)

/-- BRBC (R179). -/
def execBrbc (f : BitNum) (k : BitVec 7) (s : State) : Result := .next (branchIf (!testBit s.sreg f) k s)

end Sys2Proof.Machine
end

