-- ==== Sys2Proof/Machine/DataMovement.lean ====
section
/-! DEFINITION. The data-movement family (44_data_movement.md R190 to R215). -/

namespace Sys2Proof.Machine

/-- MOV (R190). -/
def execMov (d r : Reg) (s : State) : Result := .next (s.setReg d (s.reg r))

/-- LDI (R191). -/
def execLdi (d : Reg) (k : Byte) (s : State) : Result := .next (s.setReg d k)

/-! ## Indirect load (R192 to R200, R215) -/

/-- LD Rd, X (R192). -/
def execLdX (d : Reg) (s : State) : Result := .next (loadVia .x .plain d s)

/-- LD Rd, X+ (R193). -/
def execLdXInc (d : Reg) (s : State) : Result := .next (loadVia .x .postInc d s)

/-- LD Rd, -X (R194). -/
def execLdXDec (d : Reg) (s : State) : Result := .next (loadVia .x .preDec d s)

/-- LD Rd, Y (R195). -/
def execLdY (d : Reg) (s : State) : Result := .next (loadVia .y .plain d s)

/-- LD Rd, Y+ (R196). -/
def execLdYInc (d : Reg) (s : State) : Result := .next (loadVia .y .postInc d s)

/-- LD Rd, -Y (R197). -/
def execLdYDec (d : Reg) (s : State) : Result := .next (loadVia .y .preDec d s)

/-- LD Rd, Z (R198). -/
def execLdZ (d : Reg) (s : State) : Result := .next (loadVia .z .plain d s)

/-- LD Rd, Z+ (R199). -/
def execLdZInc (d : Reg) (s : State) : Result := .next (loadVia .z .postInc d s)

/-- LD Rd, -Z (R200). -/
def execLdZDec (d : Reg) (s : State) : Result := .next (loadVia .z .preDec d s)

/-! ## Indirect store (R201 to R209, R215) -/

/-- ST X, Rr (R201). -/
def execStX (r : Reg) (s : State) : Result := .next (storeVia .x .plain r s)

/-- ST X+, Rr (R202). -/
def execStXInc (r : Reg) (s : State) : Result := .next (storeVia .x .postInc r s)

/-- ST -X, Rr (R203). -/
def execStXDec (r : Reg) (s : State) : Result := .next (storeVia .x .preDec r s)

/-- ST Y, Rr (R204). -/
def execStY (r : Reg) (s : State) : Result := .next (storeVia .y .plain r s)

/-- ST Y+, Rr (R205). -/
def execStYInc (r : Reg) (s : State) : Result := .next (storeVia .y .postInc r s)

/-- ST -Y, Rr (R206). -/
def execStYDec (r : Reg) (s : State) : Result := .next (storeVia .y .preDec r s)

/-- ST Z, Rr (R207). -/
def execStZ (r : Reg) (s : State) : Result := .next (storeVia .z .plain r s)

/-- ST Z+, Rr (R208). -/
def execStZInc (r : Reg) (s : State) : Result := .next (storeVia .z .postInc r s)

/-- ST -Z, Rr (R209). -/
def execStZDec (r : Reg) (s : State) : Result := .next (storeVia .z .preDec r s)

/-! ## Load from program memory (R210 to R212) -/

/-- LPM (R210): the implied destination is r0. -/
def execLpmR0 (s : State) : Result := loadProgram .plain 0 s

/-- LPM Rd, Z (R211). -/
def execLpm (d : Reg) (s : State) : Result := loadProgram .plain d s

/-- LPM Rd, Z+ (R212). -/
def execLpmInc (d : Reg) (s : State) : Result := loadProgram .postInc d s

/-! ## I/O space (R213, R214) -/

/-- IN (R213). -/
def execIn (d : Reg) (a : IoNum) (s : State) : Result := .next (s.setReg d (memRead s (ioAddr s.params a.val)))

/-- OUT (R214). -/
def execOut (a : IoNum) (r : Reg) (s : State) : Result := .next (memWrite s (ioAddr s.params a.val) (s.reg r))

end Sys2Proof.Machine
end

