-- ==== Sys2Proof/Machine/Logic.lean ====
section
/-! DEFINITION. The logic family (42_logic.md R140 to R149). -/

namespace Sys2Proof.Machine

/-- AND (R140). -/
def execAnd (d r : Reg) (s : State) : Result := .next (writeWithFlags d (s.reg d &&& s.reg r) logicFlags s)

/-- OR (R141). -/
def execOr (d r : Reg) (s : State) : Result := .next (writeWithFlags d (s.reg d ||| s.reg r) logicFlags s)

/-- EOR (R142). -/
def execEor (d r : Reg) (s : State) : Result := .next (writeWithFlags d (s.reg d ^^^ s.reg r) logicFlags s)

/-- ANDI (R143). -/
def execAndi (d : Reg) (k : Byte) (s : State) : Result := .next (writeWithFlags d (s.reg d &&& k) logicFlags s)

/-- ORI (R144). -/
def execOri (d : Reg) (k : Byte) (s : State) : Result := .next (writeWithFlags d (s.reg d ||| k) logicFlags s)

/-- COM (R145): `R <- 0xFF - x[d]`. -/
def execCom (d : Reg) (s : State) : Result := .next (writeWithFlags d (0xFF - s.reg d) comFlags s)

/-- NEG (R146): the flags are those of `0 - x[d]`. -/
def execNeg (d : Reg) (s : State) : Result :=
  .next ((s.setReg d (subResult 0 (s.reg d) false)).setSreg (subFlagsPlain 0 (s.reg d) s.sreg))

/-- INC (R147). -/
def execInc (d : Reg) (s : State) : Result := .next (writeWithFlags d (s.reg d + 1) incFlags s)

/-- DEC (R148). -/
def execDec (d : Reg) (s : State) : Result := .next (writeWithFlags d (s.reg d - 1) decFlags s)

end Sys2Proof.Machine
end

