-- ==== Sys2Proof/Machine/NoOp.lean ====
section
/-! DEFINITION. The no-op class (47_noop.md R260 to R263): the pc has already advanced and nothing else changes. -/

namespace Sys2Proof.Machine

/-- NOP (R260). -/
def execNop (s : State) : Result := .next s

/-- SLEEP (R261): no low-power state, no wait. -/
def execSleep (s : State) : Result := .next s

/-- WDR (R262): there is no watchdog. -/
def execWdr (s : State) : Result := .next s

/-- BREAK (R263): no debug mode, class Normal. -/
def execBreak (s : State) : Result := .next s

end Sys2Proof.Machine
end

