-- ==== Sys2Proof/Machine/Stack.lean ====
section
/-! DEFINITION. The stack family (45_stack.md R230, R231). -/

namespace Sys2Proof.Machine

/-- PUSH (R230). -/
def execPush (r : Reg) (s : State) : Result := .next (push8 s (s.reg r))

/-- POP (R231). -/
def execPop (d : Reg) (s : State) : Result := .next ((pop8State s).setReg d (pop8 s))

end Sys2Proof.Machine
end

