-- ==== Sys2Proof/Machine/Dispatch.lean ====
section
/-! DEFINITION. One arm per constructor of Instr, in the table's order: the meaning of each instruction, run with
the pc already advanced and the class already Normal (40_step_cycle.md R103, R104). -/

namespace Sys2Proof.Machine

def exec (i : Instr) (s : State) : Host.Outcome State Fault Refusal :=
  match i with
  | .halt => Sys2Proof.Machine.execHalt s
  | .nop => Sys2Proof.Machine.execNop s
  | .cpc d r => Sys2Proof.Machine.execCpc d r s
  | .sbc d r => Sys2Proof.Machine.execSbc d r s
  | .lsl d => Sys2Proof.Machine.execLsl d s
  | .add d r => Sys2Proof.Machine.execAdd d r s
  | .cpse d r => Sys2Proof.Machine.execCpse d r s
  | .cp d r => Sys2Proof.Machine.execCp d r s
  | .sub d r => Sys2Proof.Machine.execSub d r s
  | .rol d => Sys2Proof.Machine.execRol d s
  | .adc d r => Sys2Proof.Machine.execAdc d r s
  | .and d r => Sys2Proof.Machine.execAnd d r s
  | .eor d r => Sys2Proof.Machine.execEor d r s
  | .or d r => Sys2Proof.Machine.execOr d r s
  | .mov d r => Sys2Proof.Machine.execMov d r s
  | .cpi d k => Sys2Proof.Machine.execCpi d k s
  | .sbci d k => Sys2Proof.Machine.execSbci d k s
  | .subi d k => Sys2Proof.Machine.execSubi d k s
  | .ori d k => Sys2Proof.Machine.execOri d k s
  | .andi d k => Sys2Proof.Machine.execAndi d k s
  | .ldZ d => Sys2Proof.Machine.execLdZ d s
  | .ldY d => Sys2Proof.Machine.execLdY d s
  | .stZ r => Sys2Proof.Machine.execStZ r s
  | .stY r => Sys2Proof.Machine.execStY r s
  | .ldZInc d => Sys2Proof.Machine.execLdZInc d s
  | .ldZDec d => Sys2Proof.Machine.execLdZDec d s
  | .lpm d => Sys2Proof.Machine.execLpm d s
  | .lpmInc d => Sys2Proof.Machine.execLpmInc d s
  | .ldYInc d => Sys2Proof.Machine.execLdYInc d s
  | .ldYDec d => Sys2Proof.Machine.execLdYDec d s
  | .ldX d => Sys2Proof.Machine.execLdX d s
  | .ldXInc d => Sys2Proof.Machine.execLdXInc d s
  | .ldXDec d => Sys2Proof.Machine.execLdXDec d s
  | .pop d => Sys2Proof.Machine.execPop d s
  | .stZInc r => Sys2Proof.Machine.execStZInc r s
  | .stZDec r => Sys2Proof.Machine.execStZDec r s
  | .stYInc r => Sys2Proof.Machine.execStYInc r s
  | .stYDec r => Sys2Proof.Machine.execStYDec r s
  | .stX r => Sys2Proof.Machine.execStX r s
  | .stXInc r => Sys2Proof.Machine.execStXInc r s
  | .stXDec r => Sys2Proof.Machine.execStXDec r s
  | .push r => Sys2Proof.Machine.execPush r s
  | .com d => Sys2Proof.Machine.execCom d s
  | .neg d => Sys2Proof.Machine.execNeg d s
  | .swap d => Sys2Proof.Machine.execSwap d s
  | .inc d => Sys2Proof.Machine.execInc d s
  | .asr d => Sys2Proof.Machine.execAsr d s
  | .lsr d => Sys2Proof.Machine.execLsr d s
  | .ror d => Sys2Proof.Machine.execRor d s
  | .dec d => Sys2Proof.Machine.execDec d s
  | .bset f => Sys2Proof.Machine.execBset f s
  | .bclr f => Sys2Proof.Machine.execBclr f s
  | .ret => Sys2Proof.Machine.execRet s
  | .reti => Sys2Proof.Machine.execReti s
  | .sleep => Sys2Proof.Machine.execSleep s
  | .brk => Sys2Proof.Machine.execBreak s
  | .wdr => Sys2Proof.Machine.execWdr s
  | .lpmR0 => Sys2Proof.Machine.execLpmR0 s
  | .ijmp => Sys2Proof.Machine.execIjmp s
  | .icall => Sys2Proof.Machine.execIcall s
  | .adiw p k => Sys2Proof.Machine.execAdiw p k s
  | .sbiw p k => Sys2Proof.Machine.execSbiw p k s
  | .cbi a b => Sys2Proof.Machine.execCbi a b s
  | .sbic a b => Sys2Proof.Machine.execSbic a b s
  | .sbi a b => Sys2Proof.Machine.execSbi a b s
  | .sbis a b => Sys2Proof.Machine.execSbis a b s
  | .inp d a => Sys2Proof.Machine.execIn d a s
  | .out a r => Sys2Proof.Machine.execOut a r s
  | .rjmp k => Sys2Proof.Machine.execRjmp k s
  | .rcall k => Sys2Proof.Machine.execRcall k s
  | .ldi d k => Sys2Proof.Machine.execLdi d k s
  | .brbs f k => Sys2Proof.Machine.execBrbs f k s
  | .brbc f k => Sys2Proof.Machine.execBrbc f k s
  | .bld d b => Sys2Proof.Machine.execBld d b s
  | .bst d b => Sys2Proof.Machine.execBst d b s
  | .sbrc r b => Sys2Proof.Machine.execSbrc r b s
  | .sbrs r b => Sys2Proof.Machine.execSbrs r b s

end Sys2Proof.Machine
end

