-- ==== Sys2Proof/Machine/HostFiles.lean ====
section
/-! DEFINITION. The host's answers to the eight file operations (48_syscall_vectors.md R286 to R293): the reference host, whose
files are records whose bytes it keeps in the Byte Store (log 12), and the oracle host, whose answers are free
values (log 11). Nothing here touches the core: an answer is a `FileReply`, which the vector step applies. -/

namespace Sys2Proof.Machine

/-- What an operation returns in registers (48_syscall_vectors.md R273). -/
inductive HostResult
  /-- Neither r24 nor r25 is written. -/
  | none
  /-- r24 is written, r25 unchanged. -/
  | byte (v : Byte)
  /-- r25:r24 is written. -/
  | word (v : Word)
  deriving DecidableEq, Repr

/-- A host operation's answer: the host's state and the Byte Store after it, the bytes it writes
into the core's buffer, and the result. -/
structure FileReply where
  host : HostState
  store : Memory
  buffer : List Byte
  result : HostResult

/-! ## The reference host -/

/-- The mode byte of file_open (48_syscall_vectors.md R286). -/
def openModeOf (m : Byte) : Option OpenMode :=
  if m = 0 then some .read else if m = 1 then some .write else if m = 2 then some .append else none

/-- The bytes an entry takes: name length, name, size word, block (48_syscall_vectors.md R286; log 13). -/
def FileEntry.footprint (f : FileEntry) : Nat := 1 + f.name.length + 2 + f.data.length

/-- The bytes all entries take. -/
def filesFootprint (files : List FileEntry) : Nat := (files.map FileEntry.footprint).sum

/-! ## The file area of the Byte Store (log 12) -/

/-- An entry as the Byte Store holds it: name length, name, size word (low byte first, 20_memory.md R50),
block (48_syscall_vectors.md R286, R287, R288). -/
def FileEntry.bytes (f : FileEntry) : List Byte :=
  BitVec.ofNat 8 f.name.length :: (f.name ++ [Word.lo (BitVec.ofNat 16 f.size), Word.hi (BitVec.ofNat 16 f.size)] ++ f.data)

/-- The file area: the entries one after another. -/
def filesImage (files : List FileEntry) : List Byte := files.flatMap FileEntry.bytes

/-- The place of a file's first block byte in the file area. -/
def blockOffset (files : List FileEntry) (file : Nat) : Nat :=
  filesFootprint (files.take file) + ((files[file]?.map fun f => f.name.length).getD 0 + 3)

/-- Bytes at rising addresses. -/
def cellsFrom (a : Nat) : List Byte → List Host.Cell
  | [] => []
  | v :: vs => (a, v) :: cellsFrom (a + 1) vs

/-- The Byte Store when the host's state goes from `h` to `h'`: if the files changed, the file area is written
again, so what file_open and file_write did is in the Byte Store when the step ends
(48_syscall_vectors.md R292, 70_reset_and_hazards.md R334). -/
def persist (size : Nat) (h h' : HostState) (m : Memory) : Memory :=
  if h'.files = h.files then m else storeWrites size m (cellsFrom h'.fileBase (filesImage h'.files))

/-! ## Open slots and files -/

/-- The open slot of a handle; `none` for a bad handle (48_syscall_vectors.md, section 3). -/
def HostState.slot (h : HostState) (handle : Byte) : Option Slot := (h.slots[handle.toNat]?).join

/-- The slot of a handle replaced. -/
def HostState.setSlot (h : HostState) (handle : Byte) (sl : Option Slot) : HostState :=
  { h with slots := h.slots.set handle.toNat sl }

/-- The index of the first free slot (48_syscall_vectors.md R286). -/
def HostState.freeSlot (h : HostState) : Option Nat := h.slots.findIdx? Option.isNone

/-- The index of the first file of a name. -/
def HostState.findFile (h : HostState) (name : List Byte) : Option Nat := h.files.findIdx? (fun f => f.name == name)

/-- A name the reference host accepts: not empty and at most 127 bytes (48_syscall_vectors.md R286). -/
def nameFits (name : List Byte) : Bool := 1 ≤ name.length && name.length ≤ 127

/-- Opening an existing file: Read captures the size, Write truncates, Append puts the cursor at
the end (48_syscall_vectors.md R286). -/
def openExisting (h : HostState) (slot file : Nat) (e : FileEntry) (mode : OpenMode) : HostState :=
  match mode with
  | .read => { h with slots := h.slots.set slot (some ⟨file, e.size, 0, .read⟩) }
  | .write =>
    { h with files := h.files.set file { e with size := 0 }, slots := h.slots.set slot (some ⟨file, 0, 0, .write⟩) }
  | .append => { h with slots := h.slots.set slot (some ⟨file, e.size, e.size, .append⟩) }

/-- Opening a name that no file has: Read fails, Write and Append allocate a new entry unless the
host is full (48_syscall_vectors.md R286; log 13). -/
def openNew (h : HostState) (slot : Nat) (name : List Byte) (mode : OpenMode) : Option HostState :=
  let e : FileEntry := ⟨name, 0, []⟩
  if mode = .read then none
  else if h.capacity < filesFootprint (h.files ++ [e]) then none
  else some { h with files := h.files ++ [e], slots := h.slots.set slot (some ⟨h.files.length, 0, 0, mode⟩) }

/-- `open(name, mode)` of the reference host: the host's state and the handle, `none` for a
failure, which changes nothing (48_syscall_vectors.md R286; log 14). -/
def openFile (h : HostState) (name : List Byte) (m : Byte) : Option (HostState × Nat) :=
  match openModeOf m, h.freeSlot with
  | some mode, some slot =>
    if nameFits name then
      match h.findFile name with
      | some file =>
        match h.files[file]? with
        | some e => some (openExisting h slot file e mode, slot)
        | none => none
      | none => (openNew h slot name mode).map fun h' => (h', slot)
    else none
  | _, _ => none

/-- The entry an open slot stands for. -/
def HostState.entry (h : HostState) (sl : Slot) : Option FileEntry := h.files[sl.file]?

/-- The bytes `read` copies: up to `maxLen`, or until the cursor reaches the stored size (48_syscall_vectors.md R291). -/
def readableBytes (e : FileEntry) (sl : Slot) (maxLen : Nat) : List Byte :=
  (e.data.drop sl.cursor).take (min maxLen (sl.size - sl.cursor))

/-- A block with bytes written at the cursor, longer if they reach past its end (48_syscall_vectors.md R292; log 15). -/
def overwriteAt (data : List Byte) (cursor : Nat) (bytes : List Byte) : List Byte :=
  data.take cursor ++ bytes ++ data.drop (cursor + bytes.length)

/-- The entry after a write: the block overwritten, the size word rewritten (48_syscall_vectors.md R292; log 15). -/
def writtenEntry (e : FileEntry) (sl : Slot) (bytes : List Byte) : FileEntry :=
  { e with size := max sl.size (sl.cursor + bytes.length), data := overwriteAt e.data sl.cursor bytes }

/-- `write` of the reference host: the host's state after it, `none` for a failure, which changes
nothing: handle opened for Read, size word exceeded, or host full (48_syscall_vectors.md R292; logs 13, 14, 15). -/
def writeFile (h : HostState) (handle : Byte) (sl : Slot) (e : FileEntry) (bytes : List Byte) : Option HostState :=
  let e' := writtenEntry e sl bytes
  if sl.mode = .read then none
  else if 0xFFFE < e'.size then none
  else if h.capacity < filesFootprint (h.files.set sl.file e') then none
  else
    some (({ h with files := h.files.set sl.file e' }).setSlot handle
      (some { sl with size := e'.size, cursor := sl.cursor + bytes.length }))

/-! ## The two hosts, operation by operation -/

/-- The oracle's next answer, and the host with its counter advanced (log 11). -/
def oracleAnswer (h : HostState) : HostAnswer := Config.hostAnswer h.asked

def HostState.askedOnce (h : HostState) : HostState := { h with asked := h.asked + 1 }

/-- An answer that changes nothing but the result. -/
def plainReply (h : HostState) (m : Memory) (r : HostResult) : FileReply := ⟨h, m, [], r⟩

/-- file_open (48_syscall_vectors.md R286): r24 = handle or 0xFF. Both hosts may write the Byte Store (20_memory.md R50). -/
def fileOpen (size : Nat) (h : HostState) (m : Memory) (name : List Byte) (mode : Byte) : FileReply :=
  match h.kind with
  | .oracle =>
    ⟨h.askedOnce, storeWrites size m (oracleAnswer h).storeWrites, [], .byte (oracleAnswer h).value.lo⟩
  | .reference =>
    match openFile h name mode with
    | some (h', slot) => plainReply h' (persist size h h' m) (.byte (BitVec.ofNat 8 slot))
    | none => plainReply h m (.byte 0xFF)

/-- The reply of file_name from the bytes to write: L + 1 bytes and r24 = L; no bytes, as for a bad
handle, give r24 = 0 (48_syscall_vectors.md R287). -/
def nameReply (h : HostState) (m : Memory) (bytes : List Byte) : FileReply :=
  ⟨h, m, bytes.take 256, .byte (BitVec.ofNat 8 ((bytes.take 256).length - 1))⟩

/-- file_name (48_syscall_vectors.md R287): the name and a zero byte. -/
def fileName (h : HostState) (m : Memory) (handle : Byte) : FileReply :=
  match h.kind with
  | .oracle => nameReply h.askedOnce m (oracleAnswer h).bytes
  | .reference =>
    match (h.slot handle).bind h.entry with
    | some e => nameReply h m (e.name ++ [0x00])
    | none => nameReply h m []

/-- file_size (48_syscall_vectors.md R288): the slot's size, 0xFFFF for a bad handle. -/
def fileSize (h : HostState) (m : Memory) (handle : Byte) : FileReply :=
  match h.kind with
  | .oracle => plainReply h.askedOnce m (.word (oracleAnswer h).value)
  | .reference =>
    match h.slot handle with
    | some sl => plainReply h m (.word (BitVec.ofNat 16 sl.size))
    | none => plainReply h m (.word 0xFFFF)

/-- file_position (48_syscall_vectors.md R289): the slot's cursor, 0xFFFF for a bad handle. -/
def filePosition (h : HostState) (m : Memory) (handle : Byte) : FileReply :=
  match h.kind with
  | .oracle => plainReply h.askedOnce m (.word (oracleAnswer h).value)
  | .reference =>
    match h.slot handle with
    | some sl => plainReply h m (.word (BitVec.ofNat 16 sl.cursor))
    | none => plainReply h m (.word 0xFFFF)

/-- file_seek (48_syscall_vectors.md R290): r24 = 1 and the cursor moved if the position is not past the size, else 0. -/
def fileSeek (h : HostState) (m : Memory) (handle : Byte) (position : Word) : FileReply :=
  match h.kind with
  | .oracle => plainReply h.askedOnce m (.byte (oracleAnswer h).value.lo)
  | .reference =>
    match h.slot handle with
    | some sl =>
      if position.toNat ≤ sl.size then
        plainReply (h.setSlot handle (some { sl with cursor := position.toNat })) m (.byte 1)
      else plainReply h m (.byte 0)
    | none => plainReply h m (.byte 0)

/-- file_read (48_syscall_vectors.md R291): at most `maxLen` bytes to the buffer, r25:r24 = their count. -/
def fileRead (h : HostState) (m : Memory) (handle : Byte) (maxLen : Word) : FileReply :=
  match h.kind with
  | .oracle =>
    let bytes := (oracleAnswer h).bytes.take maxLen.toNat
    ⟨h.askedOnce, m, bytes, .word (BitVec.ofNat 16 bytes.length)⟩
  | .reference =>
    match h.slot handle with
    | some sl =>
      match h.entry sl with
      | some e =>
        let bytes := readableBytes e sl maxLen.toNat
        ⟨h.setSlot handle (some { sl with cursor := sl.cursor + bytes.length }), m, bytes,
          .word (BitVec.ofNat 16 bytes.length)⟩
      | none => plainReply h m (.word 0)
    | none => plainReply h m (.word 0)

/-- file_write (48_syscall_vectors.md R292): r25:r24 = the count written, 0xFFFF for a failure. Both hosts may write
the Byte Store (20_memory.md R50); the reference host's data is in it when the step ends (70_reset_and_hazards.md R334). -/
def fileWrite (size : Nat) (h : HostState) (m : Memory) (handle : Byte) (bytes : List Byte) : FileReply :=
  match h.kind with
  | .oracle =>
    ⟨h.askedOnce, storeWrites size m (oracleAnswer h).storeWrites, [], .word (oracleAnswer h).value⟩
  | .reference =>
    match h.slot handle with
    | some sl =>
      match h.entry sl with
      | some e =>
        match writeFile h handle sl e bytes with
        | some h' => plainReply h' (persist size h h' m) (.word (BitVec.ofNat 16 bytes.length))
        | none => plainReply h m (.word 0xFFFF)
      | none => plainReply h m (.word 0xFFFF)
    | none => plainReply h m (.word 0xFFFF)

/-- file_close (48_syscall_vectors.md R293): the slot freed; a bad handle does nothing; no result. -/
def fileClose (h : HostState) (m : Memory) (handle : Byte) : FileReply :=
  match h.kind with
  | .oracle => plainReply h.askedOnce m .none
  | .reference => plainReply (h.setSlot handle none) m .none

end Sys2Proof.Machine
end

