-- ==== Sys2Proof/Machine/Vectors.lean ====
section
/-! DEFINITION. The thirteen syscall vectors (48_syscall_vectors.md R270 to R294): which offset is which operation, each
operation's arguments, and the one vector step that applies an operation's answer and returns. -/

namespace Sys2Proof.Machine

/-- The operations, in the order of 48_syscall_vectors.md R270. -/
inductive HostOp
  | writeChar
  | printRam
  | printProgmem
  | printlnRam
  | printlnProgmem
  | fileOpen
  | fileName
  | fileSize
  | filePosition
  | fileSeek
  | fileRead
  | fileWrite
  | fileClose
  deriving DecidableEq, Repr

/-- The vector table: operation n stands at offset 2n (48_syscall_vectors.md R270). -/
def hostOps : List HostOp :=
  [.writeChar, .printRam, .printProgmem, .printlnRam, .printlnProgmem, .fileOpen, .fileName, .fileSize,
    .filePosition, .fileSeek, .fileRead, .fileWrite, .fileClose]

/-- `isVector(pc0)`: even, 2 to 26 (40_step_cycle.md R102). -/
def isVector (pc : Word) : Bool :=
  pc.toNat % 2 == 0 && (Config.vecFirst ≤ pc.toNat && pc.toNat ≤ Config.vecLast)

/-- The operation of a vector offset, by `n = pc0 / 2`; `none` off the vectors. -/
def vectorOf (pc : Word) : Option HostOp := if isVector pc then hostOps[pc.toNat / 2 - 1]? else none

/-! ## Strings (48_syscall_vectors.md R275, R279) -/

/-- A NUL-terminated string of the data space, at most `fuel` bytes. -/
def dataString (s : State) (a : Word) : Nat → List Byte
  | 0 => []
  | fuel + 1 => if memRead s a = 0 then [] else memRead s a :: dataString s (a + 1) fuel

/-- A NUL-terminated string of program memory, at most `fuel` bytes; a byte beyond the Byte Store
is the StoreRange fault. -/
def progString (s : State) (a : Word) : Nat → Except Fault (List Byte)
  | 0 => .ok []
  | fuel + 1 =>
    match progRead s a with
    | .error f => .error f
    | .ok c =>
      if c = 0 then .ok []
      else
        match progString s (a + 1) fuel with
        | .error f => .error f
        | .ok rest => .ok (c :: rest)

/-- The buffer of file_write: `len` bytes, or up to the first zero byte for the sentinel 0xFFFF
(48_syscall_vectors.md R292). -/
def writeBuffer (s : State) (a len : Word) : List Byte :=
  if len = 0xFFFF then dataString s a s.params.strScanMax else readBytes s a len.toNat

/-! ## The operations -/

/-- A serial operation's answer: bytes emitted, no buffer, no result (48_syscall_vectors.md R281 to R285). -/
def serialReply (s : State) (bytes : List Byte) : FileReply := ⟨s.host.emit bytes, s.store, [], .none⟩

/-- A serial operation on a program-memory string. -/
def progStringReply (s : State) (tail : List Byte) : Except Fault FileReply :=
  match progString s (s.pair .r24) s.params.strScanMax with
  | .error f => .error f
  | .ok str => .ok (serialReply s (str ++ tail))

/-- `HostCall(n, args)` (48_syscall_vectors.md R271): the arguments by R273, then the operation's own rule. -/
def hostCall (op : HostOp) (s : State) : Except Fault FileReply :=
  match op with
  | .writeChar => .ok (serialReply s [s.reg 24])
  | .printRam => .ok (serialReply s (dataString s (s.pair .r24) s.params.strScanMax))
  | .printProgmem => progStringReply s []
  | .printlnRam => .ok (serialReply s (dataString s (s.pair .r24) s.params.strScanMax ++ s.params.newline))
  | .printlnProgmem => progStringReply s s.params.newline
  | .fileOpen =>
    .ok (fileOpen s.params.storeSize s.host s.store (dataString s (s.pair .r24) s.params.strScanMax) (s.reg 22))
  | .fileName => .ok (fileName s.host s.store (s.reg 24))
  | .fileSize => .ok (fileSize s.host s.store (s.reg 24))
  | .filePosition => .ok (filePosition s.host s.store (s.reg 24))
  | .fileSeek => .ok (fileSeek s.host s.store (s.reg 24) (s.pair .r22))
  | .fileRead => .ok (fileRead s.host s.store (s.reg 24) (s.pair .r20))
  | .fileWrite =>
    .ok (fileWrite s.params.storeSize s.host s.store (s.reg 24) (writeBuffer s (s.pair .r22) (s.pair .r20)))
  | .fileClose => .ok (fileClose s.host s.store (s.reg 24))

/-! ## The vector step (48_syscall_vectors.md R272) -/

/-- The result registers written (48_syscall_vectors.md R273). -/
def writeResult (r : HostResult) (s : State) : State :=
  match r with
  | .none => s
  | .byte v => s.setReg 24 v
  | .word v => s.setPair .r24 v

/-- An answer applied: host state, then the buffer at r23:r22 as it was on entry, then the result. -/
def applyReply (buffer : Word) (r : FileReply) (s : State) : State :=
  writeResult r.result (writeBytes ((s.setHost r.host).setStore r.store) buffer r.buffer)

/-- The vector step: the operation, its answer applied, the simulated return, class Return. -/
def vectorStep (op : HostOp) (s : State) : Result :=
  match hostCall op s with
  | .error f => .fault f
  | .ok r => .next (returnFrom (applyReply (s.pair .r22) r s))

end Sys2Proof.Machine
end

