-- ==== Sys2Proof/Machine/Clock.lean ====
section
/-! DEFINITION. The one step of the core, `clock()` (40_step_cycle.md R101 to R105, 60_exceptions.md R311). -/

namespace Sys2Proof.Machine

/-- A step of a Halted core: nothing changes and the class is Halted (40_step_cycle.md R105). -/
def haltedStep (s : State) : State := s.setClass .halted

/-- Phase 1 after the fetch: class Normal, pc advanced by 2 (40_step_cycle.md R101, R104). -/
def advance (s : State) : State := (s.setPc (s.pc + 2)).setClass .normal

/-- Phase 3: decode and execute, or the unknown-instruction exception (40_step_cycle.md R103). -/
def runWord (w : Word) (s : State) : Result :=
  match decode w with
  | .ok i => exec i s
  | .error _ => .next s.raiseUnknown

/-- `clock()` (40_step_cycle.md R104): not running, fetch, vector test on the pre-fetch pc, decode. -/
def clock (s : State) : Result :=
  if s.running then
    match fetchWord s with
    | .error f => .fault f
    | .ok w =>
      match vectorOf s.pc with
      | some op => vectorStep op (advance s)
      | none => runWord w (advance s)
  else .next (haltedStep s)

/-- An instruction of `nbits` bits stored in the Byte Store where the next fetch reads it, low byte
first (20_memory.md R58): what the loader does (70_reset_and_hazards.md R333; log 19). -/
def placeFetchWord (s : State) (nbits w : Nat) : State :=
  let bits := w % 2 ^ nbits
  s.setStore (storeWrites s.params.storeSize s.store
    [(s.programBase + s.pc.toNat, BitVec.ofNat 8 bits),
      (s.programBase + (s.pc + 1).toNat, BitVec.ofNat 8 (bits / 256))])

end Sys2Proof.Machine
end

