-- ==== Sys2Proof/Machine/Step.lean ====
section
/-! DEFINITION. The step of the machine: one call of `clock()` (40_step_cycle.md R104), and the state whose next
step runs a given instruction. -/

namespace Sys2Proof.Machine

/-- One `clock()`. -/
def step (s : State) : Host.Outcome State Fault Refusal := clock s

/-- The state with an instruction placed where `step` fetches next. -/
def State.withFetchWord (s : State) (nbits w : Nat) : State := placeFetchWord s nbits w

end Sys2Proof.Machine
end

