-- ==== Sys2Proof/Machine/Lifecycle.lean ====
section
/-! DEFINITION. What the host does between steps (40_step_cycle.md R100): `init` and `close`. Neither is a step (log 18). -/

namespace Sys2Proof.Machine

/-- `init(program_base)` (70_reset_and_hazards.md R330): the core's fields reset; the Byte Store, the serial stream, the
file layer and the parameters untouched; SP at SP_RESET. -/
def State.initInstance (base : Nat) (s : State) : State :=
  { State.reset with
    sp := s.params.spReset
    programBase := base
    params := s.params
    store := s.store
    host := s.host }

/-- `close()` (60_exceptions.md R323): the instance is discarded and the host's handle on the program's own file, if it
holds one, is freed; what is left is the host's state. Handles that the guest opened with
file_open stay open: whether `close` releases them too, the source does not say
(70_reset_and_hazards.md R334). DESIGN CHOICE, unsafe (log 26). -/
def closeInstance (ownHandle : Option Byte) (s : State) : HostState :=
  match ownHandle with
  | none => s.host
  | some handle => s.host.setSlot handle none

end Sys2Proof.Machine
end

