-- ==== Sys2Proof/WellFormed.lean ====
section
/-! DEFINITION. Which terms of `Instr` some word of 30_encoding.md R88 stands for. The operand types carry the field
widths; what is left is the register range of F-RI (R82) and the three overlaps of R84, where the
special row takes the word from the general one. -/

namespace Sys2Proof

/-- The register of an F-RI instruction is r16..r31 (10_state.md R24, 30_encoding.md R82). -/
def isHighReg (d : Reg) : Bool := 16 ≤ d.val

/-- ADD and ADC with equal fields are the words of LSL and ROL (30_encoding.md R84). -/
def fieldsDiffer (d r : Reg) : Bool := d != r

/-- RJMP with `k = -1` is the word of HALT (30_encoding.md R84). -/
def notSentinel (k : BitVec 12) : Bool := k != 0xFFF

/-- An instruction that a word encodes. -/
def wellFormed : Instr → Bool
  | .add d r => fieldsDiffer d r
  | .adc d r => fieldsDiffer d r
  | .cpi d _ => isHighReg d
  | .sbci d _ => isHighReg d
  | .subi d _ => isHighReg d
  | .ori d _ => isHighReg d
  | .andi d _ => isHighReg d
  | .ldi d _ => isHighReg d
  | .rjmp k => notSentinel k
  | .halt | .nop | .cpc .. | .sbc .. | .lsl .. | .cpse .. | .cp .. | .sub .. | .rol .. | .and .. | .eor ..
  | .or .. | .mov .. | .ldZ .. | .ldY .. | .stZ .. | .stY .. | .ldZInc .. | .ldZDec .. | .lpm .. | .lpmInc ..
  | .ldYInc .. | .ldYDec .. | .ldX .. | .ldXInc .. | .ldXDec .. | .pop .. | .stZInc .. | .stZDec ..
  | .stYInc .. | .stYDec .. | .stX .. | .stXInc .. | .stXDec .. | .push .. | .com .. | .neg .. | .swap ..
  | .inc .. | .asr .. | .lsr .. | .ror .. | .dec .. | .bset .. | .bclr .. | .ret | .reti | .sleep | .brk | .wdr
  | .lpmR0 | .ijmp | .icall | .adiw .. | .sbiw .. | .cbi .. | .sbic .. | .sbi .. | .sbis .. | .inp .. | .out ..
  | .rcall .. | .brbs .. | .brbc .. | .bld .. | .bst .. | .sbrc .. | .sbrs .. => true

/-- The check as a proposition. -/
abbrev WellFormed (i : Instr) : Prop := wellFormed i = true

end Sys2Proof
end

