-- ==== Sys2Proof/Safety.lean ====
section
/-! DEFINITION. What a legal state is, what a run needs so as never to stop, and the words the statements use: frames, the
class and the pc an instruction leaves, the flags it may write, the unknown words. -/

namespace Sys2Proof.Machine

/-! ## Legal states -/

/-- The constraints between parameters (00_scope.md R7): the three alias addresses lie above 0x20 and are distinct;
the registers, the aliases, the RAM window and the character output are pairwise disjoint; the
Byte Store is not empty (R6). -/
def ParamsValid (p : Params) : Prop :=
  (Config.regLimit < p.splAddr.toNat ∧ Config.regLimit < p.sphAddr.toNat ∧ Config.regLimit < p.sregAddr.toNat) ∧
    (p.splAddr ≠ p.sphAddr ∧ p.splAddr ≠ p.sregAddr ∧ p.sphAddr ≠ p.sregAddr) ∧
    (Config.regLimit ≤ p.ramBase.toNat ∧ offRam p p.splAddr ∧ offRam p p.sphAddr ∧ offRam p p.sregAddr) ∧
    (Config.regLimit ≤ p.charOutAddr.toNat ∧ p.charOutAddr ≠ p.splAddr ∧ p.charOutAddr ≠ p.sphAddr ∧
      p.charOutAddr ≠ p.sregAddr ∧ offRam p p.charOutAddr) ∧
    0 < p.storeSize

/-- A file of the reference host: a name of 1 to 127 bytes without a zero byte, a size within its
block and within the size word (48_syscall_vectors.md R286, 92_eei_decisions.md D32). -/
def FileEntry.valid (f : FileEntry) : Prop :=
  nameFits f.name = true ∧ (0x00 : Byte) ∉ f.name ∧ f.size ≤ f.data.length ∧ f.size ≤ 0xFFFE

/-- An open slot: it stands for a file, its cursor lies within its size, its size within the
file's block. -/
def Slot.valid (files : List FileEntry) (sl : Slot) : Prop :=
  ∃ e, files[sl.file]? = some e ∧ sl.cursor ≤ sl.size ∧ sl.size ≤ e.data.length ∧ sl.size ≤ 0xFFFE

/-- The host's state: legal files of distinct names, legal open slots, and handles that fit r24
beside the failure value 0xFF (48_syscall_vectors.md R276, R286). -/
def HostState.valid (h : HostState) : Prop :=
  (∀ f ∈ h.files, f.valid) ∧ h.files.Pairwise (fun f g => f.name ≠ g.name) ∧
    (∀ sl, some sl ∈ h.slots → sl.valid h.files) ∧ h.slots.length ≤ 255

/-- The Byte Store holds the reference host's files, entry after entry from the start of the file
area, as far as the store reaches (48_syscall_vectors.md R276, 70_reset_and_hazards.md R334; log 12). -/
def HostState.mirrored (size : Nat) (store : Memory) (h : HostState) : Prop :=
  h.kind = .reference → ∀ i v, (filesImage h.files)[i]? = some v → h.fileBase + i < size →
    Memory.read store (h.fileBase + i) = v

/-- Halted exactly when the last class says so (40_step_cycle.md R108). -/
def ClassAgrees (s : State) : Prop :=
  s.running = false ↔ s.cls = some .halted ∨ s.cls = some .unknown

/-- The invariant of the machine: both memories in canonical form and within their bounds, legal
parameters, a legal host whose files stand in the Byte Store, and `running` in agreement with the
last class. -/
def LegalState (s : State) : Prop :=
  s.ram.wf ∧ s.ram.below Config.ramSize ∧ s.store.wf ∧ s.store.below s.params.storeSize ∧
    ParamsValid s.params ∧ s.host.valid ∧ s.host.mirrored s.params.storeSize s.store ∧ ClassAgrees s

/-! ## Safe runs -/

/-- The launch premise of 60_exceptions.md R303: every offset lies within the Byte Store. -/
def LaunchSafe (s : State) : Prop := s.programBase + 0xFFFF < s.params.storeSize

/-- A step that neither faults nor is refused. -/
def StepSafe (s : State) : Prop := ∃ t, step s = .next t

/-! ## Frames -/

/-- Every register but those listed is unchanged. -/
def RegsExcept (changed : List Reg) (s t : State) : Prop := ∀ r, r ∉ changed → t.reg r = s.reg r

/-- Every flag but those listed is unchanged. -/
def FlagsExcept (changed : List Flag) (s t : State) : Prop := ∀ f, f ∉ changed → t.flag f = s.flag f

/-- Every field but registers, SREG, SP and pc is unchanged: in particular every byte of RAM and of
the Byte Store, and the host. -/
def SameElsewhere (s t : State) : Prop :=
  t.programBase = s.programBase ∧ t.running = s.running ∧ t.cls = s.cls ∧ t.params = s.params ∧
    t.ram = s.ram ∧ t.store = s.store ∧ t.host = s.host

/-- The frame of an instruction that only writes the listed registers and flags. -/
def Frame (regs : List Reg) (flags : List Flag) (s t : State) : Prop :=
  RegsExcept regs s t ∧ FlagsExcept flags s t ∧ t.sp = s.sp ∧ t.pc = s.pc ∧ SameElsewhere s t

/-- The frame of an instruction that only moves the pc. -/
def OnlyPc (s t : State) : Prop :=
  RegsExcept [] s t ∧ t.sreg = s.sreg ∧ t.sp = s.sp ∧ SameElsewhere s t

/-- The fields that no data-space write reaches. -/
def SameControl (s t : State) : Prop :=
  t.pc = s.pc ∧ t.programBase = s.programBase ∧ t.running = s.running ∧ t.cls = s.cls ∧
    t.params = s.params ∧ t.store = s.store

/-! ## Flag laws, from the exact sum or difference (41_arithmetic.md, 42_logic.md, 46_bit_manipulation.md) -/

/-- `AddFlags(a, b, c)` (41_arithmetic.md R128); V is the carry into bit 7 XOR the carry out of it (decision D21). -/
def AddLaw (a b : Byte) (c : Bool) (t : State) : Prop :=
  t.flag .c = decide (255 < a.toNat + b.toNat + c.toNat) ∧
    t.flag .h = decide (15 < a.toNat % 16 + b.toNat % 16 + c.toNat) ∧
    t.flag .n = decide (128 ≤ (a.toNat + b.toNat + c.toNat) % 256) ∧
    t.flag .v = xor (decide (127 < a.toNat % 128 + b.toNat % 128 + c.toNat)) (t.flag .c) ∧
    t.flag .z = decide ((a.toNat + b.toNat + c.toNat) % 256 = 0) ∧ t.flag .s = xor (t.flag .n) (t.flag .v)

/-- `SubFlags(a, b, c)` (41_arithmetic.md R129) with the zero flag of R130; a borrow is a subtrahend greater than
the minuend, and V the borrow into bit 7 XOR the borrow out of it (decision D21). -/
def SubLaw (a b : Byte) (c zero : Bool) (t : State) : Prop :=
  t.flag .c = decide (a.toNat < b.toNat + c.toNat) ∧
    t.flag .h = decide (a.toNat % 16 < b.toNat % 16 + c.toNat) ∧
    t.flag .n = decide (128 ≤ (a.toNat + 512 - b.toNat - c.toNat) % 256) ∧
    t.flag .v = xor (decide (a.toNat % 128 < b.toNat % 128 + c.toNat)) (t.flag .c) ∧
    t.flag .z = zero ∧ t.flag .s = xor (t.flag .n) (t.flag .v)

/-- `LogicFlags(R)` (42_logic.md R149). -/
def LogicLaw (r : Byte) (t : State) : Prop :=
  t.flag .n = decide (128 ≤ r.toNat) ∧ t.flag .v = false ∧ t.flag .z = decide (r = 0) ∧
    t.flag .s = decide (128 ≤ r.toNat)

/-- `ShiftRightFlags(old, R)` (46_bit_manipulation.md R237). -/
def ShiftRightLaw (old r : Byte) (t : State) : Prop :=
  t.flag .c = decide (old.toNat % 2 = 1) ∧ t.flag .n = decide (128 ≤ r.toNat) ∧ t.flag .z = decide (r = 0) ∧
    t.flag .v = xor (t.flag .n) (t.flag .c) ∧ t.flag .s = t.flag .c

/-! ## Data accesses -/

/-- A write at the address emits a character: CHAR_OUT_ADDR, unless an earlier line of 20_memory.md R55
takes it. -/
def emitsAt (s : State) (a : Word) : Bool :=
  decide (pastRam s.params a ∧ a = s.params.charOutAddr)

/-- The whole effect of `MemWrite(a, 1, v)` (20_memory.md R52, R55), field by field; `others` is its
frame over the data space. -/
structure DataWrite (a : Word) (v : Byte) (s t : State) : Prop where
  regs : ∀ i : Reg, t.reg i = if a.toNat = i.val then v else s.reg i
  sp : t.sp =
    if atSpl s.params a then joinBytes s.sp.hi v
    else if atSph s.params a then joinBytes (v &&& 0x03) s.sp.lo else s.sp
  sreg : t.sreg = if atSreg s.params a then v else s.sreg
  ram : ∀ i, Memory.read t.ram i = if atRam s.params a i then v else Memory.read s.ram i
  serial : t.host = { s.host with serial := s.host.serial ++ if emitsAt s a then [v] else [] }
  control : SameControl s t
  others : ∀ b, b ≠ a → memRead t b = memRead s b

/-- The pointer after an access (44_data_movement.md section 2). -/
def pointerAfter (p : RegPair) (mode : PointerMode) (s : State) : Word :=
  match mode with
  | .plain => s.pair p
  | .postInc => s.pair p + 1
  | .preDec => s.pair p - 1

/-- The state in which the access is made: the pointer already written for `-P` (44_data_movement.md R215). -/
def atAccess (p : RegPair) (mode : PointerMode) (s : State) : State :=
  match mode with
  | .plain | .postInc => s
  | .preDec => s.setPair p (s.pair p - 1)

/-- A load completes (44_data_movement.md R192 to R200, R215): the destination last, the pointer updated, nothing
else changed. -/
def Loads (i : Instr) (p : RegPair) (mode : PointerMode) (d : Reg) (s : State) : Prop :=
  ∃ t, exec i s = .next t ∧
    t.reg d = memRead (atAccess p mode s) (pointerAddr p mode s) ∧
    (d ≠ p.lo → t.reg p.lo = (pointerAfter p mode s).lo) ∧ (d ≠ p.hi → t.reg p.hi = (pointerAfter p mode s).hi) ∧
    RegsExcept [d, p.lo, p.hi] s t ∧ t.sreg = s.sreg ∧ t.sp = s.sp ∧ t.pc = s.pc ∧ SameElsewhere s t

/-- A store completes (44_data_movement.md R201 to R209, R215): one data-space write of the old data register at the
address used, the pointer written before it or after it; no byte but the written one and the
pointer's changes. -/
def Stores (i : Instr) (p : RegPair) (mode : PointerMode) (r : Reg) (s : State) : Prop :=
  ∃ u t, exec i s = .next t ∧ DataWrite (pointerAddr p mode s) (s.reg r) (atAccess p mode s) u ∧
    t = (if mode = .postInc then u.setPair p (pointerAfter p mode s) else u) ∧
    ∀ b, b ≠ pointerAddr p mode s → (mode = .plain ∨ (b.toNat ≠ p.lo.val ∧ b.toNat ≠ p.hi.val)) →
      memRead t b = memRead s b

/-! ## Strings and host operations -/

/-- The bytes of a NUL-terminated string at an address, by a reading function: up to the first zero
byte or `limit` bytes, the parameter STR_SCAN_MAX (48_syscall_vectors.md R279). -/
def ScanOf (limit : Nat) (read : Word → Byte) (a : Word) (str : List Byte) : Prop :=
  (∀ i, (h : i < str.length) → str[i] = read (a + BitVec.ofNat 16 i) ∧ str[i] ≠ 0) ∧
    str.length ≤ limit ∧ (str.length = limit ∨ read (a + BitVec.ofNat 16 str.length) = 0)

/-- The result registers of an operation (48_syscall_vectors.md R270, R273). -/
def resultRegs : HostOp → List Reg
  | .writeChar | .printRam | .printProgmem | .printlnRam | .printlnProgmem | .fileClose => []
  | .fileOpen | .fileName | .fileSeek => [24]
  | .fileSize | .filePosition | .fileRead | .fileWrite => [24, 25]

/-- The operation writes a buffer (48_syscall_vectors.md R275). -/
def writesBuffer : HostOp → Bool
  | .fileName | .fileRead => true
  | _ => false

/-- The operation may write the Byte Store (20_memory.md R50). -/
def mayWriteStore : HostOp → Bool
  | .fileOpen | .fileWrite => true
  | _ => false

/-- None of the `n` buffer addresses from `b` upward is the data address `a`. -/
def offBuffer (b : Word) (n a : Nat) : Prop := ∀ j, j < n → (b + BitVec.ofNat 16 j).toNat ≠ a

/-! ## Whole-machine tables -/

/-- The class of an instruction (40_step_cycle.md R106). -/
def classOf : Instr → StepClass
  | .rcall _ | .icall => .call
  | .ret | .reti => .ret
  | .halt => .halted
  | .nop | .cpc .. | .sbc .. | .lsl _ | .add .. | .cpse .. | .cp .. | .sub .. | .rol _ | .adc .. | .and ..
  | .eor .. | .or .. | .mov .. | .cpi .. | .sbci .. | .subi .. | .ori .. | .andi .. | .ldZ _ | .ldY _
  | .stZ _ | .stY _ | .ldZInc _ | .ldZDec _ | .lpm _ | .lpmInc _ | .ldYInc _ | .ldYDec _ | .ldX _
  | .ldXInc _ | .ldXDec _ | .pop _ | .stZInc _ | .stZDec _ | .stYInc _ | .stYDec _ | .stX _ | .stXInc _
  | .stXDec _ | .push _ | .com _ | .neg _ | .swap _ | .inc _ | .asr _ | .lsr _ | .ror _ | .dec _ | .bset _
  | .bclr _ | .sleep | .brk | .wdr | .lpmR0 | .ijmp | .adiw .. | .sbiw .. | .cbi .. | .sbic .. | .sbi ..
  | .sbis .. | .inp .. | .out .. | .rjmp _ | .ldi .. | .brbs .. | .brbc .. | .bld .. | .bst .. | .sbrc ..
  | .sbrs .. => .normal

/-- The pc an instruction leaves, from the advanced pc (10_state.md R26). -/
def pcAfter (i : Instr) (s : State) : Word :=
  match i with
  | .halt => s.pc - 2
  | .rjmp k | .rcall k => s.pc + 2 * k.signExtend 16
  | .ijmp | .icall => 2 * s.pair .z
  | .ret | .reti => pop16 s
  | .brbs f k => if testBit s.sreg f then s.pc + 2 * k.signExtend 16 else s.pc
  | .brbc f k => if testBit s.sreg f then s.pc else s.pc + 2 * k.signExtend 16
  | .cpse d r => if s.reg d = s.reg r then s.pc + 2 else s.pc
  | .sbrc r b => if testBit (s.reg r) b then s.pc else s.pc + 2
  | .sbrs r b => if testBit (s.reg r) b then s.pc + 2 else s.pc
  | .sbic a b => if testBit (memRead s (ioAddr s.params a.val)) b then s.pc else s.pc + 2
  | .sbis a b => if testBit (memRead s (ioAddr s.params a.val)) b then s.pc + 2 else s.pc
  | .nop | .cpc .. | .sbc .. | .lsl _ | .add .. | .cp .. | .sub .. | .rol _ | .adc .. | .and .. | .eor ..
  | .or .. | .mov .. | .cpi .. | .sbci .. | .subi .. | .ori .. | .andi .. | .ldZ _ | .ldY _ | .stZ _
  | .stY _ | .ldZInc _ | .ldZDec _ | .lpm _ | .lpmInc _ | .ldYInc _ | .ldYDec _ | .ldX _ | .ldXInc _
  | .ldXDec _ | .pop _ | .stZInc _ | .stZDec _ | .stYInc _ | .stYDec _ | .stX _ | .stXInc _ | .stXDec _
  | .push _ | .com _ | .neg _ | .swap _ | .inc _ | .asr _ | .lsr _ | .ror _ | .dec _ | .bset _ | .bclr _
  | .sleep | .brk | .wdr | .lpmR0 | .adiw .. | .sbiw .. | .cbi .. | .sbi .. | .inp .. | .out .. | .ldi ..
  | .bld .. | .bst .. => s.pc

/-- The eight flags. -/
def allFlags : List Flag := [.c, .z, .n, .v, .s, .h, .t, .i]

/-- All flags for a data-space write at SREG_ADDR, none at any other address (10_state.md R28). -/
def flagsAt (p : Params) (a : Word) : List Flag := if atSreg p a then allFlags else []

/-- The flags an instruction may write (10_state.md R28), by the table's rows. -/
def flagsWritten (i : Instr) (s : State) : List Flag :=
  match i with
  | .add .. | .adc .. | .lsl .. | .rol .. | .sub .. | .subi .. | .cp .. | .cpi .. | .sbc .. | .sbci ..
  | .cpc .. | .neg .. => [.h, .s, .v, .n, .z, .c]
  | .and .. | .andi .. | .or .. | .ori .. | .eor .. | .inc .. | .dec .. => [.s, .v, .n, .z]
  | .com .. | .adiw .. | .sbiw .. | .lsr .. | .ror .. | .asr .. => [.s, .v, .n, .z, .c]
  | .bset f | .bclr f => allFlags.filter fun g => g.bit = f
  | .bst .. => [.t]
  | .reti => [.i]
  | .out a _ => flagsAt s.params (ioAddr s.params a.val)
  | .sbi a _ | .cbi a _ => flagsAt s.params (ioAddr s.params a.val)
  | .stX _ | .stXInc _ => flagsAt s.params (s.pair .x)
  | .stXDec _ => flagsAt s.params (s.pair .x - 1)
  | .stY _ | .stYInc _ => flagsAt s.params (s.pair .y)
  | .stYDec _ => flagsAt s.params (s.pair .y - 1)
  | .stZ _ | .stZInc _ => flagsAt s.params (s.pair .z)
  | .stZDec _ => flagsAt s.params (s.pair .z - 1)
  | .push _ => flagsAt s.params s.sp
  | .rcall _ | .icall => flagsAt s.params s.sp ++ flagsAt s.params (push8 s s.pc.lo).sp
  | .halt | .nop | .cpse .. | .mov .. | .ldZ _ | .ldY _ | .ldZInc _ | .ldZDec _ | .lpm _ | .lpmInc _ | .ldYInc _
  | .ldYDec _ | .ldX _ | .ldXInc _ | .ldXDec _ | .pop _ | .swap _ | .ret | .sleep | .brk | .wdr | .lpmR0 | .ijmp
  | .sbic .. | .sbis .. | .inp .. | .rjmp _ | .ldi .. | .brbs .. | .brbc .. | .bld .. | .sbrc .. | .sbrs .. => []

/-- The instruction computes N, V and S from a result (10_state.md R28, 41_arithmetic.md R131). -/
def computesSign : Instr → Bool
  | .add .. | .adc .. | .lsl .. | .rol .. | .sub .. | .subi .. | .cp .. | .cpi .. | .sbc .. | .sbci ..
  | .cpc .. | .neg .. | .and .. | .andi .. | .or .. | .ori .. | .eor .. | .inc .. | .dec .. | .com .. | .adiw ..
  | .sbiw .. | .lsr .. | .ror .. | .asr .. => true
  | .halt | .nop | .cpse .. | .mov .. | .ldZ _ | .ldY _ | .stZ _ | .stY _ | .ldZInc _ | .ldZDec _ | .lpm _
  | .lpmInc _ | .ldYInc _ | .ldYDec _ | .ldX _ | .ldXInc _ | .ldXDec _ | .pop _ | .stZInc _ | .stZDec _
  | .stYInc _ | .stYDec _ | .stX _ | .stXInc _ | .stXDec _ | .push _ | .swap _ | .bset _ | .bclr _ | .ret
  | .reti | .sleep | .brk | .wdr | .lpmR0 | .ijmp | .icall | .cbi .. | .sbic .. | .sbi .. | .sbis ..
  | .inp .. | .out .. | .rjmp _ | .rcall _ | .ldi .. | .brbs .. | .brbc .. | .bld .. | .bst .. | .sbrc ..
  | .sbrs .. => false

/-- BSET, BCLR, or a data-space write that lands on SREG_ADDR (41_arithmetic.md R131). -/
def writesSregDirectly (i : Instr) (s : State) : Prop :=
  (∃ f, i = .bset f ∨ i = .bclr f) ∨ (Flag.s ∈ flagsWritten i s ∧ Flag.t ∈ flagsWritten i s)

/-! ## Unknown words -/

/-- The words that match no row, by the regions of 30_encoding.md R86, each by its mask and pattern. -/
def unknownRegion (w : Word) : Bool :=
  (w &&& 0xFF00 == 0x0000 && w != 0x0000) ||
  w &&& 0xFF00 == 0x0100 || w &&& 0xFF00 == 0x0200 || w &&& 0xFF00 == 0x0300 ||
  (w &&& 0xD000 == 0x8000 && w &&& 0x2C07 != 0x0000) ||
  (w &&& 0xFE00 == 0x9000 && [0x0, 0x3, 0x6, 0x7, 0x8, 0xB].contains (w &&& 0x000F)) ||
  (w &&& 0xFE00 == 0x9200 && [0x0, 0x3, 0x4, 0x5, 0x6, 0x7, 0x8, 0xB].contains (w &&& 0x000F)) ||
  w &&& 0xFE0F == 0x9404 || w &&& 0xFE0F == 0x940B ||
  w &&& 0xFE0E == 0x940C || w &&& 0xFE0E == 0x940E ||
  [0x9528, 0x9538, 0x9548, 0x9558, 0x9568, 0x9578, 0x95B8, 0x95D8, 0x95E8, 0x95F8].contains w ||
  (w &&& 0xFE0F == 0x9409 && w != 0x9409 && w != 0x9509) ||
  w &&& 0xFC00 == 0x9C00 ||
  w &&& 0xF808 == 0xF808

end Sys2Proof.Machine
end

