-- ==== Sys2Proof/Certificates/Slice0/Obligations.lean ====
section
/-! DEFINITION. The statements for the provers. A statement marked `derived` rests on a rule the spec marks as its own
decision (92_eei_decisions.md D<n>) or as general knowledge, or on an entry of this model's log, and says so. -/

open Sys2Proof Sys2Proof.Machine

/-- For every well-formed instruction i, with every operand at every value the encoding admits: decode (encode
i) is i, and the two bytes of encode i, low byte first, at the head of any list of bytes decode to i and
leave the rest of the list. The bit patterns are the spec's own decision D1. -/
def Obligations.EncodeThenDecode : Prop :=
  ∀ i, WellFormed i →
    decode (encode i) = .ok i ∧ ∀ rest, decodeBytes (encodeBytes i ++ rest) = .ok (i, rest)

/-- For every word w that decodes to an instruction i: i is well formed and encode i is w. So no two words
decode to one instruction and no bit of a word is dropped. The bit patterns are the spec's own decision D1. -/
def Obligations.DecodeThenEncode : Prop :=
  ∀ w i, decode w = .ok i → WellFormed i ∧ encode i = w

/-- A word in one of the regions that 30_encoding.md section 4 lists (unknownRegion) is refused by name with the
word itself; every other word decodes to an instruction. The membership of the table is the spec's own
decision D2. -/
def Obligations.UnknownWordsAreTheListedRegions : Prop :=
  ∀ w, (unknownRegion w = true → decode w = .error (.unknownWord w)) ∧
    (unknownRegion w = false → ∃ i, decode w = .ok i)

/-- The words 0xE481 (ldi r24, 0x41), 0xCFFF (halt), 0xC00D (rjmp .+26), 0x0F01 (add r16, r17), 0x0F00 (lsl
r16), 0x9711 (sbiw r26, 1), 0x910E (ld r16, -X), 0xB98C (out 0x0C, r24) and 0xF7F1 (brne .-4) of the spec's
examples decode to those instructions. -/
def Obligations.WrittenWordsDecode : Prop :=
  decode 0xE481 = .ok (.ldi 24 0x41) ∧ decode 0xCFFF = .ok .halt ∧ decode 0xC00D = .ok (.rjmp 13) ∧
    decode 0x0F01 = .ok (.add 16 17) ∧ decode 0x0F00 = .ok (.lsl 16) ∧ decode 0x9711 = .ok (.sbiw 1 1) ∧
    decode 0x910E = .ok (.ldXDec 16) ∧ decode 0xB98C = .ok (.out 0x0C 24) ∧ decode 0xF7F1 = .ok (.brbc 1 0x7E)

/-- If the rows with indexes i < j (from 0) of the decode table both select a word, the pair is HALT and RJMP
(0, 68), LSL and ADD (4, 5) or ROL and ADC (9, 10): any order of the rows that keeps these three pairs in
place selects the same row for every word. The spec marks this as derived from its table. -/
def Obligations.OnlyThreeRowPairsOverlap : Prop :=
  ∀ (i j : Nat) (hi : i < table.length) (hj : j < table.length) (w : Word), i < j →
    table[i].selects w = true → table[j].selects w = true → (i, j) ∈ [(0, 68), (4, 5), (9, 10)]

/-- Running, at an offset that is no vector, with both bytes of the word inside the Byte Store (the second at pc
+ 1 modulo 2^16): if the little-endian word decodes to i, the step is exec i in the state whose pc is pc + 2
and whose class is Normal; if it decodes to nothing, the step only advances the pc, stops the core and
returns Unknown. That the pc stays advanced there is the spec's own decision D14. -/
def Obligations.StepRunsDecodedInstruction : Prop :=
  ∀ s, s.running = true → vectorOf s.pc = none →
    s.programBase + s.pc.toNat < s.params.storeSize → s.programBase + (s.pc + 1).toNat < s.params.storeSize →
    let w := joinBytes (Memory.read s.store (s.programBase + (s.pc + 1).toNat))
      (Memory.read s.store (s.programBase + s.pc.toNat))
    (∀ i, decode w = .ok i → step s = exec i { s with pc := s.pc + 2, cls := some .normal }) ∧
      (∀ e, decode w = .error e →
        step s = .next { s with pc := s.pc + 2, running := false, cls := some .unknown })

/-- For a Running state whose fetch succeeds with the word w: if the pc before the fetch is even and from 2 to
26, the step is the vector step of operation number pc / 2 in the order of the vector table, and w plays no
part; at every other pc the step decodes and executes w. The pc on entry to either is the advanced one. -/
def Obligations.VectorTestOnThePreFetchOffset : Prop :=
  ∀ s w, s.running = true → fetchWord s = .ok w →
    ((s.pc.toNat % 2 = 0 ∧ 2 ≤ s.pc.toNat ∧ s.pc.toNat ≤ 26) →
      ∃ op, hostOps[s.pc.toNat / 2 - 1]? = some op ∧
        step s = vectorStep op { s with pc := s.pc + 2, cls := some .normal }) ∧
    (¬(s.pc.toNat % 2 = 0 ∧ 2 ≤ s.pc.toNat ∧ s.pc.toNat ≤ 26) →
      step s = runWord w { s with pc := s.pc + 2, cls := some .normal })

/-- Offset 0x02 is write_char, 0x04 print_ram, 0x06 print_progmem, 0x08 println_ram, 0x0A println_progmem, 0x0C
file_open, 0x0E file_name, 0x10 file_size, 0x12 file_position, 0x14 file_seek, 0x16 file_read, 0x18
file_write, 0x1A file_close; 0x00, 0x03 and 0x1C are no vectors. The assignment is the spec's own decision
D16. -/
def Obligations.VectorTableNamesThirteenOperations : Prop :=
  vectorOf 0x02 = some .writeChar ∧ vectorOf 0x04 = some .printRam ∧ vectorOf 0x06 = some .printProgmem ∧
    vectorOf 0x08 = some .printlnRam ∧ vectorOf 0x0A = some .printlnProgmem ∧ vectorOf 0x0C = some .fileOpen ∧
    vectorOf 0x0E = some .fileName ∧ vectorOf 0x10 = some .fileSize ∧ vectorOf 0x12 = some .filePosition ∧
    vectorOf 0x14 = some .fileSeek ∧ vectorOf 0x16 = some .fileRead ∧ vectorOf 0x18 = some .fileWrite ∧
    vectorOf 0x1A = some .fileClose ∧ vectorOf 0x00 = none ∧ vectorOf 0x03 = none ∧ vectorOf 0x1C = none

/-- For every Halted state and every number of steps from 1 on, the run answers the same state with the class
Halted: no fetch, no fault, nothing else changed. What a step of a Halted instance does is the spec's own
decision D13. -/
def Obligations.HaltedIsTerminal : Prop :=
  ∀ s k, s.running = false → Sys2Proof.core.run (k + 1) s = .next { s with cls := some .halted }

/-- Taking UnknownInstruction: for a Running state at an offset that is no vector, whose fetched word lies in
the regions of 30_encoding.md section 4, the step answers the state with pc + 2, running false and class
Unknown: nothing is saved and nothing else changes. That the pc stays advanced is the spec's own decision
D14. -/
def Obligations.UnknownWordHalts : Prop :=
  ∀ s w, s.running = true → vectorOf s.pc = none → fetchWord s = .ok w → unknownRegion w = true →
    step s = .next { s with pc := s.pc + 2, running := false, cls := some .unknown }

/-- No step is refused. A fault is StoreRange, of a Running core, and names program_base + off for an offset off
with program_base + off at or beyond STORE_SIZE. A Running core whose low byte lies outside faults with its
address; one whose low byte lies inside and whose high byte, at pc + 1 modulo 2^16, lies outside faults with
that address. StoreRange is the spec's own model fault (D8, U1). -/
def Obligations.StepStopsExactlyOutsideTheStore : Prop :=
  (∀ s r, step s ≠ .refused r) ∧
    (∀ s f, step s = .fault f → s.running = true ∧
      ∃ off : Word, s.params.storeSize ≤ s.programBase + off.toNat ∧ f = .storeRange (s.programBase + off.toNat)) ∧
    (∀ s, s.running = true → s.params.storeSize ≤ s.programBase + s.pc.toNat →
      step s = .fault (.storeRange (s.programBase + s.pc.toNat))) ∧
    (∀ s, s.running = true → s.programBase + s.pc.toNat < s.params.storeSize →
      s.params.storeSize ≤ s.programBase + (s.pc + 1).toNat →
      step s = .fault (.storeRange (s.programBase + (s.pc + 1).toNat)))

/-- If program_base + 0xFFFF lies inside the Byte Store, then for every number k of steps the run of k steps
answers a next state, from every state whatever. The premise is the one the spec gives to exclude its model
fault StoreRange (D8). -/
def Obligations.LaunchPremiseRunsForever : Prop :=
  ∀ s, LaunchSafe s → ∀ k, ∃ t, Sys2Proof.core.run k s = .next t

/-- For every state with LegalState, if the step answers next t then LegalState t. LegalState: RAM and Byte
Store are in canonical form and within their sizes; the parameters meet their constraints; files have legal,
distinct names and sizes within their blocks; every open slot stands for a file with its cursor within its
size; on the reference host the Byte Store holds the files, entry after entry from host.fileBase, as far as
it reaches; the core is Halted exactly when its last class is Halted or Unknown. The file layer's part rests
on the model's logs 12 to 16, that no step changes a parameter on logs 2, 3 and 25. -/
def Obligations.InvariantKept : Prop :=
  ∀ s t, LegalState s → step s = .next t → LegalState t

/-- LegalState holds at State.reset, and for every state with LegalState the state after init(program_base) has
LegalState, for every program_base. The reset values the spec does not give are the model's (logs 1 to 4, 9
to 13, 25). -/
def Obligations.ResetMeetsInvariant : Prop :=
  LegalState State.reset ∧ ∀ base (s : State), LegalState s → LegalState (s.initInstance base)

/-- For a step of a Running core that answers next t: t is Halted if and only if the pc before the fetch is no
vector and the fetched word is 0xCFFF or decodes to nothing; the class of t is then Halted for 0xCFFF and
Unknown otherwise. And no step makes a Halted core Running. -/
def Obligations.OnlyHaltAndUnknownStop : Prop :=
  (∀ s t w, s.running = true → fetchWord s = .ok w → step s = .next t →
    (t.running = false ↔ vectorOf s.pc = none ∧ (w = 0xCFFF ∨ ∃ e, decode w = .error e)) ∧
    (t.running = false → t.cls = some (if w = 0xCFFF then .halted else .unknown))) ∧
  (∀ s t, step s = .next t → t.running = true → s.running = true)

/-- After init(base) program_base is base; for every run of any length that answers next t, program_base and the
parameters of t are those it started with. The part on program_base is 10_state.md R36; that the parameters
of 00_scope.md R6 are held in State and no step changes them is the model's (logs 2, 3, 25; 00_scope.md R14
calls them parameters of the step). -/
def Obligations.BaseNeverChanges : Prop :=
  (∀ base (s : State), (s.initInstance base).programBase = base) ∧
    ∀ k s t, Sys2Proof.core.run k s = .next t → t.programBase = s.programBase ∧ t.params = s.params

/-- Whenever exec of an instruction answers next t, the Byte Store of t is the old one (20_memory.md R50: "no
instruction in 30_encoding.md rule R88 writes program memory"); whenever a vector step of an operation other
than file_open and file_write does, the Byte Store is the old one. R50 names file_write and file_open as the
vector steps in which the host may write the store; that the oracle host writes it in no other operation is
the model's (log 17, DEDUCED). -/
def Obligations.StoreWrittenOnlyByFileOpenAndFileWrite : Prop :=
  (∀ i s t, exec i s = .next t → t.store = s.store) ∧
    ∀ op s t, mayWriteStore op = false → vectorStep op s = .next t → t.store = s.store

/-- Whenever exec of an instruction answers next t, the host of t is the old one with some bytes appended to its
serial stream; whenever any step answers next t, the serial stream of t is the old one with some bytes
appended. -/
def Obligations.SerialStreamOnlyGrows : Prop :=
  (∀ i s t, exec i s = .next t → ∃ bytes, t.host = { s.host with serial := s.host.serial ++ bytes }) ∧
    ∀ s t, step s = .next t → ∃ bytes, t.host.serial = s.host.serial ++ bytes

/-- After init(base) from any state: every register is 0x00, SREG is 0x00, SP is the parameter SP_RESET, 0x00DF
by default, every RAM byte reads 0x00, pc is 0, program_base is base, the core is Running, no class is
pending, and the parameters, the Byte Store and the host are as before. State.reset is such a state with
program_base 0. The values are the spec's own decision D7. -/
def Obligations.ResetValues : Prop :=
  ∀ base (s : State), let t := s.initInstance base
    (∀ r, t.reg r = 0x00) ∧ t.sreg = 0x00 ∧ t.sp = s.params.spReset ∧ (∀ i, Memory.read t.ram i = 0x00) ∧ t.pc = 0x0000 ∧
      t.programBase = base ∧ t.running = true ∧ t.cls = none ∧ t.params = s.params ∧ t.store = s.store ∧
      t.host = s.host ∧ State.reset.initInstance 0 = State.reset ∧ State.reset.sp = 0x00DF

/-- If exec of an instruction answers next t from a state of class Normal, as every step hands it over, the
class of t is the one the classification table gives the instruction; if a vector step answers next t, it is
Return. The codes 0 to 4 and the class of a vector step are the spec's own decision D15. -/
def Obligations.ClassesReturned : Prop :=
  (∀ i s t, s.cls = some .normal → exec i s = .next t → t.cls = some (classOf i)) ∧
    (∀ op s t, vectorStep op s = .next t → t.cls = some .ret) ∧
    [StepClass.normal, .call, .ret, .halted, .unknown].map StepClass.code = [0, 1, 2, 3, 4]

/-- If exec of an instruction answers next t, the pc of t is pcAfter: the advanced pc, the relative or indirect
target, the popped word, the skipped or branched-to offset, or the pc before the fetch for the halt
sentinel, all modulo 2^16. Wrapping, return layout, the scaling of Z and the skip distance are the spec's
own decisions D8 to D13. -/
def Obligations.PcAfterStep : Prop :=
  ∀ i s t, exec i s = .next t → t.pc = pcAfter i s

/-- If exec of an instruction answers next t, every flag outside flagsWritten, the table's row for the
instruction (all eight for a data-space write that lands on SREG_ADDR), is as before. The rows beyond add
and subtract are the spec's own decision D22. -/
def Obligations.FlagsOnlyAsListed : Prop :=
  ∀ i s t, exec i s = .next t → FlagsExcept (flagsWritten i s) s t

/-- If an instruction that computes N and V answers next t, then S of t is N XOR V of t. If S is N XOR V before
any instruction that answers next t and is neither BSET nor BCLR nor writes SREG_ADDR, it is so after. -/
def Obligations.SignIsNegativeXorOverflow : Prop :=
  (∀ i s t, computesSign i = true → exec i s = .next t → t.flag .s = xor (t.flag .n) (t.flag .v)) ∧
    ∀ i s t, ¬writesSregDirectly i s → exec i s = .next t → s.flag .s = xor (s.flag .n) (s.flag .v) →
      t.flag .s = xor (t.flag .n) (t.flag .v)

/-- For every state and address: below 0x20 the register of that number; else, by the first line that matches,
at SPL_ADDR the low byte of SP, at SPH_ADDR bits 9:8 of SP, at SREG_ADDR SREG, from RAM_BASE to RAM_BASE +
127 the RAM byte; everywhere else 0x00, the character output included. The addresses are the parameters, by
default 0x5D, 0x5E, 0x5F and 0x60. A write below 0x20 sets that register and no other. -/
def Obligations.DataReadByTheMap : Prop :=
  ∀ s a, (∀ i : Reg, a.toNat = i.val → memRead s a = s.reg i ∧
      ∀ v r, (memWrite s a v).reg r = if r = i then v else s.reg r) ∧
    (0x20 ≤ a.toNat → memRead s a =
      if a = s.params.splAddr then BitVec.ofNat 8 (s.sp.toNat % 256)
      else if a = s.params.sphAddr then BitVec.ofNat 8 (s.sp.toNat / 256 % 4)
      else if a = s.params.sregAddr then s.sreg
      else if s.params.ramBase.toNat ≤ a.toNat ∧ a.toNat < s.params.ramBase.toNat + 128 then
        Memory.read s.ram (a.toNat - s.params.ramBase.toNat)
      else 0x00) ∧
    Params.default.splAddr = 0x5D ∧ Params.default.sphAddr = 0x5E ∧ Params.default.sregAddr = 0x5F ∧
    Params.default.ramBase = 0x60

/-- For every state whose RAM is in canonical form, every address and byte: by the first line that matches, the
write sets the register below 0x20; SP[7:0] at SPL_ADDR; SP[9:8], clearing SP[15:10], at SPH_ADDR; SREG at
SREG_ADDR; the RAM byte from RAM_BASE to RAM_BASE + 127; appends the byte to the serial stream at
CHAR_OUT_ADDR; and changes nothing else. Every other data address reads as before. -/
def Obligations.DataWriteByTheMap : Prop :=
  ∀ s a v, s.ram.wf → DataWrite a v s (memWrite s a v)

/-- For every state whose RAM is in canonical form: after a write of v at a, reading a gives v for a register,
SPL, SREG or RAM address, v modulo 4 at SPH, and 0x00 at every other address, the character output included.
The alias addresses (parameters here) and the two bits of SPH are the spec's own decisions D4 and D6. -/
def Obligations.DataReadAfterWrite : Prop :=
  ∀ s a v, s.ram.wf → memRead (memWrite s a v) a =
    if atSph s.params a then BitVec.ofNat 8 (v.toNat % 4) else if pastRam s.params a then 0x00 else v

/-- For every state, pair and word: the pair reads as 256 times its high register plus its low register, which
are neighbours, the low one even; X, Y and Z are r27:r26, r29:r28 and r31:r30, the pairs of the syscall
arguments r25:r24, r23:r22 and r21:r20; writing v to the pair writes v[7:0] and v[15:8] to them and changes
nothing else; writing one of the two registers changes the pair at once. -/
def Obligations.PairsAreViewsOfRegisters : Prop :=
  ∀ (s : State) (p : RegPair) (v : Word) (b : Byte), p.lo.val % 2 = 0 ∧ p.hi.val = p.lo.val + 1 ∧
    (s.pair p).toNat = 256 * (s.reg p.hi).toNat + (s.reg p.lo).toNat ∧
    (s.setPair p v).reg p.lo = BitVec.ofNat 8 (v.toNat % 256) ∧
    (s.setPair p v).reg p.hi = BitVec.ofNat 8 (v.toNat / 256) ∧ (s.setPair p v).pair p = v ∧
    Frame [p.lo, p.hi] [] s (s.setPair p v) ∧
    (s.setReg p.lo b).pair p = joinBytes (s.reg p.hi) b ∧ (s.setReg p.hi b).pair p = joinBytes b (s.reg p.lo) ∧
    RegPair.x.lo = 26 ∧ RegPair.y.lo = 28 ∧ RegPair.z.lo = 30 ∧ RegPair.r24.lo = 24 ∧ RegPair.r22.lo = 22 ∧
    RegPair.r20.lo = 20

/-- For all registers d, r and every state: ADD gives x[d] + x[r], ADC adds C to it, LSL gives x[d] + x[d] and
ROL adds C to it, modulo 256, in x[d]; H S V N Z C by AddFlags; T, I, every other register and everything
else unchanged. V read as the carry into bit 7 XOR the carry out is the spec's own decision D21. -/
def Obligations.AddFamilyAdds : Prop :=
  ∀ (d r : Reg) (s : State),
    (∃ t, exec (.add d r) s = .next t ∧ (t.reg d).toNat = ((s.reg d).toNat + (s.reg r).toNat) % 256 ∧
      AddLaw (s.reg d) (s.reg r) false t ∧ Frame [d] [.c, .z, .n, .v, .s, .h] s t) ∧
    (∃ t, exec (.adc d r) s = .next t ∧
      (t.reg d).toNat = ((s.reg d).toNat + (s.reg r).toNat + (s.flag .c).toNat) % 256 ∧
      AddLaw (s.reg d) (s.reg r) (s.flag .c) t ∧ Frame [d] [.c, .z, .n, .v, .s, .h] s t) ∧
    (∃ t, exec (.lsl d) s = .next t ∧ (t.reg d).toNat = 2 * (s.reg d).toNat % 256 ∧
      AddLaw (s.reg d) (s.reg d) false t ∧ Frame [d] [.c, .z, .n, .v, .s, .h] s t) ∧
    (∃ t, exec (.rol d) s = .next t ∧ (t.reg d).toNat = (2 * (s.reg d).toNat + (s.flag .c).toNat) % 256 ∧
      AddLaw (s.reg d) (s.reg d) (s.flag .c) t ∧ Frame [d] [.c, .z, .n, .v, .s, .h] s t)

/-- For all operands and every state: x[d] receives x[d] minus the subtrahend (and minus C for SBC and SBCI)
modulo 256; H S V N C by SubFlags; Z says whether the result is zero for SUB and SUBI, and for SBC and SBCI
whether it is zero and Z was set; nothing else changes. V and the chain rule are the spec's own decisions
D21 and D24. -/
def Obligations.SubFamilySubtracts : Prop :=
  ∀ (d r : Reg) (k : Byte) (s : State),
    (∃ t, exec (.sub d r) s = .next t ∧ (t.reg d).toNat = ((s.reg d).toNat + 256 - (s.reg r).toNat) % 256 ∧
      SubLaw (s.reg d) (s.reg r) false (t.reg d == 0) t ∧ Frame [d] [.c, .z, .n, .v, .s, .h] s t) ∧
    (∃ t, exec (.subi d k) s = .next t ∧ (t.reg d).toNat = ((s.reg d).toNat + 256 - k.toNat) % 256 ∧
      SubLaw (s.reg d) k false (t.reg d == 0) t ∧ Frame [d] [.c, .z, .n, .v, .s, .h] s t) ∧
    (∃ t, exec (.sbc d r) s = .next t ∧
      (t.reg d).toNat = ((s.reg d).toNat + 512 - (s.reg r).toNat - (s.flag .c).toNat) % 256 ∧
      SubLaw (s.reg d) (s.reg r) (s.flag .c) (s.flag .z && t.reg d == 0) t ∧
      Frame [d] [.c, .z, .n, .v, .s, .h] s t) ∧
    (∃ t, exec (.sbci d k) s = .next t ∧
      (t.reg d).toNat = ((s.reg d).toNat + 512 - k.toNat - (s.flag .c).toNat) % 256 ∧
      SubLaw (s.reg d) k (s.flag .c) (s.flag .z && t.reg d == 0) t ∧ Frame [d] [.c, .z, .n, .v, .s, .h] s t)

/-- For all operands and every state: CP and CPI leave the flags of SUB and SUBI with Z set exactly for equal
operands; CPC leaves those of SBC, Z set exactly if Z was set and x[d] equals x[r] plus C modulo 256; no
register and nothing else changes. V and the chain rule are the spec's own decisions D21 and D24. -/
def Obligations.ComparesSetFlagsOnly : Prop :=
  ∀ (d r : Reg) (k : Byte) (s : State),
    (∃ t, exec (.cp d r) s = .next t ∧ SubLaw (s.reg d) (s.reg r) false (decide (s.reg d = s.reg r)) t ∧
      Frame [] [.c, .z, .n, .v, .s, .h] s t) ∧
    (∃ t, exec (.cpi d k) s = .next t ∧ SubLaw (s.reg d) k false (decide (s.reg d = k)) t ∧
      Frame [] [.c, .z, .n, .v, .s, .h] s t) ∧
    (∃ t, exec (.cpc d r) s = .next t ∧
      SubLaw (s.reg d) (s.reg r) (s.flag .c)
        (s.flag .z && decide ((s.reg d).toNat = ((s.reg r).toNat + (s.flag .c).toNat) % 256)) t ∧
      Frame [] [.c, .z, .n, .v, .s, .h] s t)

/-- For the pair 24 + 2p and every K from 0 to 63: the pair receives a + K, or a - K, modulo 65536; N is bit 15
of the result, V the change of bit 15 from clear to set (ADIW) or from set to clear (SBIW), C the unsigned
carry or borrow, Z says that all 16 bits are zero, S is N XOR V; nothing else changes. These flags are the
spec's own decision D22. -/
def Obligations.WordImmediatesAddAndSubtract : Prop :=
  ∀ (p : PairNum) (k : BitVec 6) (s : State), (pairOf p).lo.val = 24 + 2 * p.val ∧
    (∃ t, exec (.adiw p k) s = .next t ∧
      (t.pair (pairOf p)).toNat = ((s.pair (pairOf p)).toNat + k.toNat) % 65536 ∧
      t.flag .n = decide (32768 ≤ (t.pair (pairOf p)).toNat) ∧
      t.flag .v = decide ((s.pair (pairOf p)).toNat < 32768 ∧ 32768 ≤ (s.pair (pairOf p)).toNat + k.toNat) ∧
      t.flag .c = decide (65536 ≤ (s.pair (pairOf p)).toNat + k.toNat) ∧
      t.flag .z = decide (t.pair (pairOf p) = 0) ∧ t.flag .s = xor (t.flag .n) (t.flag .v) ∧
      Frame [(pairOf p).lo, (pairOf p).hi] [.c, .z, .n, .v, .s] s t) ∧
    (∃ t, exec (.sbiw p k) s = .next t ∧
      (t.pair (pairOf p)).toNat = ((s.pair (pairOf p)).toNat + 65536 - k.toNat) % 65536 ∧
      t.flag .n = decide (32768 ≤ (t.pair (pairOf p)).toNat) ∧
      t.flag .v = decide (32768 ≤ (s.pair (pairOf p)).toNat ∧ (s.pair (pairOf p)).toNat < 32768 + k.toNat) ∧
      t.flag .c = decide ((s.pair (pairOf p)).toNat < k.toNat) ∧
      t.flag .z = decide (t.pair (pairOf p) = 0) ∧ t.flag .s = xor (t.flag .n) (t.flag .v) ∧
      Frame [(pairOf p).lo, (pairOf p).hi] [.c, .z, .n, .v, .s] s t)

/-- For all operands and every state: each bit of x[d] becomes the AND, OR, exclusive OR or complement of the
operand bits; N is bit 7 of the result, V is 0, Z says that it is zero, S is N; COM also sets C; nothing
else changes. Which of C, H and V an instruction touches is the spec's own decision D22. -/
def Obligations.LogicFamilyComputesBitwise : Prop :=
  ∀ (d r : Reg) (k : Byte) (s : State),
    (∃ t, exec (.and d r) s = .next t ∧
      (∀ b, testBit (t.reg d) b = (testBit (s.reg d) b && testBit (s.reg r) b)) ∧ LogicLaw (t.reg d) t ∧
      Frame [d] [.z, .n, .v, .s] s t) ∧
    (∃ t, exec (.or d r) s = .next t ∧
      (∀ b, testBit (t.reg d) b = (testBit (s.reg d) b || testBit (s.reg r) b)) ∧ LogicLaw (t.reg d) t ∧
      Frame [d] [.z, .n, .v, .s] s t) ∧
    (∃ t, exec (.eor d r) s = .next t ∧
      (∀ b, testBit (t.reg d) b = xor (testBit (s.reg d) b) (testBit (s.reg r) b)) ∧ LogicLaw (t.reg d) t ∧
      Frame [d] [.z, .n, .v, .s] s t) ∧
    (∃ t, exec (.andi d k) s = .next t ∧
      (∀ b, testBit (t.reg d) b = (testBit (s.reg d) b && testBit k b)) ∧ LogicLaw (t.reg d) t ∧
      Frame [d] [.z, .n, .v, .s] s t) ∧
    (∃ t, exec (.ori d k) s = .next t ∧
      (∀ b, testBit (t.reg d) b = (testBit (s.reg d) b || testBit k b)) ∧ LogicLaw (t.reg d) t ∧
      Frame [d] [.z, .n, .v, .s] s t) ∧
    (∃ t, exec (.com d) s = .next t ∧ (∀ b, testBit (t.reg d) b = !testBit (s.reg d) b) ∧ LogicLaw (t.reg d) t ∧
      t.flag .c = true ∧ Frame [d] [.z, .n, .v, .s, .c] s t)

/-- For every register and state: NEG gives 0 - x[d] modulo 256 with C the result is not zero, V the result is
0x80, H the low nibble of x[d] is not zero; INC and DEC give x[d] + 1 and x[d] - 1 modulo 256 with V at 0x80
and at 0x7F, C and H unchanged; N, Z and S from the result; nothing else changes. These flags are the spec's
own decision D22. -/
def Obligations.NegIncDecComplete : Prop :=
  ∀ (d : Reg) (s : State),
    (∃ t, exec (.neg d) s = .next t ∧ (t.reg d).toNat = (256 - (s.reg d).toNat) % 256 ∧
      t.flag .c = decide (t.reg d ≠ 0) ∧ t.flag .v = decide (t.reg d = 0x80) ∧
      t.flag .h = (testBit (t.reg d) 3 || testBit (s.reg d) 3) ∧
      t.flag .h = decide ((s.reg d).toNat % 16 ≠ 0) ∧ t.flag .n = decide (128 ≤ (t.reg d).toNat) ∧
      t.flag .z = decide (t.reg d = 0) ∧ t.flag .s = xor (t.flag .n) (t.flag .v) ∧
      Frame [d] [.c, .z, .n, .v, .s, .h] s t) ∧
    (∃ t, exec (.inc d) s = .next t ∧ (t.reg d).toNat = ((s.reg d).toNat + 1) % 256 ∧
      t.flag .v = decide (t.reg d = 0x80) ∧ t.flag .n = decide (128 ≤ (t.reg d).toNat) ∧
      t.flag .z = decide (t.reg d = 0) ∧ t.flag .s = xor (t.flag .n) (t.flag .v) ∧ Frame [d] [.z, .n, .v, .s] s t) ∧
    (∃ t, exec (.dec d) s = .next t ∧ (t.reg d).toNat = ((s.reg d).toNat + 255) % 256 ∧
      t.flag .v = decide (t.reg d = 0x7F) ∧ t.flag .n = decide (128 ≤ (t.reg d).toNat) ∧
      t.flag .z = decide (t.reg d = 0) ∧ t.flag .s = xor (t.flag .n) (t.flag .v) ∧ Frame [d] [.z, .n, .v, .s] s t)

/-- For every pair of registers and every state, with a and b the operands and R the result: after ADC, H is
a3&b3 | b3&!R3 | !R3&a3, C the same of bit 7, V is a7&b7&!R7 | !a7&!b7&R7; after SBC, H is !a3&b3 | b3&R3 |
R3&!a3, C the same of bit 7, V is a7&!b7&!R7 | !a7&b7&R7. The forms are general knowledge in the spec, which
says they are equal. -/
def Obligations.BooleanFlagFormsAgree : Prop :=
  ∀ (d r : Reg) (s t : State), let a := s.reg d; let b := s.reg r; let x := t.reg d
    (exec (.adc d r) s = .next t →
      t.flag .h = (testBit a 3 && testBit b 3 || testBit b 3 && !testBit x 3 || !testBit x 3 && testBit a 3) ∧
      t.flag .c = (testBit a 7 && testBit b 7 || testBit b 7 && !testBit x 7 || !testBit x 7 && testBit a 7) ∧
      t.flag .v =
        (testBit a 7 && testBit b 7 && !testBit x 7 || !testBit a 7 && !testBit b 7 && testBit x 7)) ∧
    (exec (.sbc d r) s = .next t →
      t.flag .h = (!testBit a 3 && testBit b 3 || testBit b 3 && testBit x 3 || testBit x 3 && !testBit a 3) ∧
      t.flag .c = (!testBit a 7 && testBit b 7 || testBit b 7 && testBit x 7 || testBit x 7 && !testBit a 7) ∧
      t.flag .v =
        (testBit a 7 && !testBit b 7 && !testBit x 7 || !testBit a 7 && testBit b 7 && testBit x 7))

/-- After cp dl, rl and then cpc dh, rh, with A = dh:dl and B = rh:rl: Z says A = B, C says A < B unsigned, S
says A < B signed, and no register has changed. The chain rule for Z is the spec's own decision D24. -/
def Obligations.CompareChainComparesWords : Prop :=
  ∀ (dl rl dh rh : Reg) (s : State), let a := joinBytes (s.reg dh) (s.reg dl); let b := joinBytes (s.reg rh) (s.reg rl)
    ∃ t u, exec (.cp dl rl) s = .next t ∧ exec (.cpc dh rh) t = .next u ∧ u.flag .z = decide (a = b) ∧
      u.flag .c = decide (a.toNat < b.toNat) ∧ u.flag .s = decide (a.toInt < b.toInt) ∧
      Frame [] [.c, .z, .n, .v, .s, .h] s u

/-- If the low destination is neither the high destination nor the high source, then after add dl, rl and adc
dh, rh the pair dh:dl holds A + B modulo 65536, C is the carry out of bit 15 and V the signed overflow of
the 16-bit sum; only dl, dh and the six flags have changed. V is read as the spec's own decision D21 reads
it. -/
def Obligations.AddChainAddsWords : Prop :=
  ∀ (dl rl dh rh : Reg) (s : State), dl ≠ dh → dl ≠ rh →
    let a := joinBytes (s.reg dh) (s.reg dl); let b := joinBytes (s.reg rh) (s.reg rl)
    ∃ t u, exec (.add dl rl) s = .next t ∧ exec (.adc dh rh) t = .next u ∧
      joinBytes (u.reg dh) (u.reg dl) = a + b ∧ u.flag .c = decide (65536 ≤ a.toNat + b.toNat) ∧
      u.flag .v = decide (a.toInt + b.toInt < -32768 ∨ 32768 ≤ a.toInt + b.toInt) ∧
      Frame [dl, dh] [.c, .z, .n, .v, .s, .h] s u

/-- For every register and state: LSR gives x[d] / 2, ROR x[d] / 2 with the old C in bit 7, ASR the signed value
of x[d] halved rounding down; C is the old bit 0, N bit 7 of the result, Z whether it is zero, V is N XOR C
and S is C; nothing else changes. C and V are the spec's own decision D22. -/
def Obligations.RightShiftsHalve : Prop :=
  ∀ (d : Reg) (s : State),
    (∃ t, exec (.lsr d) s = .next t ∧ (t.reg d).toNat = (s.reg d).toNat / 2 ∧
      ShiftRightLaw (s.reg d) (t.reg d) t ∧ Frame [d] [.c, .z, .n, .v, .s] s t) ∧
    (∃ t, exec (.ror d) s = .next t ∧ (t.reg d).toNat = 128 * (s.flag .c).toNat + (s.reg d).toNat / 2 ∧
      ShiftRightLaw (s.reg d) (t.reg d) t ∧ Frame [d] [.c, .z, .n, .v, .s] s t) ∧
    (∃ t, exec (.asr d) s = .next t ∧ (t.reg d).toInt = (s.reg d).toInt / 2 ∧
      ShiftRightLaw (s.reg d) (t.reg d) t ∧ Frame [d] [.c, .z, .n, .v, .s] s t)

/-- For all operands and every state: MOV copies x[r], LDI writes K, SWAP exchanges the two nibbles, BLD
replaces bit b by T and keeps the other seven; nothing else changes, no flag included. SWAP is in the table
by the spec's own decision D2. -/
def Obligations.RegisterMovesWriteOneRegister : Prop :=
  ∀ (d r : Reg) (k : Byte) (b : BitNum) (s : State),
    (∃ t, exec (.mov d r) s = .next t ∧ t.reg d = s.reg r ∧ Frame [d] [] s t) ∧
    (∃ t, exec (.ldi d k) s = .next t ∧ t.reg d = k ∧ Frame [d] [] s t) ∧
    (∃ t, exec (.swap d) s = .next t ∧
      (t.reg d).toNat = 16 * ((s.reg d).toNat % 16) + (s.reg d).toNat / 16 ∧ Frame [d] [] s t) ∧
    (∃ t, exec (.bld d b) s = .next t ∧
      (∀ c, testBit (t.reg d) c = if c = b then s.flag .t else testBit (s.reg d) c) ∧ Frame [d] [] s t)

/-- For every bit number and state: BSET sets bit s of SREG, BCLR clears it, BST copies bit b of x[d] to T,
which is bit 6; the other seven bits of SREG, every register and everything else are unchanged. The bit
positions are the spec's own decision D3. -/
def Obligations.StatusBitInstructionsWriteOneBit : Prop :=
  ∀ (f b : BitNum) (d : Reg) (s : State),
    (∃ t, exec (.bset f) s = .next t ∧ (∀ c, testBit t.sreg c = if c = f then true else testBit s.sreg c) ∧
      t = { s with sreg := t.sreg }) ∧
    (∃ t, exec (.bclr f) s = .next t ∧ (∀ c, testBit t.sreg c = if c = f then false else testBit s.sreg c) ∧
      t = { s with sreg := t.sreg }) ∧
    (∃ t, exec (.bst d b) s = .next t ∧
      (∀ c, testBit t.sreg c = if c = 6 then testBit (s.reg d) b else testBit s.sreg c) ∧
      t = { s with sreg := t.sreg })

/-- For every state, exec of NOP, SLEEP, WDR and BREAK answers the state itself: the pc, already advanced, is
the only change of the step. That these are the no-op class is the spec's own decision D2. -/
def Obligations.NoOpsChangeNothing : Prop :=
  ∀ s, exec .nop s = .next s ∧ exec .sleep s = .next s ∧ exec .wdr s = .next s ∧ exec .brk s = .next s

/-- For every state handed over with the advanced pc: RJMP adds twice the signed k modulo 2^16, IJMP goes to
twice Z modulo 2^16, HALT puts the pc back by 2, clears running and returns Halted; nothing else changes. k
in words, Z in words and the pc of a halted core are the spec's own decisions D1, D10 and D13. -/
def Obligations.JumpsMoveThePc : Prop :=
  ∀ (k : BitVec 12) (s : State),
    exec (.rjmp k) s = .next { s with pc := s.pc + 2 * k.signExtend 16 } ∧
    exec .ijmp s = .next { s with pc := 2 * s.pair .z } ∧
    exec .halt s = .next { s with pc := s.pc - 2, running := false, cls := some .halted }

/-- For every state whose RAM is in canonical form: the low byte of the pc is written at SP and SP decreases,
the high byte is written at the SP this left and SP decreases again, each write by the whole data-space map;
then the pc is the relative target, or twice Z as it was before the pushes, and the class is Call; nothing
else changes. The stack layout is the spec's own decisions D9 and D20. -/
def Obligations.CallsPushTheReturnOffset : Prop :=
  ∀ (k : BitVec 12) (s : State), s.ram.wf → ∃ u v, DataWrite s.sp s.pc.lo s u ∧
    DataWrite (u.sp - 1) s.pc.hi { u with sp := u.sp - 1 } v ∧
    exec (.rcall k) s =
      .next { v with sp := v.sp - 1, pc := s.pc + 2 * k.signExtend 16, cls := some .call } ∧
    exec .icall s = .next { v with sp := v.sp - 1, pc := 2 * s.pair .z, cls := some .call }

/-- For every state: the high byte of the pc is read at SP + 1 and its low byte at SP + 2, each by the data-
space map with SP already moved; SP grows by 2 modulo 2^16, the class is Return; RETI sets bit 7 of SREG and
keeps the other flags; nothing else changes. The layout and RETI are the spec's own decisions D9, D20 and
D23. -/
def Obligations.ReturnsPopThePc : Prop :=
  ∀ s : State,
    let hi := memRead { s with sp := s.sp + 1 } (s.sp + 1)
    let lo := memRead { s with sp := s.sp + 2 } (s.sp + 2)
    exec .ret s = .next { s with sp := s.sp + 2, pc := joinBytes hi lo, cls := some .ret } ∧
    exec .reti s =
      .next { s with sp := s.sp + 2, pc := joinBytes hi lo, cls := some .ret, sreg := s.sreg ||| 0x80 }

/-- If SP and SP - 1 are RAM addresses, of ram[i] and ram[j], and RAM is in canonical form: after RCALL (or
ICALL) the address SP holds the low byte and SP - 1 the high byte of the return offset; a RET then restores
pc and SP, and no register, flag or RAM byte but those two differs from before the call. The stack layout is
the spec's own decisions D9 and D20. -/
def Obligations.CallThenReturnComesBack : Prop :=
  ∀ (k : BitVec 12) (s : State) (i j : Nat), s.ram.wf → atRam s.params s.sp i → atRam s.params (s.sp - 1) j →
    ∀ call, call = .rcall k ∨ call = .icall →
      ∃ t u, exec call s = .next t ∧ memRead t s.sp = s.pc.lo ∧ memRead t (s.sp - 1) = s.pc.hi ∧ t.sp = s.sp - 2 ∧
        exec .ret t = .next u ∧ u = { s with ram := u.ram, cls := some .ret } ∧
        ∀ n, n ≠ i → n ≠ j → Memory.read u.ram n = Memory.read s.ram n

/-- For all operands and every state handed over with the advanced pc: a skip whose condition holds adds 2, a
branch whose flag is as tested adds twice the signed k, all modulo 2^16; otherwise the pc stays the advanced
one; nothing else changes. One-word skips and k in words are the spec's own decisions D12 and D1. -/
def Obligations.SkipsAndBranchesMoveThePc : Prop :=
  ∀ (d r : Reg) (a : IoLow) (b : BitNum) (k : BitVec 7) (s : State),
    exec (.cpse d r) s = .next { s with pc := if s.reg d = s.reg r then s.pc + 2 else s.pc } ∧
    exec (.sbrc r b) s = .next { s with pc := if testBit (s.reg r) b then s.pc else s.pc + 2 } ∧
    exec (.sbrs r b) s = .next { s with pc := if testBit (s.reg r) b then s.pc + 2 else s.pc } ∧
    exec (.sbic a b) s =
      .next { s with pc := if testBit (memRead s (s.params.ioBase + BitVec.ofNat 16 a.val)) b then s.pc else s.pc + 2 } ∧
    exec (.sbis a b) s =
      .next { s with pc := if testBit (memRead s (s.params.ioBase + BitVec.ofNat 16 a.val)) b then s.pc + 2 else s.pc } ∧
    exec (.brbs b k) s =
      .next { s with pc := if testBit s.sreg b then s.pc + 2 * k.signExtend 16 else s.pc } ∧
    exec (.brbc b k) s =
      .next { s with pc := if testBit s.sreg b then s.pc else s.pc + 2 * k.signExtend 16 }

/-- For every destination and state, and for each of X, Y, Z: plain, post-increment and pre-decrement loads read
the data-space byte at P, P and P - 1 (with P already decremented for -P), update the pair to P, P + 1 and P
- 1 modulo 2^16, and write the byte to x[d] last, so that a destination inside the pointer keeps the byte;
no flag, SP, pc or memory changes. The order is the spec's own decision D19. -/
def Obligations.LoadsReadThroughThePointer : Prop :=
  ∀ (d : Reg) (s : State),
    Loads (.ldX d) .x .plain d s ∧ Loads (.ldXInc d) .x .postInc d s ∧ Loads (.ldXDec d) .x .preDec d s ∧
    Loads (.ldY d) .y .plain d s ∧ Loads (.ldYInc d) .y .postInc d s ∧ Loads (.ldYDec d) .y .preDec d s ∧
    Loads (.ldZ d) .z .plain d s ∧ Loads (.ldZInc d) .z .postInc d s ∧ Loads (.ldZDec d) .z .preDec d s

/-- For every source and every state whose RAM is in canonical form, and for each of X, Y, Z: the store makes
exactly the data-space write of the source register's old byte at P, P or P - 1, after the decrement for -P
and before the increment for P+; every other data address but the pointer's own registers reads as before,
and nothing outside the data space changes but the serial stream at CHAR_OUT_ADDR. The order is the spec's
own decision D19. -/
def Obligations.StoresWriteThroughThePointer : Prop :=
  ∀ (r : Reg) (s : State), s.ram.wf →
    Stores (.stX r) .x .plain r s ∧ Stores (.stXInc r) .x .postInc r s ∧ Stores (.stXDec r) .x .preDec r s ∧
    Stores (.stY r) .y .plain r s ∧ Stores (.stYInc r) .y .postInc r s ∧ Stores (.stYDec r) .y .preDec r s ∧
    Stores (.stZ r) .z .plain r s ∧ Stores (.stZInc r) .z .postInc r s ∧ Stores (.stZDec r) .z .preDec r s

/-- For every destination and state: if program_base + Z lies inside the Byte Store, LPM writes its byte to r0,
LPM Rd, Z to x[d], LPM Rd, Z+ to x[d] after Z has become Z + 1 modulo 2^16, and nothing else changes;
otherwise each stops with the fault StoreRange at that address. Byte offsets, the order and the fault are
the spec's own decisions D11, D19 and D8. -/
def Obligations.ProgramLoadsReadTheStore : Prop :=
  ∀ (d : Reg) (s : State), let a := s.programBase + (s.pair .z).toNat
    (a < s.params.storeSize →
      (∃ t, exec .lpmR0 s = .next t ∧ t.reg 0 = Memory.read s.store a ∧ Frame [0] [] s t) ∧
      (∃ t, exec (.lpm d) s = .next t ∧ t.reg d = Memory.read s.store a ∧ Frame [d] [] s t) ∧
      (∃ t, exec (.lpmInc d) s = .next t ∧ t.reg d = Memory.read s.store a ∧
        (d ≠ 30 → t.reg 30 = (s.pair .z + 1).lo) ∧ (d ≠ 31 → t.reg 31 = (s.pair .z + 1).hi) ∧
        Frame [d, 30, 31] [] s t)) ∧
    (s.params.storeSize ≤ a → exec .lpmR0 s = .fault (.storeRange a) ∧ exec (.lpm d) s = .fault (.storeRange a) ∧
      exec (.lpmInc d) s = .fault (.storeRange a))

/-- For every register, I/O number A from 0 to 63 and state: IN writes the byte read at data address IO_BASE + A
(a parameter, 0x20 by default) to x[d] and changes nothing else; OUT, where RAM is in canonical form, makes
exactly the data-space write of x[r] there: SP, SREG or the serial stream at their numbers, nothing at an
unmapped one. The I/O window is the spec's own decisions D4 and D5. -/
def Obligations.InAndOutUseTheIoWindow : Prop :=
  ∀ (d : Reg) (a : IoNum) (s : State),
    (∃ t, exec (.inp d a) s = .next t ∧ t.reg d = memRead s (s.params.ioBase + BitVec.ofNat 16 a.val) ∧ Frame [d] [] s t) ∧
    (s.ram.wf → ∃ t, exec (.out a d) s = .next t ∧ DataWrite (s.params.ioBase + BitVec.ofNat 16 a.val) (s.reg d) s t)

/-- For every I/O number A from 0 to 31, bit b and state whose RAM is in canonical form: SBI and CBI make
exactly the data-space write at IO_BASE + A (a parameter, 0x20 by default) of the byte read there with bit b
set, or cleared, and the other seven bits as read. Read-modify-write is the spec's own decision D27. -/
def Obligations.IoBitInstructionsReadModifyWrite : Prop :=
  ∀ (a : IoLow) (b : BitNum) (s : State), s.ram.wf → let addr := s.params.ioBase + BitVec.ofNat 16 a.val
    (∃ t v, exec (.sbi a b) s = .next t ∧ DataWrite addr v s t ∧
      ∀ c, testBit v c = if c = b then true else testBit (memRead s addr) c) ∧
    (∃ t v, exec (.cbi a b) s = .next t ∧ DataWrite addr v s t ∧
      ∀ c, testBit v c = if c = b then false else testBit (memRead s addr) c)

/-- For every register and state: PUSH, where RAM is in canonical form, makes exactly the data-space write of
x[r] at SP and then decreases the SP that write left; POP increases SP, writes the byte read there, with SP
already moved, to x[d], and changes nothing else. The stack discipline is the spec's own decision D20. -/
def Obligations.PushAndPopUseTheStack : Prop :=
  ∀ (r : Reg) (s : State),
    (s.ram.wf → ∃ u, DataWrite s.sp (s.reg r) s u ∧ exec (.push r) s = .next { u with sp := u.sp - 1 }) ∧
    (∃ t, exec (.pop r) s = .next t ∧ t.reg r = memRead { s with sp := s.sp + 1 } (s.sp + 1) ∧ t.sp = s.sp + 1 ∧
      RegsExcept [r] s t ∧ t.sreg = s.sreg ∧ t.pc = s.pc ∧ SameElsewhere s t)

/-- For every state: write_char appends r24; print_ram appends the string that the data space holds at r25:r24,
up to its zero byte or STR_SCAN_MAX bytes; println_ram appends that and NEWLINE; each is then RET from the
state so changed, and writes no register. The arguments, NEWLINE and the bound are the spec's own decisions
D17, D31 and D34. -/
def Obligations.SerialOperationsEmit : Prop :=
  ∀ s : State,
    vectorStep .writeChar s = exec .ret (s.setHost (s.host.emit [s.reg 24])) ∧
    ∃ str, ScanOf s.params.strScanMax (memRead s) (s.pair .r24) str ∧
      vectorStep .printRam s = exec .ret (s.setHost (s.host.emit str)) ∧
      vectorStep .printlnRam s = exec .ret (s.setHost (s.host.emit (str ++ s.params.newline)))

/-- Let at i be program_base + (r25:r24 + i modulo 2^16). If str is the string of Byte Store bytes from at 0 up
to its zero byte or STR_SCAN_MAX bytes and every offset the scan visits lies inside the Byte Store, both
operations append str, println_progmem then NEWLINE, and are RET from the state so changed. If the scan
meets an offset outside before a zero byte, both stop with StoreRange at its address, nothing emitted (log
8). Under the launch premise there is such a str. The offsets, the bound and the fault are the spec's own
decisions D11, D34 and D8. -/
def Obligations.ProgramStringsEmit : Prop :=
  ∀ s : State,
    let at' := fun i : Nat => s.programBase + (s.pair .r24 + BitVec.ofNat 16 i).toNat
    let scan := ScanOf s.params.strScanMax (fun a => Memory.read s.store (s.programBase + a.toNat)) (s.pair .r24)
    let emits := fun str : List Byte =>
      vectorStep .printProgmem s = exec .ret (s.setHost (s.host.emit str)) ∧
        vectorStep .printlnProgmem s = exec .ret (s.setHost (s.host.emit (str ++ s.params.newline)))
    (∀ str, scan str → (∀ i, i ≤ str.length → i < s.params.strScanMax → at' i < s.params.storeSize) → emits str) ∧
    (∀ n, n < s.params.strScanMax → (∀ i, i < n → at' i < s.params.storeSize ∧ Memory.read s.store (at' i) ≠ 0) →
      s.params.storeSize ≤ at' n →
      vectorStep .printProgmem s = .fault (.storeRange (at' n)) ∧
        vectorStep .printlnProgmem s = .fault (.storeRange (at' n))) ∧
    (LaunchSafe s → ∃ str, scan str ∧ emits str)

/-- For every state whose RAM is in canonical form and each of the eight file operations: the step is RET from a
state u that differs from s at most in the result registers of the operation, in the n bytes from r23:r22
upward, in the host and, for file_open and file_write, in the Byte Store. n is 0 but for file_name, where it
is at most 256 and r24 is n - 1 (0 for n = 0), and file_read, where it is at most r21:r20 and r25:r24 is n.
The frame of the core is the spec's own decision D18; that the oracle host leaves the Byte Store alone in
the other six operations is the model's (log 17), and so is its bound of 256 bytes for file_name (log 11). -/
def Obligations.FileOperationsReturnWithinTheirFrame : Prop :=
  ∀ op s, op ∉ [HostOp.writeChar, .printRam, .printProgmem, .printlnRam, .printlnProgmem] → s.ram.wf →
    ∃ u n, vectorStep op s = exec .ret u ∧
      (writesBuffer op = false → n = 0) ∧
      (op = .fileName → n ≤ 256 ∧ (u.reg 24).toNat = n - 1) ∧
      (op = .fileRead → n ≤ (s.pair .r20).toNat ∧ (u.pair .r24).toNat = n) ∧
      (∀ r, r ∉ resultRegs op → offBuffer (s.pair .r22) n r.val → u.reg r = s.reg r) ∧
      (offBuffer (s.pair .r22) n s.params.sregAddr.toNat → u.sreg = s.sreg) ∧
      (offBuffer (s.pair .r22) n s.params.splAddr.toNat → offBuffer (s.pair .r22) n s.params.sphAddr.toNat →
        u.sp = s.sp) ∧
      (∀ i, offBuffer (s.pair .r22) n (s.params.ramBase.toNat + i) → Memory.read u.ram i = Memory.read s.ram i) ∧
      u.pc = s.pc ∧ u.programBase = s.programBase ∧ u.running = s.running ∧ u.cls = s.cls ∧
      u.params = s.params ∧ (mayWriteStore op = false → u.store = s.store)

/-- On the reference host, with name the NUL-terminated string at r25:r24 and m = r22. It fails for m > 2, an
empty name or one of more than 127 bytes, no free slot, or Read of an unknown name; Write and Append of an
unknown name make an empty file, or fail if the host is full. Otherwise the first free slot is opened: Read
with the stored size and cursor 0, Write with size 0 after truncating the file, Append with the size as size
and cursor. If the files changed, the Byte Store is written with them (persist). The answers are the spec's
own decision D32. The model's are: where the files stand in the Byte Store (log 12), what full means (log
13), that a failure changes nothing (log 14), that truncation keeps the block's bytes (log 16), and the
names' comparison and first match (log 23). -/
def Obligations.ReferenceOpenAnswers : Prop :=
  ∀ (s : State) (name : List Byte), s.host.kind = .reference → ScanOf s.params.strScanMax (memRead s) (s.pair .r24) name →
    let h := s.host
    let m := (s.reg 22).toNat
    let fails := vectorStep .fileOpen s = exec .ret (s.setReg 24 0xFF)
    (2 < m ∨ name.length = 0 ∨ 127 < name.length ∨ (∀ sl ∈ h.slots, sl ≠ none) → fails) ∧
    ∀ slot, m ≤ 2 → 1 ≤ name.length → name.length ≤ 127 → h.slots[slot]? = some none →
      (∀ i, i < slot → h.slots[i]? ≠ some none) →
      let opens := fun h' : HostState =>
        vectorStep .fileOpen s = exec .ret (((s.setHost h').setStore
          (persist s.params.storeSize h h' s.store)).setReg 24 (BitVec.ofNat 8 slot))
      ((∀ f ∈ h.files, f.name ≠ name) →
        let files := h.files ++ [⟨name, 0, []⟩]
        (m = 0 → fails) ∧ (m ≠ 0 → h.capacity < filesFootprint files → fails) ∧
        (m ≠ 0 → filesFootprint files ≤ h.capacity →
          opens { h with
            files := files
            slots := h.slots.set slot (some ⟨h.files.length, 0, 0, if m = 1 then .write else .append⟩) })) ∧
      ∀ i e, h.files[i]? = some e → e.name = name → (∀ j f, j < i → h.files[j]? = some f → f.name ≠ name) →
        (m = 0 → opens { h with slots := h.slots.set slot (some ⟨i, e.size, 0, .read⟩) }) ∧
        (m = 1 → opens { h with
          files := h.files.set i { e with size := 0 }
          slots := h.slots.set slot (some ⟨i, 0, 0, .write⟩) }) ∧
        (m = 2 → opens { h with slots := h.slots.set slot (some ⟨i, e.size, e.size, .append⟩) })

/-- On the reference host of a state with LegalState: for an open handle in r24 the count is the smaller of
r21:r20 and size - cursor; the bytes of the file from the cursor are written from r23:r22 upward, the cursor
moves past them, r25:r24 is the count; for a handle that is not open the count is 0 and nothing else
changes. These answers are the spec's own decision D32; that size is the slot's own, captured at open, and
that a block keeps its bytes after a truncation through another handle is the model's (log 16). -/
def Obligations.ReferenceReadAnswers : Prop :=
  ∀ s : State, LegalState s → s.host.kind = .reference →
    (s.host.slot (s.reg 24) = none → vectorStep .fileRead s = exec .ret (s.setPair .r24 0)) ∧
    ∀ sl, s.host.slot (s.reg 24) = some sl →
      ∃ e bytes, s.host.files[sl.file]? = some e ∧ bytes.length = min (s.pair .r20).toNat (sl.size - sl.cursor) ∧
        (∀ i, i < bytes.length → bytes[i]? = e.data[sl.cursor + i]?) ∧
        vectorStep .fileRead s = exec .ret ((writeBytes
          (s.setHost { s.host with
            slots := s.host.slots.set (s.reg 24).toNat (some { sl with cursor := sl.cursor + bytes.length }) })
          (s.pair .r22) bytes).setPair .r24 (BitVec.ofNat 16 bytes.length))

/-- On the reference host of a state with LegalState, with the buffer of r21:r20 bytes at r23:r22, or its string
for the length 0xFFFF: a handle that is not open or is open for Read gives 0xFFFF and changes nothing. If it
succeeds, the host differs only in the handle's file and slot: the file's byte i is the buffer's byte i -
cursor in the written range and its old byte elsewhere, its size and the slot's are the larger of the slot's
size and the end of the range, the cursor stands at that end, and r25:r24 is the count; if the files
changed, the Byte Store is written with them (persist). These answers are the spec's own decision D32; where
the files stand in the Byte Store, fullness, what a failure leaves, overwriting and growth, and the slot's
own size are the model's (logs 12 to 16). -/
def Obligations.ReferenceWriteAnswers : Prop :=
  ∀ s : State, LegalState s → s.host.kind = .reference →
    let fails := vectorStep .fileWrite s = exec .ret (s.setPair .r24 0xFFFF)
    (s.host.slot (s.reg 24) = none → fails) ∧
    ∀ sl, s.host.slot (s.reg 24) = some sl → (sl.mode = .read → fails) ∧
      (sl.mode ≠ .read →
        let bytes := writeBuffer s (s.pair .r22) (s.pair .r20)
        let size := max sl.size (sl.cursor + bytes.length)
        ∃ e data, s.host.files[sl.file]? = some e ∧
          (∀ i, data[i]? = if sl.cursor ≤ i ∧ i < sl.cursor + bytes.length then bytes[i - sl.cursor]?
            else e.data[i]?) ∧
          let files := s.host.files.set sl.file { e with size := size, data := data }
          (0xFFFE < size ∨ s.host.capacity < filesFootprint files → fails) ∧
          (size ≤ 0xFFFE → filesFootprint files ≤ s.host.capacity →
            let h' := { s.host with
              files := files
              slots := s.host.slots.set (s.reg 24).toNat (some
                { sl with size := size, cursor := sl.cursor + bytes.length }) }
            vectorStep .fileWrite s = exec .ret (((s.setHost h').setStore
              (persist s.params.storeSize s.host h' s.store)).setPair .r24 (BitVec.ofNat 16 bytes.length))))

/-- For a legal reference host and an open handle with slot sl, if file_write of the bytes answers a count other
than 0xFFFF, then file_seek to the old cursor succeeds with r24 = 1 and file_read of that many bytes gives
exactly the bytes written and their count. The answers are the spec's own decision D32 and the model's logs
12 to 16. -/
def Obligations.ReferenceWriteThenReadBack : Prop :=
  ∀ (size : Nat) (h : HostState) (m : Memory) (handle : Byte) (sl : Slot) (bytes : List Byte),
    h.valid → h.kind = .reference → h.slot handle = some sl →
    (Machine.fileWrite size h m handle bytes).result ≠ .word 0xFFFF →
    let w := Machine.fileWrite size h m handle bytes
    let k := Machine.fileSeek w.host w.store handle (BitVec.ofNat 16 sl.cursor)
    let r := Machine.fileRead k.host k.store handle (BitVec.ofNat 16 bytes.length)
    w.result = .word (BitVec.ofNat 16 bytes.length) ∧ k.result = .byte 1 ∧ r.buffer = bytes ∧
      r.result = .word (BitVec.ofNat 16 bytes.length)

/-- On the reference host of a state with LegalState: file_name writes the name and a zero byte to the buffer
and gives its length; file_size and file_position give the slot's size and cursor; file_seek moves the
cursor to r23:r22 and gives 1 if that is at most the size, else gives 0 and changes nothing; file_close
frees the slot. For a handle that is not open they give 0, 0xFFFF, 0xFFFF, 0 and nothing, and change
nothing. These answers are the spec's own decision D32; that the size is the slot's own, captured at open,
is the model's (log 16). -/
def Obligations.ReferenceNameSizePositionSeekClose : Prop :=
  ∀ s : State, LegalState s → s.host.kind = .reference →
    let setSlot := fun o : Option Slot => s.setHost { s.host with slots := s.host.slots.set (s.reg 24).toNat o }
    (s.host.slot (s.reg 24) = none →
      vectorStep .fileName s = exec .ret (s.setReg 24 0) ∧
      vectorStep .fileSize s = exec .ret (s.setPair .r24 0xFFFF) ∧
      vectorStep .filePosition s = exec .ret (s.setPair .r24 0xFFFF) ∧
      vectorStep .fileSeek s = exec .ret (s.setReg 24 0) ∧
      vectorStep .fileClose s = exec .ret s) ∧
    ∀ sl, s.host.slot (s.reg 24) = some sl →
      (∃ e, s.host.files[sl.file]? = some e ∧ vectorStep .fileName s = exec .ret
        ((writeBytes s (s.pair .r22) (e.name ++ [0x00])).setReg 24 (BitVec.ofNat 8 e.name.length))) ∧
      vectorStep .fileSize s = exec .ret (s.setPair .r24 (BitVec.ofNat 16 sl.size)) ∧
      vectorStep .filePosition s = exec .ret (s.setPair .r24 (BitVec.ofNat 16 sl.cursor)) ∧
      ((s.pair .r22).toNat ≤ sl.size → vectorStep .fileSeek s =
        exec .ret ((setSlot (some { sl with cursor := (s.pair .r22).toNat })).setReg 24 1)) ∧
      (sl.size < (s.pair .r22).toNat → vectorStep .fileSeek s = exec .ret (s.setReg 24 0)) ∧
      vectorStep .fileClose s = exec .ret (setSlot none)

/-- On the reference host of a state with LegalState, after a file_open or file_write step that answers t: byte
j of the block of each file of t stands in the Byte Store at the block's place in the file area plus j,
where the store reaches; every byte outside the file area is as before. After a file_write with a result
other than 0xFFFF, so in particular does byte j of the buffer, at the block's place plus the old cursor plus
j. That written data is in the Byte Store is 70_reset_and_hazards.md R334; where the file area lies and how
it is laid out is the model's (log 12). -/
def Obligations.FileWritesReachTheByteStore : Prop :=
  ∀ (op : HostOp) (s t : State), LegalState s → s.host.kind = .reference → op = .fileOpen ∨ op = .fileWrite →
    vectorStep op s = .next t →
    let place := fun file : Nat => t.host.fileBase + blockOffset t.host.files file
    (∀ file f j v, t.host.files[file]? = some f → f.data[j]? = some v → place file + j < t.params.storeSize →
      Memory.read t.store (place file + j) = v) ∧
    (∀ a, a < t.host.fileBase ∨ t.host.fileBase + filesFootprint t.host.files ≤ a →
      Memory.read t.store a = Memory.read s.store a) ∧
    (op = .fileWrite → t.pair .r24 ≠ 0xFFFF → ∃ sl, s.host.slot (s.reg 24) = some sl ∧
      ∀ j v, (writeBuffer s (s.pair .r22) (s.pair .r20))[j]? = some v →
        place sl.file + (sl.cursor + j) < t.params.storeSize →
        Memory.read t.store (place sl.file + (sl.cursor + j)) = v)
end

