-- ==== Sys2Proof/Laws/Memory.lean ====
section
/-! SUPPORT. The laws of the byte memories: a read after a write, the canonical form kept by every operation,
the bound kept by every operation, and equal reads making equal memories. -/

namespace Sys2Proof.Machine

theorem Memory.wf_nil : Memory.wf [] := ⟨List.Pairwise.nil, by simp⟩

theorem Memory.wf_cons (p : Host.Cell) (m : Memory) :
    Memory.wf (p :: m) ↔ (∀ q ∈ m, p.1 < q.1) ∧ p.2 ≠ blankByte ∧ Memory.wf m := by
  simp only [Memory.wf, List.pairwise_cons, List.mem_cons, forall_eq_or_imp]
  tauto

/-- An address below every listed one reads as blank. -/
theorem Memory.read_of_lt (m : Memory) (a : Nat) (h : ∀ q ∈ m, a < q.1) : m.read a = blankByte := by
  induction m with
  | nil => rfl
  | cons p m ih =>
    have hp := h p (by simp)
    simp only [Memory.read]
    rw [if_neg (by omega)]
    exact ih fun q hq => h q (by simp [hq])

/-- A byte reads back as written. -/
theorem Memory.read_write_same (m : Memory) (hm : m.wf) (a : Nat) (v : Byte) : (m.write a v).read a = v := by
  induction m with
  | nil =>
    simp only [Memory.write]
    split <;> simp_all [Memory.read]
  | cons p m ih =>
    obtain ⟨b, w⟩ := p
    obtain ⟨hlt, -, hwf⟩ := (Memory.wf_cons _ _).1 hm
    simp only [Memory.write]
    split
    · split
      · subst_vars
        exact Memory.read_of_lt _ _ (by simp only [List.mem_cons, forall_eq_or_imp]; exact ⟨‹_›, fun q hq => by have := hlt q hq; simp at this; omega⟩)
      · simp [Memory.read]
    · split
      · split
        · subst_vars
          exact Memory.read_of_lt _ _ hlt
        · simp [Memory.read]
      · simp only [Memory.read]
        rw [if_neg (by omega)]
        exact ih hwf

/-- Every other byte reads as before. -/
theorem Memory.read_write_other (m : Memory) (hm : m.wf) (a b : Nat) (v : Byte) (h : b ≠ a) :
    (m.write a v).read b = m.read b := by
  induction m with
  | nil =>
    simp only [Memory.write]
    split
    · rfl
    · simp [Memory.read, Ne.symm h]
  | cons p m ih =>
    obtain ⟨c, w⟩ := p
    obtain ⟨hlt, -, hwf⟩ := (Memory.wf_cons _ _).1 hm
    simp only [Memory.write]
    split
    · split
      · rfl
      · simp [Memory.read, Ne.symm h]
    · split
      · subst_vars
        split
        · simp [Memory.read, Ne.symm h]
        · simp [Memory.read, Ne.symm h]
      · simp only [Memory.read]
        split
        · rfl
        · exact ih hwf

/-- A written memory lists no address but the old ones and the written one. -/
theorem Memory.mem_write (m : Memory) (a : Nat) (v : Byte) (q : Host.Cell) (h : q ∈ m.write a v) :
    q ∈ m ∨ (q = (a, v) ∧ v ≠ blankByte) := by
  induction m with
  | nil =>
    simp only [Memory.write] at h
    split at h <;> simp_all
  | cons p m ih =>
    obtain ⟨c, w⟩ := p
    simp only [Memory.write] at h
    split at h
    · split at h <;> simp_all
      tauto
    · split at h
      · split at h <;> simp_all
        tauto
      · simp only [List.mem_cons] at h ⊢
        rcases h with h | h
        · exact .inl (.inl h)
        · rcases ih h with h | h
          · exact .inl (.inr h)
          · exact .inr h

/-- A write keeps the canonical form. -/
theorem Memory.write_wf (m : Memory) (hm : m.wf) (a : Nat) (v : Byte) : (m.write a v).wf := by
  induction m with
  | nil =>
    simp only [Memory.write]
    split
    · exact Memory.wf_nil
    · exact (Memory.wf_cons _ _).2 ⟨by simp, ‹_›, Memory.wf_nil⟩
  | cons p m ih =>
    obtain ⟨c, w⟩ := p
    obtain ⟨hlt, hw, hwf⟩ := (Memory.wf_cons _ _).1 hm
    simp only [Memory.write]
    split
    · split
      · exact hm
      · refine (Memory.wf_cons _ _).2 ⟨?_, ‹_›, hm⟩
        simp only [List.mem_cons, forall_eq_or_imp]
        exact ⟨‹_›, fun q hq => by have := hlt q hq; simp at this; omega⟩
    · split
      · subst_vars
        split
        · exact hwf
        · exact (Memory.wf_cons _ _).2 ⟨hlt, ‹_›, hwf⟩
      · refine (Memory.wf_cons _ _).2 ⟨fun q hq => ?_, hw, ih hwf⟩
        rcases Memory.mem_write _ _ _ _ hq with h | ⟨rfl, -⟩
        · exact hlt q h
        · simp only; omega

/-- A write below the bound keeps the bound. -/
theorem Memory.write_below (m : Memory) (n a : Nat) (v : Byte) (hm : m.below n) (ha : a < n) : (m.write a v).below n := by
  intro q hq
  rcases Memory.mem_write _ _ _ _ hq with h | ⟨rfl, -⟩
  · exact hm q h
  · exact ha

/-- Two canonical memories that read alike are equal. -/
theorem Memory.ext_of_read (m k : Memory) (hm : m.wf) (hk : k.wf) (h : ∀ a, m.read a = k.read a) : m = k := by
  induction m generalizing k with
  | nil =>
    cases k with
    | nil => rfl
    | cons q k =>
      have hq := ((Memory.wf_cons _ _).1 hk).2.1
      have := h q.1
      simp [Memory.read] at this
      exact absurd this.symm hq
  | cons p m ih =>
    obtain ⟨hpm, hp, hmwf⟩ := (Memory.wf_cons _ _).1 hm
    cases k with
    | nil =>
      have := h p.1
      simp [Memory.read] at this
      exact absurd this hp
    | cons q k =>
      obtain ⟨hqk, hq, hkwf⟩ := (Memory.wf_cons _ _).1 hk
      obtain ⟨a, v⟩ := p
      obtain ⟨b, w⟩ := q
      have hab : a = b := by
        rcases Nat.lt_trichotomy a b with hlt | heq | hgt
        · have := h a
          rw [Memory.read_of_lt ((b, w) :: k) a (by
            simp only [List.mem_cons, forall_eq_or_imp]
            exact ⟨hlt, fun q hq => by have := hqk q hq; simp only at this; omega⟩)] at this
          simp [Memory.read] at this
          exact absurd this hp
        · exact heq
        · have := h b
          rw [Memory.read_of_lt ((a, v) :: m) b (by
            simp only [List.mem_cons, forall_eq_or_imp]
            exact ⟨hgt, fun q hq => by have := hpm q hq; simp only at this; omega⟩)] at this
          simp [Memory.read] at this
          exact absurd this.symm hq
      subst hab
      have hvw : v = w := by simpa [Memory.read] using h a
      subst hvw
      congr 1
      refine ih k hmwf hkwf fun c => ?_
      by_cases hc : c = a
      · subst hc
        rw [Memory.read_of_lt m _ hpm, Memory.read_of_lt k _ hqk]
      · have := h c
        simpa [Memory.read, Ne.symm hc] using this

/-! ## The host's writes into the Byte Store -/

/-- A Byte Store write keeps the canonical form and the bound. -/
theorem storeWrite_ok (size : Nat) (m : Memory) (a : Nat) (v : Byte) (hm : m.wf) (hb : m.below size) :
    (storeWrite size m a v).wf ∧ (storeWrite size m a v).below size := by
  simp only [storeWrite]
  split
  · exact ⟨Memory.write_wf m hm a v, Memory.write_below m size a v hb ‹_›⟩
  · exact ⟨hm, hb⟩

/-- A byte the store has reads back as written. -/
theorem storeWrite_read_same (size : Nat) (m : Memory) (hm : m.wf) (a : Nat) (v : Byte) (ha : a < size) :
    (storeWrite size m a v).read a = v := by
  rw [storeWrite, if_pos ha, Memory.read_write_same m hm]

/-- Every other byte of the store reads as before. -/
theorem storeWrite_read_other (size : Nat) (m : Memory) (hm : m.wf) (a b : Nat) (v : Byte) (h : b ≠ a) :
    (storeWrite size m a v).read b = m.read b := by
  rw [storeWrite]
  split
  · exact Memory.read_write_other m hm a b v h
  · rfl

/-- A list of Byte Store writes keeps the canonical form and the bound. -/
theorem storeWrites_ok (size : Nat) (m : Memory) (l : List Host.Cell) (hm : m.wf) (hb : m.below size) :
    (storeWrites size m l).wf ∧ (storeWrites size m l).below size := by
  induction l generalizing m with
  | nil => exact ⟨hm, hb⟩
  | cons p l ih =>
    obtain ⟨h1, h2⟩ := storeWrite_ok size m p.1 p.2 hm hb
    exact ih _ h1 h2

end Sys2Proof.Machine
end

