-- ==== Sys2Proof/Laws/State.lean ====
section
/-! SUPPORT. One lemma per field per update of State, true by rfl, so that no later proof unfolds a record
update; below them the registers and the flags through each update. -/

namespace Sys2Proof.Machine

variable (s : State)

/-! ## setReg -/

@[simp] theorem State.setReg_regs (i : Reg) (v : Byte) : (s.setReg i v).regs = s.regs.set i.val v := rfl
@[simp] theorem State.setReg_sreg (i : Reg) (v : Byte) : (s.setReg i v).sreg = s.sreg := rfl
@[simp] theorem State.setReg_sp (i : Reg) (v : Byte) : (s.setReg i v).sp = s.sp := rfl
@[simp] theorem State.setReg_pc (i : Reg) (v : Byte) : (s.setReg i v).pc = s.pc := rfl
@[simp] theorem State.setReg_programBase (i : Reg) (v : Byte) : (s.setReg i v).programBase = s.programBase := rfl
@[simp] theorem State.setReg_running (i : Reg) (v : Byte) : (s.setReg i v).running = s.running := rfl
@[simp] theorem State.setReg_ram (i : Reg) (v : Byte) : (s.setReg i v).ram = s.ram := rfl
@[simp] theorem State.setReg_cls (i : Reg) (v : Byte) : (s.setReg i v).cls = s.cls := rfl
@[simp] theorem State.setReg_params (i : Reg) (v : Byte) : (s.setReg i v).params = s.params := rfl
@[simp] theorem State.setReg_store (i : Reg) (v : Byte) : (s.setReg i v).store = s.store := rfl
@[simp] theorem State.setReg_host (i : Reg) (v : Byte) : (s.setReg i v).host = s.host := rfl

/-! ## setSreg -/

@[simp] theorem State.setSreg_regs (v : Byte) : (s.setSreg v).regs = s.regs := rfl
@[simp] theorem State.setSreg_sreg (v : Byte) : (s.setSreg v).sreg = v := rfl
@[simp] theorem State.setSreg_sp (v : Byte) : (s.setSreg v).sp = s.sp := rfl
@[simp] theorem State.setSreg_pc (v : Byte) : (s.setSreg v).pc = s.pc := rfl
@[simp] theorem State.setSreg_programBase (v : Byte) : (s.setSreg v).programBase = s.programBase := rfl
@[simp] theorem State.setSreg_running (v : Byte) : (s.setSreg v).running = s.running := rfl
@[simp] theorem State.setSreg_ram (v : Byte) : (s.setSreg v).ram = s.ram := rfl
@[simp] theorem State.setSreg_cls (v : Byte) : (s.setSreg v).cls = s.cls := rfl
@[simp] theorem State.setSreg_params (v : Byte) : (s.setSreg v).params = s.params := rfl
@[simp] theorem State.setSreg_store (v : Byte) : (s.setSreg v).store = s.store := rfl
@[simp] theorem State.setSreg_host (v : Byte) : (s.setSreg v).host = s.host := rfl

/-! ## setSp -/

@[simp] theorem State.setSp_regs (v : Word) : (s.setSp v).regs = s.regs := rfl
@[simp] theorem State.setSp_sreg (v : Word) : (s.setSp v).sreg = s.sreg := rfl
@[simp] theorem State.setSp_sp (v : Word) : (s.setSp v).sp = v := rfl
@[simp] theorem State.setSp_pc (v : Word) : (s.setSp v).pc = s.pc := rfl
@[simp] theorem State.setSp_programBase (v : Word) : (s.setSp v).programBase = s.programBase := rfl
@[simp] theorem State.setSp_running (v : Word) : (s.setSp v).running = s.running := rfl
@[simp] theorem State.setSp_ram (v : Word) : (s.setSp v).ram = s.ram := rfl
@[simp] theorem State.setSp_cls (v : Word) : (s.setSp v).cls = s.cls := rfl
@[simp] theorem State.setSp_params (v : Word) : (s.setSp v).params = s.params := rfl
@[simp] theorem State.setSp_store (v : Word) : (s.setSp v).store = s.store := rfl
@[simp] theorem State.setSp_host (v : Word) : (s.setSp v).host = s.host := rfl

/-! ## setPc -/

@[simp] theorem State.setPc_regs (v : Word) : (s.setPc v).regs = s.regs := rfl
@[simp] theorem State.setPc_sreg (v : Word) : (s.setPc v).sreg = s.sreg := rfl
@[simp] theorem State.setPc_sp (v : Word) : (s.setPc v).sp = s.sp := rfl
@[simp] theorem State.setPc_pc (v : Word) : (s.setPc v).pc = v := rfl
@[simp] theorem State.setPc_programBase (v : Word) : (s.setPc v).programBase = s.programBase := rfl
@[simp] theorem State.setPc_running (v : Word) : (s.setPc v).running = s.running := rfl
@[simp] theorem State.setPc_ram (v : Word) : (s.setPc v).ram = s.ram := rfl
@[simp] theorem State.setPc_cls (v : Word) : (s.setPc v).cls = s.cls := rfl
@[simp] theorem State.setPc_params (v : Word) : (s.setPc v).params = s.params := rfl
@[simp] theorem State.setPc_store (v : Word) : (s.setPc v).store = s.store := rfl
@[simp] theorem State.setPc_host (v : Word) : (s.setPc v).host = s.host := rfl

/-! ## setClass -/

@[simp] theorem State.setClass_regs (c : StepClass) : (s.setClass c).regs = s.regs := rfl
@[simp] theorem State.setClass_sreg (c : StepClass) : (s.setClass c).sreg = s.sreg := rfl
@[simp] theorem State.setClass_sp (c : StepClass) : (s.setClass c).sp = s.sp := rfl
@[simp] theorem State.setClass_pc (c : StepClass) : (s.setClass c).pc = s.pc := rfl
@[simp] theorem State.setClass_programBase (c : StepClass) : (s.setClass c).programBase = s.programBase := rfl
@[simp] theorem State.setClass_running (c : StepClass) : (s.setClass c).running = s.running := rfl
@[simp] theorem State.setClass_ram (c : StepClass) : (s.setClass c).ram = s.ram := rfl
@[simp] theorem State.setClass_cls (c : StepClass) : (s.setClass c).cls = some c := rfl
@[simp] theorem State.setClass_params (c : StepClass) : (s.setClass c).params = s.params := rfl
@[simp] theorem State.setClass_store (c : StepClass) : (s.setClass c).store = s.store := rfl
@[simp] theorem State.setClass_host (c : StepClass) : (s.setClass c).host = s.host := rfl

/-! ## setRam -/

@[simp] theorem State.setRam_regs (m : Memory) : (s.setRam m).regs = s.regs := rfl
@[simp] theorem State.setRam_sreg (m : Memory) : (s.setRam m).sreg = s.sreg := rfl
@[simp] theorem State.setRam_sp (m : Memory) : (s.setRam m).sp = s.sp := rfl
@[simp] theorem State.setRam_pc (m : Memory) : (s.setRam m).pc = s.pc := rfl
@[simp] theorem State.setRam_programBase (m : Memory) : (s.setRam m).programBase = s.programBase := rfl
@[simp] theorem State.setRam_running (m : Memory) : (s.setRam m).running = s.running := rfl
@[simp] theorem State.setRam_ram (m : Memory) : (s.setRam m).ram = m := rfl
@[simp] theorem State.setRam_cls (m : Memory) : (s.setRam m).cls = s.cls := rfl
@[simp] theorem State.setRam_params (m : Memory) : (s.setRam m).params = s.params := rfl
@[simp] theorem State.setRam_store (m : Memory) : (s.setRam m).store = s.store := rfl
@[simp] theorem State.setRam_host (m : Memory) : (s.setRam m).host = s.host := rfl

/-! ## setStore -/

@[simp] theorem State.setStore_regs (m : Memory) : (s.setStore m).regs = s.regs := rfl
@[simp] theorem State.setStore_sreg (m : Memory) : (s.setStore m).sreg = s.sreg := rfl
@[simp] theorem State.setStore_sp (m : Memory) : (s.setStore m).sp = s.sp := rfl
@[simp] theorem State.setStore_pc (m : Memory) : (s.setStore m).pc = s.pc := rfl
@[simp] theorem State.setStore_programBase (m : Memory) : (s.setStore m).programBase = s.programBase := rfl
@[simp] theorem State.setStore_running (m : Memory) : (s.setStore m).running = s.running := rfl
@[simp] theorem State.setStore_ram (m : Memory) : (s.setStore m).ram = s.ram := rfl
@[simp] theorem State.setStore_cls (m : Memory) : (s.setStore m).cls = s.cls := rfl
@[simp] theorem State.setStore_params (m : Memory) : (s.setStore m).params = s.params := rfl
@[simp] theorem State.setStore_store (m : Memory) : (s.setStore m).store = m := rfl
@[simp] theorem State.setStore_host (m : Memory) : (s.setStore m).host = s.host := rfl

/-! ## setHost -/

@[simp] theorem State.setHost_regs (h : HostState) : (s.setHost h).regs = s.regs := rfl
@[simp] theorem State.setHost_sreg (h : HostState) : (s.setHost h).sreg = s.sreg := rfl
@[simp] theorem State.setHost_sp (h : HostState) : (s.setHost h).sp = s.sp := rfl
@[simp] theorem State.setHost_pc (h : HostState) : (s.setHost h).pc = s.pc := rfl
@[simp] theorem State.setHost_programBase (h : HostState) : (s.setHost h).programBase = s.programBase := rfl
@[simp] theorem State.setHost_running (h : HostState) : (s.setHost h).running = s.running := rfl
@[simp] theorem State.setHost_ram (h : HostState) : (s.setHost h).ram = s.ram := rfl
@[simp] theorem State.setHost_cls (h : HostState) : (s.setHost h).cls = s.cls := rfl
@[simp] theorem State.setHost_params (h : HostState) : (s.setHost h).params = s.params := rfl
@[simp] theorem State.setHost_store (h : HostState) : (s.setHost h).store = s.store := rfl
@[simp] theorem State.setHost_host (h : HostState) : (s.setHost h).host = h := rfl

/-! ## stop -/

@[simp] theorem State.stop_regs : s.stop.regs = s.regs := rfl
@[simp] theorem State.stop_sreg : s.stop.sreg = s.sreg := rfl
@[simp] theorem State.stop_sp : s.stop.sp = s.sp := rfl
@[simp] theorem State.stop_pc : s.stop.pc = s.pc := rfl
@[simp] theorem State.stop_programBase : s.stop.programBase = s.programBase := rfl
@[simp] theorem State.stop_running : s.stop.running = false := rfl
@[simp] theorem State.stop_ram : s.stop.ram = s.ram := rfl
@[simp] theorem State.stop_cls : s.stop.cls = s.cls := rfl
@[simp] theorem State.stop_params : s.stop.params = s.params := rfl
@[simp] theorem State.stop_store : s.stop.store = s.store := rfl
@[simp] theorem State.stop_host : s.stop.host = s.host := rfl

/-! ## charOut -/

@[simp] theorem State.charOut_regs (v : Byte) : (s.charOut v).regs = s.regs := rfl
@[simp] theorem State.charOut_sreg (v : Byte) : (s.charOut v).sreg = s.sreg := rfl
@[simp] theorem State.charOut_sp (v : Byte) : (s.charOut v).sp = s.sp := rfl
@[simp] theorem State.charOut_pc (v : Byte) : (s.charOut v).pc = s.pc := rfl
@[simp] theorem State.charOut_programBase (v : Byte) : (s.charOut v).programBase = s.programBase := rfl
@[simp] theorem State.charOut_running (v : Byte) : (s.charOut v).running = s.running := rfl
@[simp] theorem State.charOut_ram (v : Byte) : (s.charOut v).ram = s.ram := rfl
@[simp] theorem State.charOut_cls (v : Byte) : (s.charOut v).cls = s.cls := rfl
@[simp] theorem State.charOut_params (v : Byte) : (s.charOut v).params = s.params := rfl
@[simp] theorem State.charOut_store (v : Byte) : (s.charOut v).store = s.store := rfl
@[simp] theorem State.charOut_host (v : Byte) : (s.charOut v).host = s.host.emit [v] := rfl

/-! ## Registers and flags through the updates -/

@[simp] theorem State.setReg_flag (i : Reg) (v : Byte) (f : Flag) : (s.setReg i v).flag f = s.flag f := rfl
@[simp] theorem State.setSreg_reg (v : Byte) (j : Reg) : (s.setSreg v).reg j = s.reg j := rfl
@[simp] theorem State.setSreg_pair (v : Byte) (p : RegPair) : (s.setSreg v).pair p = s.pair p := rfl
@[simp] theorem State.setSp_reg (v : Word) (j : Reg) : (s.setSp v).reg j = s.reg j := rfl
@[simp] theorem State.setSp_pair (v : Word) (p : RegPair) : (s.setSp v).pair p = s.pair p := rfl
@[simp] theorem State.setSp_flag (v : Word) (f : Flag) : (s.setSp v).flag f = s.flag f := rfl
@[simp] theorem State.setPc_reg (v : Word) (j : Reg) : (s.setPc v).reg j = s.reg j := rfl
@[simp] theorem State.setPc_pair (v : Word) (p : RegPair) : (s.setPc v).pair p = s.pair p := rfl
@[simp] theorem State.setPc_flag (v : Word) (f : Flag) : (s.setPc v).flag f = s.flag f := rfl
@[simp] theorem State.setClass_reg (c : StepClass) (j : Reg) : (s.setClass c).reg j = s.reg j := rfl
@[simp] theorem State.setClass_pair (c : StepClass) (p : RegPair) : (s.setClass c).pair p = s.pair p := rfl
@[simp] theorem State.setClass_flag (c : StepClass) (f : Flag) : (s.setClass c).flag f = s.flag f := rfl
@[simp] theorem State.setRam_reg (m : Memory) (j : Reg) : (s.setRam m).reg j = s.reg j := rfl
@[simp] theorem State.setRam_pair (m : Memory) (p : RegPair) : (s.setRam m).pair p = s.pair p := rfl
@[simp] theorem State.setRam_flag (m : Memory) (f : Flag) : (s.setRam m).flag f = s.flag f := rfl
@[simp] theorem State.setStore_reg (m : Memory) (j : Reg) : (s.setStore m).reg j = s.reg j := rfl
@[simp] theorem State.setStore_pair (m : Memory) (p : RegPair) : (s.setStore m).pair p = s.pair p := rfl
@[simp] theorem State.setStore_flag (m : Memory) (f : Flag) : (s.setStore m).flag f = s.flag f := rfl
@[simp] theorem State.setHost_reg (h : HostState) (j : Reg) : (s.setHost h).reg j = s.reg j := rfl
@[simp] theorem State.setHost_pair (h : HostState) (p : RegPair) : (s.setHost h).pair p = s.pair p := rfl
@[simp] theorem State.setHost_flag (h : HostState) (f : Flag) : (s.setHost h).flag f = s.flag f := rfl
@[simp] theorem State.stop_reg (j : Reg) : s.stop.reg j = s.reg j := rfl
@[simp] theorem State.stop_pair (p : RegPair) : s.stop.pair p = s.pair p := rfl
@[simp] theorem State.stop_flag (f : Flag) : s.stop.flag f = s.flag f := rfl
@[simp] theorem State.charOut_reg (v : Byte) (j : Reg) : (s.charOut v).reg j = s.reg j := rfl
@[simp] theorem State.charOut_pair (v : Byte) (p : RegPair) : (s.charOut v).pair p = s.pair p := rfl
@[simp] theorem State.charOut_flag (v : Byte) (f : Flag) : (s.charOut v).flag f = s.flag f := rfl

/-- The register file after one register is written. -/
@[simp] theorem State.setReg_reg (i j : Reg) (v : Byte) : (s.setReg i v).reg j = if j = i then v else s.reg j := by
  simp only [State.reg, State.setReg, Vector.getElem_set, Fin.ext_iff]
  by_cases h : i.val = j.val
  · simp [h]
  · rw [if_neg h, if_neg (fun e => h e.symm)]

@[simp] theorem State.setSreg_flag (v : Byte) (f : Flag) : (s.setSreg v).flag f = getFlag f v := rfl

/-- Two states with the same register file agree on every register. -/
theorem State.reg_congr (t : State) (h : t.regs = s.regs) (j : Reg) : t.reg j = s.reg j := by simp [State.reg, h]

/-- Register files that agree on every register are equal. -/
theorem State.regs_ext (t : State) (h : ∀ j, t.reg j = s.reg j) : t.regs = s.regs := by
  apply Vector.ext
  intro i hi
  exact h ⟨i, hi⟩

/-- Writing a register with what it holds changes nothing. -/
theorem State.setReg_same (i : Reg) : s.setReg i (s.reg i) = s := by
  have : (s.setReg i (s.reg i)).regs = s.regs := by
    apply State.regs_ext
    intro j
    simp only [State.setReg_reg]
    split <;> simp_all
  cases s
  simpa [State.setReg] using this

/-! ## Register pairs -/

@[simp] theorem State.setPair_sreg (p : RegPair) (v : Word) : (s.setPair p v).sreg = s.sreg := rfl
@[simp] theorem State.setPair_sp (p : RegPair) (v : Word) : (s.setPair p v).sp = s.sp := rfl
@[simp] theorem State.setPair_pc (p : RegPair) (v : Word) : (s.setPair p v).pc = s.pc := rfl
@[simp] theorem State.setPair_programBase (p : RegPair) (v : Word) : (s.setPair p v).programBase = s.programBase := rfl
@[simp] theorem State.setPair_running (p : RegPair) (v : Word) : (s.setPair p v).running = s.running := rfl
@[simp] theorem State.setPair_ram (p : RegPair) (v : Word) : (s.setPair p v).ram = s.ram := rfl
@[simp] theorem State.setPair_cls (p : RegPair) (v : Word) : (s.setPair p v).cls = s.cls := rfl
@[simp] theorem State.setPair_params (p : RegPair) (v : Word) : (s.setPair p v).params = s.params := rfl
@[simp] theorem State.setPair_store (p : RegPair) (v : Word) : (s.setPair p v).store = s.store := rfl
@[simp] theorem State.setPair_host (p : RegPair) (v : Word) : (s.setPair p v).host = s.host := rfl
@[simp] theorem State.setPair_flag (p : RegPair) (v : Word) (f : Flag) : (s.setPair p v).flag f = s.flag f := rfl

theorem RegPair.hi_ne_lo (p q : RegPair) : p.hi ≠ q.lo := by cases p <;> cases q <;> decide

/-- The register file after a pair is written (10_state.md R23). -/
@[simp] theorem State.setPair_reg (p : RegPair) (v : Word) (j : Reg) :
    (s.setPair p v).reg j = if j = p.hi then v.hi else if j = p.lo then v.lo else s.reg j := by
  simp [State.setPair]

/-- The bits of a joined word. -/
theorem joinBytes_getLsbD (hi lo : Byte) (i : Nat) :
    (joinBytes hi lo).getLsbD i = if i < 8 then lo.getLsbD i else hi.getLsbD (i - 8) :=
  BitVec.getLsbD_append

/-- The low byte of a joined word. -/
@[simp] theorem joinBytes_lo (hi lo : Byte) : (joinBytes hi lo).lo = lo := by
  apply BitVec.eq_of_getLsbD_eq
  intro i h
  rw [Word.lo, BitVec.getLsbD_extractLsb', joinBytes_getLsbD]
  simp [h]

/-- The high byte of a joined word. -/
@[simp] theorem joinBytes_hi (hi lo : Byte) : (joinBytes hi lo).hi = hi := by
  apply BitVec.eq_of_getLsbD_eq
  intro i h
  rw [Word.hi, BitVec.getLsbD_extractLsb', joinBytes_getLsbD]
  simp [h]

/-- A word is the join of its bytes. -/
@[simp] theorem joinBytes_hi_lo (v : Word) : joinBytes v.hi v.lo = v := by
  apply BitVec.eq_of_getLsbD_eq
  intro i h
  rw [joinBytes_getLsbD, Word.hi, Word.lo, BitVec.getLsbD_extractLsb', BitVec.getLsbD_extractLsb']
  by_cases h8 : i < 8
  · simp [h8]
  · simp [h8, show i - 8 < 8 by omega, show 8 + (i - 8) = i by omega]

/-- A joined word as a number. -/
theorem joinBytes_toNat (hi lo : Byte) : (joinBytes hi lo).toNat = hi.toNat * 256 + lo.toNat := by
  have h : (joinBytes hi lo).toNat = hi.toNat <<< 8 ||| lo.toNat := BitVec.toNat_append hi lo
  rw [h, Nat.shiftLeft_eq, Nat.mul_comm, ← Nat.two_pow_add_eq_or_of_lt lo.isLt hi.toNat]

/-- A pair read after it is written. -/
@[simp] theorem State.setPair_pair_same (p : RegPair) (v : Word) : (s.setPair p v).pair p = v := by
  have h : p.lo ≠ p.hi := fun e => RegPair.hi_ne_lo p p e.symm
  simp [State.pair, h]

end Sys2Proof.Machine
end

