-- ==== Sys2Proof/Laws/Data.lean ====
section
/-! SUPPORT. What the operations over the data space, the stack and the pc can do: for each shared operation one
lemma that says it once. -/

namespace Sys2Proof.Machine

/-! ## The data-space map -/

/-- The map of 20_memory.md R54 and R55, one case per kind of cell, by the first line that matches. -/
theorem dataCell_cases (s : State) (a : Word) :
    (∃ h : a.toNat < 32, dataCell s a = .reg ⟨a.toNat, h⟩) ∨
    (32 ≤ a.toNat ∧
      ((a = s.params.splAddr ∧ dataCell s a = .spl) ∨
      (a ≠ s.params.splAddr ∧
        ((a = s.params.sphAddr ∧ dataCell s a = .sph) ∨
        (a ≠ s.params.sphAddr ∧
          ((a = s.params.sregAddr ∧ dataCell s a = .sreg) ∨
          (a ≠ s.params.sregAddr ∧
            ((∃ i, i < 128 ∧ a.toNat = s.params.ramBase.toNat + i ∧ dataCell s a = .ram i) ∨
            ((a.toNat < s.params.ramBase.toNat ∨ s.params.ramBase.toNat + 128 ≤ a.toNat) ∧
              ((a = s.params.charOutAddr ∧ dataCell s a = .charOut) ∨
              (a ≠ s.params.charOutAddr ∧ dataCell s a = .unmapped))))))))))) := by
  unfold dataCell
  by_cases h1 : a.toNat < Config.regLimit
  · exact .inl ⟨h1, dif_pos h1⟩
  rw [dif_neg h1]
  refine .inr ⟨Nat.le_of_not_lt h1, ?_⟩
  by_cases h2 : a = s.params.splAddr
  · exact .inl ⟨h2, if_pos h2⟩
  rw [if_neg h2]
  refine .inr ⟨h2, ?_⟩
  by_cases h3 : a = s.params.sphAddr
  · exact .inl ⟨h3, if_pos h3⟩
  rw [if_neg h3]
  refine .inr ⟨h3, ?_⟩
  by_cases h4 : a = s.params.sregAddr
  · exact .inl ⟨h4, if_pos h4⟩
  rw [if_neg h4]
  refine .inr ⟨h4, ?_⟩
  by_cases h5 : s.params.ramBase.toNat ≤ a.toNat ∧ a.toNat < s.params.ramBase.toNat + Config.ramSize
  · rw [if_pos h5]
    simp only [Config.ramSize] at h5
    exact .inl ⟨a.toNat - s.params.ramBase.toNat, by omega, by omega, rfl⟩
  rw [if_neg h5]
  simp only [Config.ramSize] at h5
  refine .inr ⟨by omega, ?_⟩
  by_cases h6 : a = s.params.charOutAddr
  · exact .inl ⟨h6, if_pos h6⟩
  · exact .inr ⟨h6, if_neg h6⟩

/-- The map depends on nothing but the parameters. -/
theorem dataCell_congr (s t : State) (h : t.params = s.params) (a : Word) : dataCell t a = dataCell s a := by
  simp only [dataCell, h]

/-- A RAM cell lies inside the array. -/
theorem dataCell_ram_lt (s : State) (a : Word) (i : Nat) (h : dataCell s a = .ram i) :
    i < Config.ramSize ∧ a.toNat = s.params.ramBase.toNat + i := by
  rcases dataCell_cases s a with ⟨_, e⟩ | ⟨_, ⟨_, e⟩ | ⟨_, ⟨_, e⟩ | ⟨_, ⟨_, e⟩ | ⟨_, ⟨_, h1, h2, e⟩ | ⟨_, ⟨_, e⟩ | ⟨_, e⟩⟩⟩⟩⟩⟩ <;>
    rw [e] at h <;> cases h
  exact ⟨h1, h2⟩

/-- What a data-space write can do: one register, SP, SREG, one RAM byte, one character, or nothing. -/
theorem memWrite_cases (s : State) (a : Word) (v : Byte) :
    (∃ i, memWrite s a v = s.setReg i v) ∨
    (∃ w, memWrite s a v = s.setSp w) ∨
    (atSreg s.params a ∧ memWrite s a v = s.setSreg v) ∨
    (∃ i, i < Config.ramSize ∧ memWrite s a v = s.setRam (Memory.write s.ram i v)) ∨
    memWrite s a v = s.charOut v ∨
    memWrite s a v = s := by
  unfold memWrite
  rcases dataCell_cases s a with
    ⟨_, e⟩ | ⟨h0, ⟨_, e⟩ | ⟨h1, ⟨_, e⟩ | ⟨h2, ⟨h3, e⟩ | ⟨_, ⟨i, hi, _, e⟩ | ⟨_, ⟨_, e⟩ | ⟨_, e⟩⟩⟩⟩⟩⟩ <;> rw [e]
  · exact .inl ⟨_, rfl⟩
  · exact .inr (.inl ⟨_, rfl⟩)
  · exact .inr (.inl ⟨_, rfl⟩)
  · exact .inr (.inr (.inl ⟨⟨h0, h1, h2, h3⟩, rfl⟩))
  · exact .inr (.inr (.inr (.inl ⟨i, hi, rfl⟩)))
  · exact .inr (.inr (.inr (.inr (.inl rfl))))
  · exact .inr (.inr (.inr (.inr (.inr rfl))))

/-! ## The fields no data-space write reaches -/

section
variable (s : State) (a : Word) (v : Byte)

@[simp] theorem memWrite_pc : (memWrite s a v).pc = s.pc := by
  rcases memWrite_cases s a v with ⟨_, h⟩ | ⟨_, h⟩ | ⟨_, h⟩ | ⟨_, _, h⟩ | h | h <;> simp [h]

@[simp] theorem memWrite_programBase : (memWrite s a v).programBase = s.programBase := by
  rcases memWrite_cases s a v with ⟨_, h⟩ | ⟨_, h⟩ | ⟨_, h⟩ | ⟨_, _, h⟩ | h | h <;> simp [h]

@[simp] theorem memWrite_running : (memWrite s a v).running = s.running := by
  rcases memWrite_cases s a v with ⟨_, h⟩ | ⟨_, h⟩ | ⟨_, h⟩ | ⟨_, _, h⟩ | h | h <;> simp [h]

@[simp] theorem memWrite_cls : (memWrite s a v).cls = s.cls := by
  rcases memWrite_cases s a v with ⟨_, h⟩ | ⟨_, h⟩ | ⟨_, h⟩ | ⟨_, _, h⟩ | h | h <;> simp [h]

@[simp] theorem memWrite_params : (memWrite s a v).params = s.params := by
  rcases memWrite_cases s a v with ⟨_, h⟩ | ⟨_, h⟩ | ⟨_, h⟩ | ⟨_, _, h⟩ | h | h <;> simp [h]

@[simp] theorem memWrite_store : (memWrite s a v).store = s.store := by
  rcases memWrite_cases s a v with ⟨_, h⟩ | ⟨_, h⟩ | ⟨_, h⟩ | ⟨_, _, h⟩ | h | h <;> simp [h]

/-- SREG changes only by a write at SREG_ADDR (10_state.md R28, R32). -/
theorem memWrite_sreg : (memWrite s a v).sreg = if atSreg s.params a then v else s.sreg := by
  unfold memWrite
  rcases dataCell_cases s a with
    ⟨h, e⟩ | ⟨h0, ⟨h1, e⟩ | ⟨h1, ⟨h2, e⟩ | ⟨h2, ⟨h3, e⟩ | ⟨h3, ⟨_, _, _, e⟩ | ⟨_, ⟨_, e⟩ | ⟨_, e⟩⟩⟩⟩⟩⟩ <;> rw [e]
  · rw [if_neg (fun k => absurd h (Nat.not_lt.2 k.1))]; rfl
  · rw [if_neg (fun k => k.2.1 h1)]; rfl
  · rw [if_neg (fun k => k.2.2.1 h2)]; rfl
  · rw [if_pos ⟨h0, h1, h2, h3⟩]; rfl
  · rw [if_neg (fun k => h3 k.2.2.2)]; rfl
  · rw [if_neg (fun k => h3 k.2.2.2)]; rfl
  · rw [if_neg (fun k => h3 k.2.2.2)]

/-- The host changes only by the character output, which appends one byte (20_memory.md R56). -/
theorem memWrite_host : (memWrite s a v).host = s.host ∨ (memWrite s a v).host = s.host.emit [v] := by
  rcases memWrite_cases s a v with ⟨_, h⟩ | ⟨_, h⟩ | ⟨_, h⟩ | ⟨_, _, h⟩ | h | h <;> simp [h]

/-- RAM stays in canonical form and within the array. -/
theorem memWrite_ram_ok (hw : s.ram.wf) (hb : s.ram.below Config.ramSize) :
    (memWrite s a v).ram.wf ∧ (memWrite s a v).ram.below Config.ramSize := by
  rcases memWrite_cases s a v with ⟨_, h⟩ | ⟨_, h⟩ | ⟨_, h⟩ | ⟨i, hi, h⟩ | h | h <;> rw [h]
  · exact ⟨hw, hb⟩
  · exact ⟨hw, hb⟩
  · exact ⟨hw, hb⟩
  · exact ⟨Memory.write_wf _ hw _ _, Memory.write_below _ _ _ _ hb hi⟩
  · exact ⟨hw, hb⟩
  · exact ⟨hw, hb⟩

end

/-! ## What a state keeps -/

/-- The fields that instructions other than HALT and the calls and returns never write: program
base, `running`, class, parameters, Byte Store; RAM in its canonical form; a serial stream that
only grows. -/
structure Keeps (s t : State) : Prop where
  programBase : t.programBase = s.programBase
  running : t.running = s.running
  cls : t.cls = s.cls
  params : t.params = s.params
  store : t.store = s.store
  ram : s.ram.wf ∧ s.ram.below Config.ramSize → t.ram.wf ∧ t.ram.below Config.ramSize
  host : ∃ bytes, t.host = s.host.emit bytes

theorem HostState.emit_nil (h : HostState) : h.emit [] = h := by simp [HostState.emit]

theorem HostState.emit_emit (h : HostState) (a b : List Byte) : (h.emit a).emit b = h.emit (a ++ b) := by
  simp [HostState.emit]

theorem Keeps.refl (s : State) : Keeps s s := ⟨rfl, rfl, rfl, rfl, rfl, id, [], (HostState.emit_nil _).symm⟩

theorem Keeps.trans {s t u : State} (h : Keeps s t) (k : Keeps t u) : Keeps s u where
  programBase := k.programBase.trans h.programBase
  running := k.running.trans h.running
  cls := k.cls.trans h.cls
  params := k.params.trans h.params
  store := k.store.trans h.store
  ram := fun x => k.ram (h.ram x)
  host := by
    obtain ⟨a, ha⟩ := h.host
    obtain ⟨b, hb⟩ := k.host
    exact ⟨a ++ b, by rw [hb, ha, HostState.emit_emit]⟩

/-- A state that differs in registers, SREG, SP and pc alone. -/
theorem Keeps.of_eq {s t : State} (h1 : t.programBase = s.programBase) (h2 : t.running = s.running) (h3 : t.cls = s.cls)
    (h4 : t.params = s.params) (h5 : t.store = s.store) (h6 : t.ram = s.ram) (h7 : t.host = s.host) : Keeps s t :=
  ⟨h1, h2, h3, h4, h5, fun x => h6 ▸ x, [], by rw [h7, HostState.emit_nil]⟩

theorem setReg_keeps (s : State) (i : Reg) (v : Byte) : Keeps s (s.setReg i v) := .of_eq rfl rfl rfl rfl rfl rfl rfl

theorem setPair_keeps (s : State) (p : RegPair) (v : Word) : Keeps s (s.setPair p v) :=
  .of_eq rfl rfl rfl rfl rfl rfl rfl

theorem setSreg_keeps (s : State) (v : Byte) : Keeps s (s.setSreg v) := .of_eq rfl rfl rfl rfl rfl rfl rfl

theorem setSp_keeps (s : State) (v : Word) : Keeps s (s.setSp v) := .of_eq rfl rfl rfl rfl rfl rfl rfl

theorem setPc_keeps (s : State) (v : Word) : Keeps s (s.setPc v) := .of_eq rfl rfl rfl rfl rfl rfl rfl

theorem memWrite_keeps (s : State) (a : Word) (v : Byte) : Keeps s (memWrite s a v) where
  programBase := by simp
  running := by simp
  cls := by simp
  params := by simp
  store := by simp
  ram := fun h => memWrite_ram_ok s a v h.1 h.2
  host := by
    rcases memWrite_host s a v with h | h
    · exact ⟨[], by rw [h, HostState.emit_nil]⟩
    · exact ⟨[v], h⟩

theorem writeBytes_keeps (s : State) (a : Word) (l : List Byte) : Keeps s (writeBytes s a l) := by
  induction l generalizing s a with
  | nil => exact .refl s
  | cons v l ih => exact (memWrite_keeps s a v).trans (ih _ _)

@[simp] theorem writeBytes_pc (s : State) (a : Word) (l : List Byte) : (writeBytes s a l).pc = s.pc := by
  induction l generalizing s a with
  | nil => rfl
  | cons v l ih => simp [writeBytes, ih]

/-! ## The stack -/

theorem push8_keeps (s : State) (v : Byte) : Keeps s (push8 s v) := (memWrite_keeps s s.sp v).trans (setSp_keeps _ _)

@[simp] theorem push8_pc (s : State) (v : Byte) : (push8 s v).pc = s.pc := by simp [push8]

theorem push16_keeps (s : State) (v : Word) : Keeps s (push16 s v) := (push8_keeps _ _).trans (push8_keeps _ _)

@[simp] theorem push16_pc (s : State) (v : Word) : (push16 s v).pc = s.pc := by simp [push16]

theorem pop8State_keeps (s : State) : Keeps s (pop8State s) := setSp_keeps _ _

@[simp] theorem pop8State_sp (s : State) : (pop8State s).sp = s.sp + 1 := rfl

@[simp] theorem pop8State_reg (s : State) (i : Reg) : (pop8State s).reg i = s.reg i := rfl

@[simp] theorem pop8State_sreg (s : State) : (pop8State s).sreg = s.sreg := rfl

@[simp] theorem pop16State_sp (s : State) : (pop16State s).sp = s.sp + 1 + 1 := rfl

@[simp] theorem pop16State_reg (s : State) (i : Reg) : (pop16State s).reg i = s.reg i := rfl

@[simp] theorem pop16State_sreg (s : State) : (pop16State s).sreg = s.sreg := rfl

theorem pop16State_keeps (s : State) : Keeps s (pop16State s) := (setSp_keeps _ _).trans (setSp_keeps _ _)

/-! ## Calls and returns -/

/-- A call: the stack written by `Push16`, the pc at the target, class Call (43_control_flow.md R163). -/
theorem callTo_spec (target : Word) (s : State) :
    callTo target s = { push16 s s.pc with pc := target, cls := some .call } := rfl

/-- A return: SP up by two, the pc popped, class Return; nothing else (43_control_flow.md R166). -/
theorem returnFrom_spec (s : State) :
    returnFrom s = { s with sp := s.sp + 1 + 1, pc := pop16 s, cls := some .ret } := rfl

/-- RETI: a return that also sets I (43_control_flow.md R167). -/
theorem returnFromInterrupt_spec (s : State) :
    returnFromInterrupt s =
      { s with sp := s.sp + 1 + 1, pc := pop16 s, cls := some .ret, sreg := putBit s.sreg 7 true } := rfl

/-- Taking the exception: `running` and the class change, nothing else (60_exceptions.md R301). -/
theorem raiseUnknown_spec (s : State) : s.raiseUnknown = { s with running := false, cls := some .unknown } := rfl

/-- A skip moves the pc or nothing (43_control_flow.md R180). -/
theorem skipIf_spec (c : Bool) (s : State) : skipIf c s = s.setPc (if c then s.pc + 2 else s.pc) := by
  cases c <;> rfl

/-- A branch moves the pc or nothing (43_control_flow.md R178). -/
theorem branchIf_spec (c : Bool) (k : BitVec 7) (s : State) :
    branchIf c k s = s.setPc (if c then relTarget s.pc k.toInt else s.pc) := by
  cases c <;> rfl

/-! ## Program memory -/

/-- A program-memory read: the byte, or the fault that names the address beyond the Byte Store. -/
theorem progRead_cases (s : State) (off : Word) :
    (s.programBase + off.toNat < s.params.storeSize ∧
      progRead s off = .ok (Memory.read s.store (s.programBase + off.toNat))) ∨
    (s.params.storeSize ≤ s.programBase + off.toNat ∧
      progRead s off = .error (.storeRange (s.programBase + off.toNat))) := by
  simp only [progRead]
  split
  · exact .inl ⟨‹_›, rfl⟩
  · exact .inr ⟨by omega, rfl⟩

/-- A fetch: the little-endian word, or the fault of one of its two bytes (40_step_cycle.md R101). -/
theorem fetchWord_cases (s : State) :
    (s.programBase + s.pc.toNat < s.params.storeSize ∧ s.programBase + (s.pc + 1).toNat < s.params.storeSize ∧
      fetchWord s = .ok (joinBytes (Memory.read s.store (s.programBase + (s.pc + 1).toNat))
        (Memory.read s.store (s.programBase + s.pc.toNat)))) ∨
    (∃ off : Word, s.params.storeSize ≤ s.programBase + off.toNat ∧
      fetchWord s = .error (.storeRange (s.programBase + off.toNat))) := by
  simp only [fetchWord]
  rcases progRead_cases s s.pc with ⟨h, e⟩ | ⟨h, e⟩
  · rcases progRead_cases s (s.pc + 1) with ⟨h', e'⟩ | ⟨h', e'⟩
    · exact .inl ⟨h, h', by rw [e, e']⟩
    · exact .inr ⟨_, h', by rw [e, e']⟩
  · exact .inr ⟨_, h, by rw [e]⟩

end Sys2Proof.Machine
end

