-- ==== Sys2Proof/Laws/Encoding.lean ====
section
/-! SUPPORT. Each field's bits inside a word: placed and read back, zero where another field of its format stands, and
zero under the mask of its format. A fact about an encoding is then a disjunction of words taken
apart by these lemmas. -/

namespace Sys2Proof

/-! ## Every field of 30_encoding.md R81 -/

@[simp] theorem placeD_facts (d : Reg) :
    placeD d &&& 0xFC00#16 = 0#16 ∧
    (placeD d).extractLsb' 4 5 = BitVec.ofFin d ∧
    (placeD d).extractLsb' 9 1 = 0#1 ∧
    (placeD d).extractLsb' 0 4 = 0#4 ∧
    placeD d &&& 0xFE0F#16 = 0#16 ∧
    placeD d &&& 0xF800#16 = 0#16 ∧
    (placeD d).extractLsb' 9 2 = 0#2 ∧
    placeD d &&& 0xFE08#16 = 0#16 ∧
    (placeD d).extractLsb' 0 3 = 0#3 := by
  revert d; decide +kernel

@[simp] theorem placeR_facts (r : Reg) :
    placeR r &&& 0xFC00#16 = 0#16 ∧
    (placeR r).extractLsb' 4 5 = 0#5 ∧
    (placeR r).extractLsb' 9 1 = BitVec.ofNat 1 (r.val / 16) ∧
    (placeR r).extractLsb' 0 4 = BitVec.ofNat 4 (r.val % 16) := by
  revert r; decide +kernel

@[simp] theorem placeHigh_facts (d : Reg) :
    placeHigh d &&& 0xF000#16 = 0#16 ∧
    (placeHigh d).extractLsb' 4 4 = BitVec.ofNat 4 (d.val % 16) ∧
    (placeHigh d).extractLsb' 8 4 = 0#4 ∧
    (placeHigh d).extractLsb' 0 4 = 0#4 := by
  revert d; decide +kernel

@[simp] theorem placeK8_facts (k : Byte) :
    placeK8 k &&& 0xF000#16 = 0#16 ∧
    (placeK8 k).extractLsb' 4 4 = 0#4 ∧
    (placeK8 k).extractLsb' 8 4 = BitVec.ofNat 4 (k.toNat / 16) ∧
    (placeK8 k).extractLsb' 0 4 = BitVec.ofNat 4 (k.toNat % 16) := by
  revert k; decide +kernel

@[simp] theorem placeS_facts (s : BitNum) :
    placeS s &&& 0xFF8F#16 = 0#16 ∧
    (placeS s).extractLsb' 4 3 = BitVec.ofFin s := by
  revert s; decide +kernel

@[simp] theorem placeP_facts (p : PairNum) :
    placeP p &&& 0xFF00#16 = 0#16 ∧
    (placeP p).extractLsb' 4 2 = BitVec.ofFin p ∧
    (placeP p).extractLsb' 6 2 = 0#2 ∧
    (placeP p).extractLsb' 0 4 = 0#4 := by
  revert p; decide +kernel

@[simp] theorem placeK6_facts (k : BitVec 6) :
    placeK6 k &&& 0xFF00#16 = 0#16 ∧
    (placeK6 k).extractLsb' 4 2 = 0#2 ∧
    (placeK6 k).extractLsb' 6 2 = BitVec.ofNat 2 (k.toNat / 16) ∧
    (placeK6 k).extractLsb' 0 4 = BitVec.ofNat 4 (k.toNat % 16) := by
  revert k; decide +kernel

@[simp] theorem placeA5_facts (a : IoLow) :
    placeA5 a &&& 0xFF00#16 = 0#16 ∧
    (placeA5 a).extractLsb' 3 5 = BitVec.ofFin a ∧
    (placeA5 a).extractLsb' 0 3 = 0#3 := by
  revert a; decide +kernel

@[simp] theorem placeB_facts (b : BitNum) :
    placeB b &&& 0xFF00#16 = 0#16 ∧
    (placeB b).extractLsb' 3 5 = 0#5 ∧
    (placeB b).extractLsb' 0 3 = BitVec.ofFin b ∧
    placeB b &&& 0xFC00#16 = 0#16 ∧
    (placeB b).extractLsb' 3 7 = 0#7 ∧
    placeB b &&& 0xFE08#16 = 0#16 ∧
    (placeB b).extractLsb' 4 5 = 0#5 := by
  revert b; decide +kernel

@[simp] theorem placeA6_facts (a : IoNum) :
    placeA6 a &&& 0xF800#16 = 0#16 ∧
    (placeA6 a).extractLsb' 4 5 = 0#5 ∧
    (placeA6 a).extractLsb' 9 2 = BitVec.ofNat 2 (a.val / 16) ∧
    (placeA6 a).extractLsb' 0 4 = BitVec.ofNat 4 (a.val % 16) := by
  revert a; decide +kernel

@[simp] theorem placeK12_facts (k : BitVec 12) :
    placeK12 k &&& 0xF000#16 = 0#16 ∧
    (placeK12 k).extractLsb' 0 12 = k := by
  revert k; decide +kernel

@[simp] theorem placeK7_facts (k : BitVec 7) :
    placeK7 k &&& 0xFC00#16 = 0#16 ∧
    (placeK7 k).extractLsb' 0 3 = 0#3 ∧
    (placeK7 k).extractLsb' 3 7 = k := by
  revert k; decide +kernel

/-! ## Fields put together again -/

@[simp] theorem joinR (r : Reg) : (BitVec.ofNat 1 (r.val / 16) ++ BitVec.ofNat 4 (r.val % 16)).toFin = r := by revert r; decide +kernel

@[simp] theorem joinA6 (a : IoNum) : (BitVec.ofNat 2 (a.val / 16) ++ BitVec.ofNat 4 (a.val % 16)).toFin = a := by
  revert a; decide +kernel

@[simp] theorem joinK8 (k : Byte) : BitVec.ofNat 4 (k.toNat / 16) ++ BitVec.ofNat 4 (k.toNat % 16) = k := by revert k; decide +kernel

@[simp] theorem joinK6 (k : BitVec 6) : BitVec.ofNat 2 (k.toNat / 16) ++ BitVec.ofNat 4 (k.toNat % 16) = k := by
  revert k; decide +kernel

/-- A register 16..31 from its low four bits. -/
theorem high_of_low (d : Reg) (h : isHighReg d = true) (hlt : 16 + d.val % 16 < 32) : (⟨16 + d.val % 16, hlt⟩ : Reg) = d := by
  apply Fin.ext
  have h' : 16 ≤ d.val := by simpa [isHighReg] using h
  simp only
  omega

end Sys2Proof
end

