-- ==== Sys2Proof/Laws/Flags.lean ====
section
/-! SUPPORT. What each flag reads after each flag computation, so that no proof unfolds a status byte again. -/

namespace Sys2Proof.Machine

/-! ## Single bits -/

/-- A bit after one bit is replaced. -/
@[simp] theorem testBit_putBit (v : Byte) (b c : BitNum) (x : Bool) :
    testBit (putBit v b x) c = if c = b then x else testBit v c := by
  have hc := c.isLt
  have hb := b.isLt
  by_cases h : c = b
  · subst h
    cases x <;> simp [testBit, putBit, bitMask, hc]
  · have hne : c.val ≠ b.val := fun e => h (Fin.ext e)
    cases x <;> simp [testBit, putBit, bitMask, hc, h] <;> omega

/-- Bytes with equal bits are equal. -/
theorem Byte.ext_testBit (v w : Byte) (h : ∀ b, testBit v b = testBit w b) : v = w := by
  apply BitVec.eq_of_getLsbD_eq
  intro i hi
  exact h ⟨i, hi⟩

theorem Flag.bit_injective (f g : Flag) : f.bit = g.bit ↔ f = g := by
  cases f <;> cases g <;> decide

/-- A flag after one flag is replaced. -/
@[simp] theorem getFlag_putFlag (f g : Flag) (b : Bool) (sr : Byte) :
    getFlag f (putFlag g b sr) = if f = g then b else getFlag f sr := by
  simp [getFlag, putFlag, Flag.bit_injective]

/-- A flag after a bit of SREG is replaced by its number. -/
theorem getFlag_putBit (f : Flag) (b : BitNum) (x : Bool) (sr : Byte) :
    getFlag f (putBit sr b x) = if f.bit = b then x else getFlag f sr := by
  simp [getFlag]

/-- Status bytes with equal flags are equal. -/
theorem sreg_ext (v w : Byte) (h : ∀ f, getFlag f v = getFlag f w) : v = w := by
  apply Byte.ext_testBit
  intro b
  fin_cases b
  exacts [h .c, h .z, h .n, h .v, h .s, h .h, h .t, h .i]

/-- N, V and S together. -/
@[simp] theorem getFlag_putNVS (f : Flag) (n v : Bool) (sr : Byte) :
    getFlag f (putNVS n v sr) =
      if f = .s then xor n v else if f = .v then v else if f = .n then n else getFlag f sr := by
  simp [putNVS]

/-! ## The flag computations, flag by flag -/

/-- Every flag after `AddFlags(a, b, c)` (41_arithmetic.md R128). -/
theorem getFlag_addFlags (f : Flag) (a b : Byte) (c : Bool) (sr : Byte) :
    getFlag f (addFlags a b c sr) =
      match f with
      | .c => decide (a.toNat + b.toNat + bitNat c > 255)
      | .h => decide (a.toNat % 16 + b.toNat % 16 + bitNat c > 15)
      | .z => addResult a b c == 0
      | .n => signBit (addResult a b c)
      | .v => signBit a == signBit b && signBit (addResult a b c) != signBit a
      | .s => xor (signBit (addResult a b c)) (signBit a == signBit b && signBit (addResult a b c) != signBit a)
      | .t => getFlag .t sr
      | .i => getFlag .i sr := by
  cases f <;> simp [addFlags]

/-- Every flag after `SubFlags(a, b, c)` with a given zero flag (41_arithmetic.md R129). -/
theorem getFlag_subFlags (f : Flag) (a b : Byte) (c zero : Bool) (sr : Byte) :
    getFlag f (subFlags a b c zero sr) =
      match f with
      | .c => decide ((a.toNat : Int) - b.toNat - bitNat c < 0)
      | .h => decide (((a.toNat % 16 : Nat) : Int) - (b.toNat % 16 : Nat) - bitNat c < 0)
      | .z => zero
      | .n => signBit (subResult a b c)
      | .v => signBit a != signBit b && signBit (subResult a b c) != signBit a
      | .s => xor (signBit (subResult a b c)) (signBit a != signBit b && signBit (subResult a b c) != signBit a)
      | .t => getFlag .t sr
      | .i => getFlag .i sr := by
  cases f <;> simp [subFlags]

/-- Every flag after ADIW (41_arithmetic.md R126). -/
theorem getFlag_adiwFlags (f : Flag) (a : Word) (k : BitVec 6) (sr : Byte) :
    getFlag f (adiwFlags a k sr) =
      match f with
      | .c => signBit16 a && !signBit16 (adiwResult a k)
      | .z => adiwResult a k == 0
      | .n => signBit16 (adiwResult a k)
      | .v => !signBit16 a && signBit16 (adiwResult a k)
      | .s => xor (signBit16 (adiwResult a k)) (!signBit16 a && signBit16 (adiwResult a k))
      | .h => getFlag .h sr
      | .t => getFlag .t sr
      | .i => getFlag .i sr := by
  cases f <;> simp [adiwFlags]

/-- Every flag after SBIW (41_arithmetic.md R127). -/
theorem getFlag_sbiwFlags (f : Flag) (a : Word) (k : BitVec 6) (sr : Byte) :
    getFlag f (sbiwFlags a k sr) =
      match f with
      | .c => !signBit16 a && signBit16 (sbiwResult a k)
      | .z => sbiwResult a k == 0
      | .n => signBit16 (sbiwResult a k)
      | .v => signBit16 a && !signBit16 (sbiwResult a k)
      | .s => xor (signBit16 (sbiwResult a k)) (signBit16 a && !signBit16 (sbiwResult a k))
      | .h => getFlag .h sr
      | .t => getFlag .t sr
      | .i => getFlag .i sr := by
  cases f <;> simp [sbiwFlags]

/-- Every flag after `LogicFlags(R)` (42_logic.md R149). -/
theorem getFlag_logicFlags (f : Flag) (r sr : Byte) :
    getFlag f (logicFlags r sr) =
      match f with
      | .z => r == 0
      | .n => signBit r
      | .v => false
      | .s => signBit r
      | .c => getFlag .c sr
      | .h => getFlag .h sr
      | .t => getFlag .t sr
      | .i => getFlag .i sr := by
  cases f <;> simp [logicFlags]

/-- Every flag after COM (42_logic.md R145). -/
theorem getFlag_comFlags (f : Flag) (r sr : Byte) :
    getFlag f (comFlags r sr) = if f = .c then true else getFlag f (logicFlags r sr) := by
  simp [comFlags]

/-- Every flag after INC (42_logic.md R147). -/
theorem getFlag_incFlags (f : Flag) (r sr : Byte) :
    getFlag f (incFlags r sr) =
      match f with
      | .z => r == 0
      | .n => signBit r
      | .v => r == 0x80
      | .s => xor (signBit r) (r == 0x80)
      | .c => getFlag .c sr
      | .h => getFlag .h sr
      | .t => getFlag .t sr
      | .i => getFlag .i sr := by
  cases f <;> simp [incFlags]

/-- Every flag after DEC (42_logic.md R148). -/
theorem getFlag_decFlags (f : Flag) (r sr : Byte) :
    getFlag f (decFlags r sr) =
      match f with
      | .z => r == 0
      | .n => signBit r
      | .v => r == 0x7F
      | .s => xor (signBit r) (r == 0x7F)
      | .c => getFlag .c sr
      | .h => getFlag .h sr
      | .t => getFlag .t sr
      | .i => getFlag .i sr := by
  cases f <;> simp [decFlags]

/-- Every flag after `ShiftRightFlags(old, R)` (46_bit_manipulation.md R237). -/
theorem getFlag_shiftRightFlags (f : Flag) (old r sr : Byte) :
    getFlag f (shiftRightFlags old r sr) =
      match f with
      | .c => testBit old 0
      | .z => r == 0
      | .n => signBit r
      | .v => xor (signBit r) (testBit old 0)
      | .s => testBit old 0
      | .h => getFlag .h sr
      | .t => getFlag .t sr
      | .i => getFlag .i sr := by
  cases f <;> simp [shiftRightFlags]

/-! ## Sign bits and results as numbers -/

/-- `bit(v, 7)` as a comparison. -/
theorem signBit_eq (v : Byte) : signBit v = decide (128 ≤ v.toNat) := by
  simp only [signBit, testBit]
  rw [show ((7 : BitNum).val) = 8 - 1 from rfl, ← BitVec.msb_eq_getLsbD_last, BitVec.msb_eq_decide]

/-- `bit(v, 15)` as a comparison. -/
theorem signBit16_eq (v : Word) : signBit16 v = decide (32768 ≤ v.toNat) := by
  simp only [signBit16]
  rw [show (15 : Nat) = 16 - 1 from rfl, ← BitVec.msb_eq_getLsbD_last, BitVec.msb_eq_decide]

theorem bitNat_le (c : Bool) : bitNat c ≤ 1 := by cases c <;> decide

theorem addResult_toNat (a b : Byte) (c : Bool) :
    (addResult a b c).toNat = (a.toNat + b.toNat + bitNat c) % 256 := by
  simp [addResult]

/-- A difference as a number: the exact difference, plus 256 when it borrows. -/
theorem subResult_toNat (a b : Byte) (c : Bool) :
    (subResult a b c).toNat = (a.toNat + 512 - b.toNat - bitNat c) % 256 := by
  have ha := a.isLt
  have hb := b.isLt
  have hc := bitNat_le c
  simp only [subResult, BitVec.toNat_ofInt]
  omega

theorem adiwResult_toNat (a : Word) (k : BitVec 6) : (adiwResult a k).toNat = (a.toNat + k.toNat) % 65536 := by
  simp [adiwResult]

theorem sbiwResult_toNat (a : Word) (k : BitVec 6) :
    (sbiwResult a k).toNat = (a.toNat + 65536 - k.toNat) % 65536 := by
  have ha := a.isLt
  have hk := k.isLt
  simp only [sbiwResult, BitVec.toNat_ofInt]
  omega

end Sys2Proof.Machine
end

