-- ==== Sys2Proof/Laws/HostFiles.lean ====
section
/-! SUPPORT. The reference host's file area: its length and where each file's block lies in it, and what writing it
into the Byte Store does. -/

namespace Sys2Proof.Machine

/-! ## The file area -/

@[simp] theorem FileEntry.bytes_length (f : FileEntry) : f.bytes.length = f.footprint := by
  simp only [FileEntry.bytes, FileEntry.footprint, List.length_cons, List.length_append, List.length_nil]
  omega

@[simp] theorem filesImage_nil : filesImage [] = [] := rfl

@[simp] theorem filesImage_cons (f : FileEntry) (files : List FileEntry) :
    filesImage (f :: files) = f.bytes ++ filesImage files := rfl

@[simp] theorem filesFootprint_cons (f : FileEntry) (files : List FileEntry) :
    filesFootprint (f :: files) = f.footprint + filesFootprint files := rfl

/-- The file area takes the bytes that the capacity counts. -/
@[simp] theorem filesImage_length (files : List FileEntry) : (filesImage files).length = filesFootprint files := by
  induction files with
  | nil => rfl
  | cons f files ih => simp [ih]

/-- A byte of an entry, past its name and size word, is a byte of its block. -/
theorem FileEntry.bytes_block (f : FileEntry) (j : Nat) : f.bytes[f.name.length + 3 + j]? = f.data[j]? := by
  simp only [FileEntry.bytes]
  rw [show f.name.length + 3 + j = (f.name.length + 2 + j) + 1 by omega, List.getElem?_cons_succ,
    List.getElem?_append_right (by simp)]
  congr 1
  simp

/-- A byte of a file's block, at its place in the file area. -/
theorem filesImage_block (files : List FileEntry) (file : Nat) (f : FileEntry) (hf : files[file]? = some f) (j : Nat)
    (v : Byte) (hv : f.data[j]? = some v) : (filesImage files)[blockOffset files file + j]? = some v := by
  induction files generalizing file with
  | nil => simp at hf
  | cons g files ih =>
    have hlt : j < f.data.length := (List.getElem?_eq_some_iff.1 hv).1
    cases file with
    | zero =>
      obtain rfl : g = f := by simpa using hf
      rw [filesImage_cons, List.getElem?_append_left]
      · rw [← hv, ← FileEntry.bytes_block]
        simp [blockOffset, filesFootprint]
      · simp [blockOffset, filesFootprint, FileEntry.footprint]
        omega
    | succ file =>
      have hf' : files[file]? = some f := by simpa using hf
      have := ih file hf'
      rw [filesImage_cons, List.getElem?_append_right]
      · rw [← this]
        congr 1
        simp [blockOffset]
        omega
      · simp [blockOffset]
        omega

/-! ## The file area written -/

/-- What a run of bytes written into the Byte Store leaves: those bytes where the store reaches, every
other byte as before. -/
theorem storeWrites_cellsFrom_read (size : Nat) (m : Memory) (hm : m.wf) (a : Nat) (l : List Byte) (x : Nat) :
    (storeWrites size m (cellsFrom a l)).read x =
      if a ≤ x ∧ x < a + l.length ∧ x < size then (l[x - a]?).getD blankByte else m.read x := by
  induction l generalizing m a with
  | nil => simp [cellsFrom, storeWrites]; omega
  | cons v l ih =>
    have hw : (storeWrite size m a v).wf := by
      simp only [storeWrite]
      split
      · exact Memory.write_wf m hm a v
      · exact hm
    simp only [cellsFrom, storeWrites, ih _ hw, List.length_cons]
    rcases Nat.lt_trichotomy x a with h | h | h
    · rw [if_neg (by omega), if_neg (by omega), storeWrite_read_other _ _ hm _ _ _ (by omega)]
    · subst h
      rw [if_neg (by omega)]
      by_cases hs : x < size
      · rw [if_pos (by omega), storeWrite_read_same _ _ hm _ _ hs]
        simp
      · rw [if_neg (by omega), storeWrite, if_neg hs]
    · rw [storeWrite_read_other _ _ hm _ _ _ (by omega), show x - a = (x - (a + 1)) + 1 by omega,
        List.getElem?_cons_succ]
      exact if_congr (by omega) rfl rfl

/-- Nothing is written where the files did not change. -/
@[simp] theorem persist_same (size : Nat) (h h' : HostState) (m : Memory) (hf : h'.files = h.files) :
    persist size h h' m = m := if_pos hf

/-- The Byte Store after a change of files keeps its canonical form and its bound. -/
theorem persist_ok (size : Nat) (h h' : HostState) (m : Memory) (hm : m.wf) (hb : m.below size) :
    (persist size h h' m).wf ∧ (persist size h h' m).below size := by
  rw [persist]
  split
  · exact ⟨hm, hb⟩
  · exact storeWrites_ok _ _ _ hm hb

/-- Outside the file area, and beyond the store's end, no byte changes. -/
theorem persist_read_other (size : Nat) (h h' : HostState) (m : Memory) (hm : m.wf) (x : Nat)
    (hx : x < h'.fileBase ∨ h'.fileBase + filesFootprint h'.files ≤ x ∨ size ≤ x) :
    (persist size h h' m).read x = m.read x := by
  rw [persist]
  split
  · rfl
  · rw [storeWrites_cellsFrom_read _ _ hm, if_neg]
    simp only [filesImage_length]
    omega

/-- After a change of files their bytes stand in the file area, as far as the store reaches. -/
theorem persist_read (size : Nat) (h h' : HostState) (m : Memory) (hm : m.wf) (hf : h'.files ≠ h.files) (i : Nat)
    (v : Byte) (hi : (filesImage h'.files)[i]? = some v) (hs : h'.fileBase + i < size) :
    (persist size h h' m).read (h'.fileBase + i) = v := by
  have := (List.getElem?_eq_some_iff.1 hi).1
  rw [persist, if_neg hf, storeWrites_cellsFrom_read _ _ hm, if_pos (by omega)]
  simp [hi]

/-- A Byte Store that holds the files holds them after every change of files. -/
theorem persist_mirrored (size : Nat) (h h' : HostState) (m : Memory) (hm : m.wf) (hh : h.mirrored size m)
    (hk : h'.kind = h.kind) (hb : h'.fileBase = h.fileBase) : h'.mirrored size (persist size h h' m) := by
  intro hr i v hi hs
  by_cases hf : h'.files = h.files
  · rw [persist_same _ _ _ _ hf]
    rw [hf] at hi
    rw [hb] at hs ⊢
    exact hh (hk ▸ hr) i v hi hs
  · exact persist_read size h h' m hm hf i v hi hs

end Sys2Proof.Machine
end

