-- ==== Sys2Proof/Laws/Operands.lean ====
section
/-! SUPPORT. What the operand forms and the shared instruction shapes can do, and the branch and jump targets as
arithmetic on words. -/

namespace Sys2Proof.Machine

/-! ## Targets -/

/-- A relative target of a 12-bit `k` (43_control_flow.md R160). -/
theorem relTarget_k12 (pc : Word) (k : BitVec 12) : relTarget pc k.toInt = pc + 2 * k.signExtend 16 := by
  apply BitVec.eq_of_toInt_eq
  simp only [relTarget, BitVec.toInt_ofInt, BitVec.toInt_add, BitVec.toInt_mul]
  rw [BitVec.toInt_signExtend_of_le (by decide), BitVec.toInt_eq_toNat_bmod pc]
  simp

/-- A relative target of a 7-bit `k` (43_control_flow.md R178). -/
theorem relTarget_k7 (pc : Word) (k : BitVec 7) : relTarget pc k.toInt = pc + 2 * k.signExtend 16 := by
  apply BitVec.eq_of_toInt_eq
  simp only [relTarget, BitVec.toInt_ofInt, BitVec.toInt_add, BitVec.toInt_mul]
  rw [BitVec.toInt_signExtend_of_le (by decide), BitVec.toInt_eq_toNat_bmod pc]
  simp

/-- An indirect target (43_control_flow.md R164). -/
theorem indirectTarget_eq (z : Word) : indirectTarget z = 2 * z := by
  apply BitVec.eq_of_toNat_eq
  simp [indirectTarget, BitVec.toNat_mul]

/-! ## Loads and stores -/

theorem beforeAccess_keeps (p : RegPair) (mode : PointerMode) (a : Word) (s : State) :
    Keeps s (beforeAccess p mode a s) := by
  cases mode
  · exact .refl s
  · exact .refl s
  · exact setPair_keeps _ _ _

theorem afterAccess_keeps (p : RegPair) (mode : PointerMode) (a : Word) (s : State) :
    Keeps s (afterAccess p mode a s) := by
  cases mode
  · exact .refl s
  · exact setPair_keeps _ _ _
  · exact .refl s

theorem loadVia_keeps (p : RegPair) (mode : PointerMode) (d : Reg) (s : State) : Keeps s (loadVia p mode d s) :=
  ((beforeAccess_keeps _ _ _ _).trans (afterAccess_keeps _ _ _ _)).trans (setReg_keeps _ _ _)

theorem storeVia_keeps (p : RegPair) (mode : PointerMode) (r : Reg) (s : State) : Keeps s (storeVia p mode r s) :=
  ((beforeAccess_keeps _ _ _ _).trans (memWrite_keeps _ _ _)).trans (afterAccess_keeps _ _ _ _)

@[simp] theorem loadVia_pc (p : RegPair) (mode : PointerMode) (d : Reg) (s : State) : (loadVia p mode d s).pc = s.pc := by
  cases mode <;> rfl

@[simp] theorem loadVia_sreg (p : RegPair) (mode : PointerMode) (d : Reg) (s : State) :
    (loadVia p mode d s).sreg = s.sreg := by
  cases mode <;> rfl

@[simp] theorem storeVia_pc (p : RegPair) (mode : PointerMode) (r : Reg) (s : State) :
    (storeVia p mode r s).pc = s.pc := by
  cases mode <;> simp [storeVia, afterAccess, beforeAccess]

/-- LPM: the program byte in the destination and the pointer updated, or the fault and nothing
changed (44_data_movement.md R210 to R212). -/
theorem loadProgram_cases (mode : PointerMode) (d : Reg) (s : State) :
    (s.programBase + (pointerAddr .z mode s).toNat < s.params.storeSize ∧
      loadProgram mode d s = .next ((afterAccess .z mode (pointerAddr .z mode s)
        (beforeAccess .z mode (pointerAddr .z mode s) s)).setReg d
          (Memory.read s.store (s.programBase + (pointerAddr .z mode s).toNat)))) ∨
    (s.params.storeSize ≤ s.programBase + (pointerAddr .z mode s).toNat ∧
      loadProgram mode d s = .fault (.storeRange (s.programBase + (pointerAddr .z mode s).toNat))) := by
  rcases progRead_cases s (pointerAddr .z mode s) with ⟨h, e⟩ | ⟨h, e⟩
  · exact .inl ⟨h, by simp only [loadProgram, e]⟩
  · exact .inr ⟨h, by simp only [loadProgram, e]⟩

theorem modifyIo_keeps (a : IoLow) (b : BitNum) (x : Bool) (s : State) : Keeps s (modifyIo a b x s) :=
  memWrite_keeps _ _ _

/-! ## The shared shapes write one register and SREG -/

theorem addTo_keeps (d : Reg) (b : Byte) (c : Bool) (s : State) : Keeps s (addTo d b c s) :=
  .of_eq rfl rfl rfl rfl rfl rfl rfl

theorem subFrom_keeps (d : Reg) (b : Byte) (s : State) : Keeps s (subFrom d b s) := .of_eq rfl rfl rfl rfl rfl rfl rfl

theorem subChainFrom_keeps (d : Reg) (b : Byte) (s : State) : Keeps s (subChainFrom d b s) :=
  .of_eq rfl rfl rfl rfl rfl rfl rfl

theorem writeWithFlags_keeps (d : Reg) (r : Byte) (flags : Byte → Byte → Byte) (s : State) :
    Keeps s (writeWithFlags d r flags s) :=
  .of_eq rfl rfl rfl rfl rfl rfl rfl

theorem shiftRightTo_keeps (d : Reg) (r : Byte) (s : State) : Keeps s (shiftRightTo d r s) :=
  .of_eq rfl rfl rfl rfl rfl rfl rfl

end Sys2Proof.Machine
end

