-- ==== Sys2Proof/Laws/PerInstr.lean ====
section
/-! SUPPORT. The family `EncodeInRow`: the word of a well-formed instruction is selected by the row of the decode table
that stands for the instruction, and that row builds it back. Whether an earlier row takes the word
first is not said here. -/

namespace Sys2Proof.Laws.EncodeInRow

-- One lemma after another: elaborated at once, the lemmas would need a thread each.
set_option Elab.async false

/-- The statement of the family. -/
def Statement (i : Instr) : Prop :=
  WellFormed i → ∃ row ∈ table, row.selects (encode i) = true ∧ row.build (encode i) = i

/-- A row by its place in the table. -/
theorem of_index {i : Instr} (n : Nat) {row : Row} (h : table[n]? = some row) (hs : row.selects (encode i) = true)
    (hb : row.build (encode i) = i) : ∃ row ∈ table, row.selects (encode i) = true ∧ row.build (encode i) = i :=
  ⟨row, List.mem_of_getElem? h, hs, hb⟩

theorem halt : Statement .halt := by
  intro _
  refine of_index 0 rfl ?_ ?_
  · decide
  · rfl

theorem nop : Statement .nop := by
  intro _
  refine of_index 1 rfl ?_ ?_
  · decide
  · rfl

theorem cpc (d r : Reg) : Statement (.cpc d r) := by
  intro _
  refine of_index 2 rfl ?_ ?_
  · simp [Row.selects, always, encode, BitVec.and_or_distrib_right]
  · simp [encode, fieldD, fieldR, BitVec.extractLsb'_or]

theorem sbc (d r : Reg) : Statement (.sbc d r) := by
  intro _
  refine of_index 3 rfl ?_ ?_
  · simp [Row.selects, always, encode, BitVec.and_or_distrib_right]
  · simp [encode, fieldD, fieldR, BitVec.extractLsb'_or]

theorem lsl (d : Reg) : Statement (.lsl d) := by
  intro _
  refine of_index 4 rfl ?_ ?_
  · simp [Row.selects, encode, BitVec.and_or_distrib_right, fieldsEqual, fieldD, fieldR, BitVec.extractLsb'_or]
  · simp [encode, fieldD, BitVec.extractLsb'_or]

theorem add (d r : Reg) : Statement (.add d r) := by
  intro _
  refine of_index 5 rfl ?_ ?_
  · simp [Row.selects, always, encode, BitVec.and_or_distrib_right]
  · simp [encode, fieldD, fieldR, BitVec.extractLsb'_or]

theorem cpse (d r : Reg) : Statement (.cpse d r) := by
  intro _
  refine of_index 6 rfl ?_ ?_
  · simp [Row.selects, always, encode, BitVec.and_or_distrib_right]
  · simp [encode, fieldD, fieldR, BitVec.extractLsb'_or]

theorem cp (d r : Reg) : Statement (.cp d r) := by
  intro _
  refine of_index 7 rfl ?_ ?_
  · simp [Row.selects, always, encode, BitVec.and_or_distrib_right]
  · simp [encode, fieldD, fieldR, BitVec.extractLsb'_or]

theorem sub (d r : Reg) : Statement (.sub d r) := by
  intro _
  refine of_index 8 rfl ?_ ?_
  · simp [Row.selects, always, encode, BitVec.and_or_distrib_right]
  · simp [encode, fieldD, fieldR, BitVec.extractLsb'_or]

theorem rol (d : Reg) : Statement (.rol d) := by
  intro _
  refine of_index 9 rfl ?_ ?_
  · simp [Row.selects, encode, BitVec.and_or_distrib_right, fieldsEqual, fieldD, fieldR, BitVec.extractLsb'_or]
  · simp [encode, fieldD, BitVec.extractLsb'_or]

theorem adc (d r : Reg) : Statement (.adc d r) := by
  intro _
  refine of_index 10 rfl ?_ ?_
  · simp [Row.selects, always, encode, BitVec.and_or_distrib_right]
  · simp [encode, fieldD, fieldR, BitVec.extractLsb'_or]

theorem and (d r : Reg) : Statement (.and d r) := by
  intro _
  refine of_index 11 rfl ?_ ?_
  · simp [Row.selects, always, encode, BitVec.and_or_distrib_right]
  · simp [encode, fieldD, fieldR, BitVec.extractLsb'_or]

theorem eor (d r : Reg) : Statement (.eor d r) := by
  intro _
  refine of_index 12 rfl ?_ ?_
  · simp [Row.selects, always, encode, BitVec.and_or_distrib_right]
  · simp [encode, fieldD, fieldR, BitVec.extractLsb'_or]

theorem or (d r : Reg) : Statement (.or d r) := by
  intro _
  refine of_index 13 rfl ?_ ?_
  · simp [Row.selects, always, encode, BitVec.and_or_distrib_right]
  · simp [encode, fieldD, fieldR, BitVec.extractLsb'_or]

theorem mov (d r : Reg) : Statement (.mov d r) := by
  intro _
  refine of_index 14 rfl ?_ ?_
  · simp [Row.selects, always, encode, BitVec.and_or_distrib_right]
  · simp [encode, fieldD, fieldR, BitVec.extractLsb'_or]

theorem cpi (d : Reg) (k : Byte) : Statement (.cpi d k) := by
  intro h
  refine of_index 15 rfl ?_ ?_
  · simp [Row.selects, always, encode, BitVec.and_or_distrib_right]
  · simp [encode, fieldHigh, fieldK8, BitVec.extractLsb'_or, high_of_low d h]

theorem sbci (d : Reg) (k : Byte) : Statement (.sbci d k) := by
  intro h
  refine of_index 16 rfl ?_ ?_
  · simp [Row.selects, always, encode, BitVec.and_or_distrib_right]
  · simp [encode, fieldHigh, fieldK8, BitVec.extractLsb'_or, high_of_low d h]

theorem subi (d : Reg) (k : Byte) : Statement (.subi d k) := by
  intro h
  refine of_index 17 rfl ?_ ?_
  · simp [Row.selects, always, encode, BitVec.and_or_distrib_right]
  · simp [encode, fieldHigh, fieldK8, BitVec.extractLsb'_or, high_of_low d h]

theorem ori (d : Reg) (k : Byte) : Statement (.ori d k) := by
  intro h
  refine of_index 18 rfl ?_ ?_
  · simp [Row.selects, always, encode, BitVec.and_or_distrib_right]
  · simp [encode, fieldHigh, fieldK8, BitVec.extractLsb'_or, high_of_low d h]

theorem andi (d : Reg) (k : Byte) : Statement (.andi d k) := by
  intro h
  refine of_index 19 rfl ?_ ?_
  · simp [Row.selects, always, encode, BitVec.and_or_distrib_right]
  · simp [encode, fieldHigh, fieldK8, BitVec.extractLsb'_or, high_of_low d h]

theorem ldZ (d : Reg) : Statement (.ldZ d) := by
  intro _
  refine of_index 20 rfl ?_ ?_
  · simp [Row.selects, always, encode, BitVec.and_or_distrib_right]
  · simp [encode, fieldD, BitVec.extractLsb'_or]

theorem ldY (d : Reg) : Statement (.ldY d) := by
  intro _
  refine of_index 21 rfl ?_ ?_
  · simp [Row.selects, always, encode, BitVec.and_or_distrib_right]
  · simp [encode, fieldD, BitVec.extractLsb'_or]

theorem stZ (r : Reg) : Statement (.stZ r) := by
  intro _
  refine of_index 22 rfl ?_ ?_
  · simp [Row.selects, always, encode, BitVec.and_or_distrib_right]
  · simp [encode, fieldD, BitVec.extractLsb'_or]

theorem stY (r : Reg) : Statement (.stY r) := by
  intro _
  refine of_index 23 rfl ?_ ?_
  · simp [Row.selects, always, encode, BitVec.and_or_distrib_right]
  · simp [encode, fieldD, BitVec.extractLsb'_or]

theorem ldZInc (d : Reg) : Statement (.ldZInc d) := by
  intro _
  refine of_index 24 rfl ?_ ?_
  · simp [Row.selects, always, encode, BitVec.and_or_distrib_right]
  · simp [encode, fieldD, BitVec.extractLsb'_or]

theorem ldZDec (d : Reg) : Statement (.ldZDec d) := by
  intro _
  refine of_index 25 rfl ?_ ?_
  · simp [Row.selects, always, encode, BitVec.and_or_distrib_right]
  · simp [encode, fieldD, BitVec.extractLsb'_or]

theorem lpm (d : Reg) : Statement (.lpm d) := by
  intro _
  refine of_index 26 rfl ?_ ?_
  · simp [Row.selects, always, encode, BitVec.and_or_distrib_right]
  · simp [encode, fieldD, BitVec.extractLsb'_or]

theorem lpmInc (d : Reg) : Statement (.lpmInc d) := by
  intro _
  refine of_index 27 rfl ?_ ?_
  · simp [Row.selects, always, encode, BitVec.and_or_distrib_right]
  · simp [encode, fieldD, BitVec.extractLsb'_or]

theorem ldYInc (d : Reg) : Statement (.ldYInc d) := by
  intro _
  refine of_index 28 rfl ?_ ?_
  · simp [Row.selects, always, encode, BitVec.and_or_distrib_right]
  · simp [encode, fieldD, BitVec.extractLsb'_or]

theorem ldYDec (d : Reg) : Statement (.ldYDec d) := by
  intro _
  refine of_index 29 rfl ?_ ?_
  · simp [Row.selects, always, encode, BitVec.and_or_distrib_right]
  · simp [encode, fieldD, BitVec.extractLsb'_or]

theorem ldX (d : Reg) : Statement (.ldX d) := by
  intro _
  refine of_index 30 rfl ?_ ?_
  · simp [Row.selects, always, encode, BitVec.and_or_distrib_right]
  · simp [encode, fieldD, BitVec.extractLsb'_or]

theorem ldXInc (d : Reg) : Statement (.ldXInc d) := by
  intro _
  refine of_index 31 rfl ?_ ?_
  · simp [Row.selects, always, encode, BitVec.and_or_distrib_right]
  · simp [encode, fieldD, BitVec.extractLsb'_or]

theorem ldXDec (d : Reg) : Statement (.ldXDec d) := by
  intro _
  refine of_index 32 rfl ?_ ?_
  · simp [Row.selects, always, encode, BitVec.and_or_distrib_right]
  · simp [encode, fieldD, BitVec.extractLsb'_or]

theorem pop (d : Reg) : Statement (.pop d) := by
  intro _
  refine of_index 33 rfl ?_ ?_
  · simp [Row.selects, always, encode, BitVec.and_or_distrib_right]
  · simp [encode, fieldD, BitVec.extractLsb'_or]

theorem stZInc (r : Reg) : Statement (.stZInc r) := by
  intro _
  refine of_index 34 rfl ?_ ?_
  · simp [Row.selects, always, encode, BitVec.and_or_distrib_right]
  · simp [encode, fieldD, BitVec.extractLsb'_or]

theorem stZDec (r : Reg) : Statement (.stZDec r) := by
  intro _
  refine of_index 35 rfl ?_ ?_
  · simp [Row.selects, always, encode, BitVec.and_or_distrib_right]
  · simp [encode, fieldD, BitVec.extractLsb'_or]

theorem stYInc (r : Reg) : Statement (.stYInc r) := by
  intro _
  refine of_index 36 rfl ?_ ?_
  · simp [Row.selects, always, encode, BitVec.and_or_distrib_right]
  · simp [encode, fieldD, BitVec.extractLsb'_or]

theorem stYDec (r : Reg) : Statement (.stYDec r) := by
  intro _
  refine of_index 37 rfl ?_ ?_
  · simp [Row.selects, always, encode, BitVec.and_or_distrib_right]
  · simp [encode, fieldD, BitVec.extractLsb'_or]

theorem stX (r : Reg) : Statement (.stX r) := by
  intro _
  refine of_index 38 rfl ?_ ?_
  · simp [Row.selects, always, encode, BitVec.and_or_distrib_right]
  · simp [encode, fieldD, BitVec.extractLsb'_or]

theorem stXInc (r : Reg) : Statement (.stXInc r) := by
  intro _
  refine of_index 39 rfl ?_ ?_
  · simp [Row.selects, always, encode, BitVec.and_or_distrib_right]
  · simp [encode, fieldD, BitVec.extractLsb'_or]

theorem stXDec (r : Reg) : Statement (.stXDec r) := by
  intro _
  refine of_index 40 rfl ?_ ?_
  · simp [Row.selects, always, encode, BitVec.and_or_distrib_right]
  · simp [encode, fieldD, BitVec.extractLsb'_or]

theorem push (r : Reg) : Statement (.push r) := by
  intro _
  refine of_index 41 rfl ?_ ?_
  · simp [Row.selects, always, encode, BitVec.and_or_distrib_right]
  · simp [encode, fieldD, BitVec.extractLsb'_or]

theorem com (d : Reg) : Statement (.com d) := by
  intro _
  refine of_index 42 rfl ?_ ?_
  · simp [Row.selects, always, encode, BitVec.and_or_distrib_right]
  · simp [encode, fieldD, BitVec.extractLsb'_or]

theorem neg (d : Reg) : Statement (.neg d) := by
  intro _
  refine of_index 43 rfl ?_ ?_
  · simp [Row.selects, always, encode, BitVec.and_or_distrib_right]
  · simp [encode, fieldD, BitVec.extractLsb'_or]

theorem swap (d : Reg) : Statement (.swap d) := by
  intro _
  refine of_index 44 rfl ?_ ?_
  · simp [Row.selects, always, encode, BitVec.and_or_distrib_right]
  · simp [encode, fieldD, BitVec.extractLsb'_or]

theorem inc (d : Reg) : Statement (.inc d) := by
  intro _
  refine of_index 45 rfl ?_ ?_
  · simp [Row.selects, always, encode, BitVec.and_or_distrib_right]
  · simp [encode, fieldD, BitVec.extractLsb'_or]

theorem asr (d : Reg) : Statement (.asr d) := by
  intro _
  refine of_index 46 rfl ?_ ?_
  · simp [Row.selects, always, encode, BitVec.and_or_distrib_right]
  · simp [encode, fieldD, BitVec.extractLsb'_or]

theorem lsr (d : Reg) : Statement (.lsr d) := by
  intro _
  refine of_index 47 rfl ?_ ?_
  · simp [Row.selects, always, encode, BitVec.and_or_distrib_right]
  · simp [encode, fieldD, BitVec.extractLsb'_or]

theorem ror (d : Reg) : Statement (.ror d) := by
  intro _
  refine of_index 48 rfl ?_ ?_
  · simp [Row.selects, always, encode, BitVec.and_or_distrib_right]
  · simp [encode, fieldD, BitVec.extractLsb'_or]

theorem dec (d : Reg) : Statement (.dec d) := by
  intro _
  refine of_index 49 rfl ?_ ?_
  · simp [Row.selects, always, encode, BitVec.and_or_distrib_right]
  · simp [encode, fieldD, BitVec.extractLsb'_or]

theorem bset (s : BitNum) : Statement (.bset s) := by
  intro _
  refine of_index 50 rfl ?_ ?_
  · simp [Row.selects, always, encode, BitVec.and_or_distrib_right]
  · simp [encode, fieldS, BitVec.extractLsb'_or]

theorem bclr (s : BitNum) : Statement (.bclr s) := by
  intro _
  refine of_index 51 rfl ?_ ?_
  · simp [Row.selects, always, encode, BitVec.and_or_distrib_right]
  · simp [encode, fieldS, BitVec.extractLsb'_or]

theorem ret : Statement .ret := by
  intro _
  refine of_index 52 rfl ?_ ?_
  · decide
  · rfl

theorem reti : Statement .reti := by
  intro _
  refine of_index 53 rfl ?_ ?_
  · decide
  · rfl

theorem sleep : Statement .sleep := by
  intro _
  refine of_index 54 rfl ?_ ?_
  · decide
  · rfl

theorem brk : Statement .brk := by
  intro _
  refine of_index 55 rfl ?_ ?_
  · decide
  · rfl

theorem wdr : Statement .wdr := by
  intro _
  refine of_index 56 rfl ?_ ?_
  · decide
  · rfl

theorem lpmR0 : Statement .lpmR0 := by
  intro _
  refine of_index 57 rfl ?_ ?_
  · decide
  · rfl

theorem ijmp : Statement .ijmp := by
  intro _
  refine of_index 58 rfl ?_ ?_
  · decide
  · rfl

theorem icall : Statement .icall := by
  intro _
  refine of_index 59 rfl ?_ ?_
  · decide
  · rfl

theorem adiw (p : PairNum) (k : BitVec 6) : Statement (.adiw p k) := by
  intro _
  refine of_index 60 rfl ?_ ?_
  · simp [Row.selects, always, encode, BitVec.and_or_distrib_right]
  · simp [encode, fieldP, fieldK6, BitVec.extractLsb'_or]

theorem sbiw (p : PairNum) (k : BitVec 6) : Statement (.sbiw p k) := by
  intro _
  refine of_index 61 rfl ?_ ?_
  · simp [Row.selects, always, encode, BitVec.and_or_distrib_right]
  · simp [encode, fieldP, fieldK6, BitVec.extractLsb'_or]

theorem cbi (a : IoLow) (b : BitNum) : Statement (.cbi a b) := by
  intro _
  refine of_index 62 rfl ?_ ?_
  · simp [Row.selects, always, encode, BitVec.and_or_distrib_right]
  · simp [encode, fieldA5, fieldB, BitVec.extractLsb'_or]

theorem sbic (a : IoLow) (b : BitNum) : Statement (.sbic a b) := by
  intro _
  refine of_index 63 rfl ?_ ?_
  · simp [Row.selects, always, encode, BitVec.and_or_distrib_right]
  · simp [encode, fieldA5, fieldB, BitVec.extractLsb'_or]

theorem sbi (a : IoLow) (b : BitNum) : Statement (.sbi a b) := by
  intro _
  refine of_index 64 rfl ?_ ?_
  · simp [Row.selects, always, encode, BitVec.and_or_distrib_right]
  · simp [encode, fieldA5, fieldB, BitVec.extractLsb'_or]

theorem sbis (a : IoLow) (b : BitNum) : Statement (.sbis a b) := by
  intro _
  refine of_index 65 rfl ?_ ?_
  · simp [Row.selects, always, encode, BitVec.and_or_distrib_right]
  · simp [encode, fieldA5, fieldB, BitVec.extractLsb'_or]

theorem inp (d : Reg) (a : IoNum) : Statement (.inp d a) := by
  intro _
  refine of_index 66 rfl ?_ ?_
  · simp [Row.selects, always, encode, BitVec.and_or_distrib_right]
  · simp [encode, fieldD, fieldA6, BitVec.extractLsb'_or]

theorem out (a : IoNum) (r : Reg) : Statement (.out a r) := by
  intro _
  refine of_index 67 rfl ?_ ?_
  · simp [Row.selects, always, encode, BitVec.and_or_distrib_right]
  · simp [encode, fieldD, fieldA6, BitVec.extractLsb'_or]

theorem rjmp (k : BitVec 12) : Statement (.rjmp k) := by
  intro _
  refine of_index 68 rfl ?_ ?_
  · simp [Row.selects, always, encode, BitVec.and_or_distrib_right]
  · simp [encode, fieldK12, BitVec.extractLsb'_or]

theorem rcall (k : BitVec 12) : Statement (.rcall k) := by
  intro _
  refine of_index 69 rfl ?_ ?_
  · simp [Row.selects, always, encode, BitVec.and_or_distrib_right]
  · simp [encode, fieldK12, BitVec.extractLsb'_or]

theorem ldi (d : Reg) (k : Byte) : Statement (.ldi d k) := by
  intro h
  refine of_index 70 rfl ?_ ?_
  · simp [Row.selects, always, encode, BitVec.and_or_distrib_right]
  · simp [encode, fieldHigh, fieldK8, BitVec.extractLsb'_or, high_of_low d h]

theorem brbs (s : BitNum) (k : BitVec 7) : Statement (.brbs s k) := by
  intro _
  refine of_index 71 rfl ?_ ?_
  · simp [Row.selects, always, encode, BitVec.and_or_distrib_right]
  · simp [encode, fieldB, fieldK7, BitVec.extractLsb'_or]

theorem brbc (s : BitNum) (k : BitVec 7) : Statement (.brbc s k) := by
  intro _
  refine of_index 72 rfl ?_ ?_
  · simp [Row.selects, always, encode, BitVec.and_or_distrib_right]
  · simp [encode, fieldB, fieldK7, BitVec.extractLsb'_or]

theorem bld (d : Reg) (b : BitNum) : Statement (.bld d b) := by
  intro _
  refine of_index 73 rfl ?_ ?_
  · simp [Row.selects, always, encode, BitVec.and_or_distrib_right]
  · simp [encode, fieldD, fieldB, BitVec.extractLsb'_or]

theorem bst (d : Reg) (b : BitNum) : Statement (.bst d b) := by
  intro _
  refine of_index 74 rfl ?_ ?_
  · simp [Row.selects, always, encode, BitVec.and_or_distrib_right]
  · simp [encode, fieldD, fieldB, BitVec.extractLsb'_or]

theorem sbrc (r : Reg) (b : BitNum) : Statement (.sbrc r b) := by
  intro _
  refine of_index 75 rfl ?_ ?_
  · simp [Row.selects, always, encode, BitVec.and_or_distrib_right]
  · simp [encode, fieldD, fieldB, BitVec.extractLsb'_or]

theorem sbrs (r : Reg) (b : BitNum) : Statement (.sbrs r b) := by
  intro _
  refine of_index 76 rfl ?_ ?_
  · simp [Row.selects, always, encode, BitVec.and_or_distrib_right]
  · simp [encode, fieldD, fieldB, BitVec.extractLsb'_or]

end Sys2Proof.Laws.EncodeInRow
end

