-- ==== Sys2Proof/Laws/Step.lean ====
section
/-! SUPPORT. The step taken apart once: the four ways a step answers a next state, and the ways it stops; and a run one step at a time. -/

namespace Sys2Proof.Machine

theorem advance_spec (s : State) : advance s = { s with pc := s.pc + 2, cls := some .normal } := rfl

theorem haltedStep_spec (s : State) : haltedStep s = { s with cls := some .halted } := rfl

/-! ## The state an instruction is handed -/

section

variable (s : State)

@[simp] theorem advance_regs : (advance s).regs = s.regs := rfl

@[simp] theorem advance_sreg : (advance s).sreg = s.sreg := rfl

@[simp] theorem advance_sp : (advance s).sp = s.sp := rfl

@[simp] theorem advance_programBase : (advance s).programBase = s.programBase := rfl

@[simp] theorem advance_running : (advance s).running = s.running := rfl

@[simp] theorem advance_ram : (advance s).ram = s.ram := rfl

@[simp] theorem advance_params : (advance s).params = s.params := rfl

@[simp] theorem advance_store : (advance s).store = s.store := rfl

@[simp] theorem advance_host : (advance s).host = s.host := rfl

@[simp] theorem advance_pc : (advance s).pc = s.pc + 2 := rfl

@[simp] theorem advance_cls : (advance s).cls = some .normal := rfl

@[simp] theorem advance_reg (i : Reg) : (advance s).reg i = s.reg i := rfl

@[simp] theorem advance_pair (p : RegPair) : (advance s).pair p = s.pair p := rfl

@[simp] theorem advance_flag (f : Flag) : (advance s).flag f = s.flag f := rfl

end

/-! ## One step -/

/-- A step of a Halted core (40_step_cycle.md R105). -/
theorem step_halted (s : State) (h : s.running = false) : step s = .next (haltedStep s) := by
  simp [step, clock, h]

/-- A step whose fetch fails (40_step_cycle.md R101). -/
theorem step_fetch_error (s : State) (f : Fault) (h : s.running = true) (hf : fetchWord s = .error f) :
    step s = .fault f := by
  simp [step, clock, h, hf]

/-- A vector step (40_step_cycle.md R102). -/
theorem step_vector (s : State) (w : Word) (op : HostOp) (h : s.running = true) (hf : fetchWord s = .ok w)
    (hv : vectorOf s.pc = some op) : step s = vectorStep op (advance s) := by
  simp [step, clock, h, hf, hv]

/-- A step that decodes (40_step_cycle.md R103). -/
theorem step_word (s : State) (w : Word) (h : s.running = true) (hf : fetchWord s = .ok w) (hv : vectorOf s.pc = none) :
    step s = runWord w (advance s) := by
  simp [step, clock, h, hf, hv]

theorem runWord_ok (w : Word) (s : State) (i : Instr) (h : decode w = .ok i) : runWord w s = exec i s := by
  simp [runWord, h]

theorem runWord_error (w : Word) (s : State) (e : DecodeError) (h : decode w = .error e) :
    runWord w s = .next s.raiseUnknown := by
  simp [runWord, h]

/-- Every step, by the case of 60_exceptions.md R311 that decides it. -/
theorem step_cases (s : State) :
    (s.running = false ∧ step s = .next (haltedStep s)) ∨
    (s.running = true ∧ ∃ f, fetchWord s = .error f ∧ step s = .fault f) ∨
    (s.running = true ∧ ∃ w op, fetchWord s = .ok w ∧ vectorOf s.pc = some op ∧ step s = vectorStep op (advance s)) ∨
    (s.running = true ∧ ∃ w i, fetchWord s = .ok w ∧ vectorOf s.pc = none ∧ decode w = .ok i ∧
      step s = exec i (advance s)) ∨
    (s.running = true ∧ ∃ w e, fetchWord s = .ok w ∧ vectorOf s.pc = none ∧ decode w = .error e ∧
      step s = .next (advance s).raiseUnknown) := by
  cases hr : s.running with
  | false => exact .inl ⟨rfl, step_halted s hr⟩
  | true =>
    cases hf : fetchWord s with
    | error f => exact .inr (.inl ⟨rfl, f, rfl, step_fetch_error s f hr hf⟩)
    | ok w =>
      cases hv : vectorOf s.pc with
      | some op => exact .inr (.inr (.inl ⟨rfl, w, op, rfl, rfl, step_vector s w op hr hf hv⟩))
      | none =>
        cases hd : decode w with
        | ok i => exact .inr (.inr (.inr (.inl ⟨rfl, w, i, rfl, rfl, hd, by rw [step_word s w hr hf hv, runWord_ok _ _ _ hd]⟩)))
        | error e =>
          exact .inr (.inr (.inr (.inr ⟨rfl, w, e, rfl, rfl, hd, by rw [step_word s w hr hf hv, runWord_error _ _ _ hd]⟩)))

/-! ## Runs, one step at a time -/

theorem run_zero (s : State) : Sys2Proof.core.run 0 s = .next s := rfl

/-- A run whose first step answers a next state. -/
theorem run_succ_of_next (k : Nat) (s t : State) (h : step s = .next t) :
    Sys2Proof.core.run (k + 1) s = Sys2Proof.core.run k t := by
  have h' : Sys2Proof.core.step s = .next t := h
  have e := Host.Core.run.eq_def Sys2Proof.core (k + 1) s
  simp only [h'] at e
  exact e

/-- A run whose first step faults. -/
theorem run_succ_of_fault (k : Nat) (s : State) (f : Fault) (h : step s = .fault f) :
    Sys2Proof.core.run (k + 1) s = .fault f := by
  have h' : Sys2Proof.core.step s = .fault f := h
  have e := Host.Core.run.eq_def Sys2Proof.core (k + 1) s
  simp only [h'] at e
  exact e

/-- A run whose first step is refused. -/
theorem run_succ_of_refused (k : Nat) (s : State) (r : Refusal) (h : step s = .refused r) :
    Sys2Proof.core.run (k + 1) s = .refused r := by
  have h' : Sys2Proof.core.step s = .refused r := h
  have e := Host.Core.run.eq_def Sys2Proof.core (k + 1) s
  simp only [h'] at e
  exact e

end Sys2Proof.Machine
end

