-- ==== Sys2Proof/Laws/Vectors.lean ====
section
/-! SUPPORT. What the vector step and the host's answers can do: strings and buffers as the spec describes them, the
bounds of every answer, and the pieces of an answer applied to the core. -/

namespace Sys2Proof.Machine

/-! ## Strings and buffers -/

@[simp] theorem readBytes_length (s : State) (a : Word) (n : Nat) : (readBytes s a n).length = n := by
  induction n generalizing a with
  | zero => rfl
  | succ n ih => simp [readBytes, ih]

/-- The addresses of a scan, one byte on. -/
theorem scanAddr_succ (a : Word) (i : Nat) : a + BitVec.ofNat 16 (i + 1) = a + 1 + BitVec.ofNat 16 i := by
  rw [BitVec.add_assoc]
  congr 1
  apply BitVec.eq_of_toNat_eq
  simp [Nat.add_comm]

/-- A data-space string is the bytes up to the first zero, at most `n` of them (48_syscall_vectors.md R279). -/
theorem dataString_spec (s : State) (a : Word) (n : Nat) :
    (∀ i, (h : i < (dataString s a n).length) →
      (dataString s a n)[i] = memRead s (a + BitVec.ofNat 16 i) ∧ (dataString s a n)[i] ≠ 0) ∧
    (dataString s a n).length ≤ n ∧
    ((dataString s a n).length = n ∨ memRead s (a + BitVec.ofNat 16 (dataString s a n).length) = 0) := by
  induction n generalizing a with
  | zero => simp [dataString]
  | succ n ih =>
    by_cases hz : memRead s a = 0
    · simp [dataString, hz]
    · obtain ⟨h1, h2, h3⟩ := ih (a + 1)
      simp only [dataString, hz, if_false, List.length_cons, scanAddr_succ]
      refine ⟨fun i hi => ?_, by omega, h3.imp (congrArg (· + 1)) id⟩
      cases i with
      | zero => exact ⟨by simp, hz⟩
      | succ i =>
        rw [scanAddr_succ]
        exact h1 i (by simpa using hi)

/-- No byte of a data-space string is zero. -/
theorem dataString_ne_zero (s : State) (a : Word) (n : Nat) (v : Byte) (h : v ∈ dataString s a n) : v ≠ 0 := by
  obtain ⟨i, hi, rfl⟩ := List.mem_iff_getElem.1 h
  exact ((dataString_spec s a n).1 i hi).2

/-- The byte a program-memory scan meets at its `i`-th offset lies inside the Byte Store. -/
abbrev scanInside (s : State) (a : Word) (i : Nat) : Prop :=
  s.programBase + (a + BitVec.ofNat 16 i).toNat < s.params.storeSize

/-- A program-memory scan of at most `n` bytes (48_syscall_vectors.md R279, R283): the string, every visited offset inside
the Byte Store; or the fault at the first offset outside, no byte before it being zero. -/
theorem progString_cases (s : State) (a : Word) (n : Nat) :
    (∃ str, progString s a n = .ok str ∧ ScanOf n (fun b => Memory.read s.store (s.programBase + b.toNat)) a str ∧
      ∀ i, i ≤ str.length → i < n → scanInside s a i) ∨
    (∃ k, k < n ∧ (∀ i, i < k → scanInside s a i ∧
        Memory.read s.store (s.programBase + (a + BitVec.ofNat 16 i).toNat) ≠ 0) ∧ ¬scanInside s a k ∧
      progString s a n = .error (.storeRange (s.programBase + (a + BitVec.ofNat 16 k).toNat))) := by
  induction n generalizing a with
  | zero => exact .inl ⟨[], rfl, by simp [ScanOf], by omega⟩
  | succ n ih =>
    rcases progRead_cases s a with ⟨hin, e⟩ | ⟨hout, e⟩
    · by_cases hz : Memory.read s.store (s.programBase + a.toNat) = 0
      · refine .inl ⟨[], by simp [progString, e, hz], by simp [ScanOf, hz], fun i hi _ => ?_⟩
        obtain rfl : i = 0 := by simpa using hi
        simpa [scanInside] using hin
      · rcases ih (a + 1) with ⟨str, hs, ⟨h1, h2, h3⟩, h4⟩ | ⟨k, hk, h1, h2, hs⟩
        · refine .inl ⟨Memory.read s.store (s.programBase + a.toNat) :: str,
            by simp only [progString, e, if_neg hz, hs], ⟨?_, by simpa using h2, ?_⟩, ?_⟩
          · rintro (_ | i) hi
            · exact ⟨by simp, hz⟩
            · rw [scanAddr_succ]
              exact h1 i (by simpa using hi)
          · simp only [List.length_cons, scanAddr_succ]
            exact h3.imp (congrArg (· + 1)) id
          · rintro (_ | i) hi hn
            · simpa [scanInside] using hin
            · rw [scanInside, scanAddr_succ]
              exact h4 i (by simpa using hi) (by omega)
        · refine .inr ⟨k + 1, by omega, ?_, ?_, ?_⟩
          · rintro (_ | i) hi
            · simpa [scanInside] using ⟨hin, hz⟩
            · rw [scanInside, scanAddr_succ]
              exact h1 i (by omega)
          · rw [scanInside, scanAddr_succ]
            exact h2
          · simp only [progString, e, if_neg hz, hs, scanAddr_succ]
    · exact .inr ⟨0, by omega, by omega, by simpa [scanInside] using hout, by simp [progString, e]⟩

/-- A program-memory string stops only by a read beyond the Byte Store. -/
theorem progString_error (s : State) (a : Word) (n : Nat) (f : Fault) (h : progString s a n = .error f) :
    ∃ off : Word, s.params.storeSize ≤ s.programBase + off.toNat ∧ f = .storeRange (s.programBase + off.toNat) := by
  rcases progString_cases s a n with ⟨_, e, -⟩ | ⟨k, -, -, hk, e⟩
  · rw [e] at h
    cases h
  · rw [e] at h
    cases h
    exact ⟨_, Nat.le_of_not_lt hk, rfl⟩

/-- The description of a string determines it. -/
theorem scanOf_unique (limit : Nat) (read : Word → Byte) (a : Word) (x y : List Byte) (hx : ScanOf limit read a x)
    (hy : ScanOf limit read a y) : x = y := by
  have shorter : ∀ x y : List Byte, ScanOf limit read a x → ScanOf limit read a y → ¬x.length < y.length := by
    intro x y hx hy hlt
    rcases hx.2.2 with h | h
    · have := hy.2.1
      omega
    · obtain ⟨e, hne⟩ := hy.1 x.length hlt
      exact hne (e.trans h)
  have hxy := shorter x y hx hy
  have hyx := shorter y x hy hx
  refine List.ext_getElem (by omega) fun i h1 h2 => ?_
  rw [(hx.1 i h1).1, (hy.1 i h2).1]

/-! ## Buffers written into the data space -/

/-- SREG after a buffer that does not cover SREG_ADDR. -/
theorem writeBytes_sreg (s : State) (a : Word) (l : List Byte)
    (h : offBuffer a l.length s.params.sregAddr.toNat) : (writeBytes s a l).sreg = s.sreg := by
  induction l generalizing s a with
  | nil => rfl
  | cons v l ih =>
    have h0 := h 0 (by simp)
    have h1 : offBuffer (a + 1) l.length s.params.sregAddr.toNat := fun j hj => by
      have := h (j + 1) (by simpa using hj)
      rwa [scanAddr_succ] at this
    simp only [writeBytes]
    rw [ih _ _ (by simpa using h1), memWrite_sreg, if_neg (fun k => h0 (by simpa using congrArg BitVec.toNat k.2.2.2))]

/-! ## Answers -/

/-- Every operation but the two on program-memory strings answers. -/
theorem hostCall_ok (op : HostOp) (s : State) (h : op ≠ .printProgmem) (h' : op ≠ .printlnProgmem) :
    ∃ r, hostCall op s = .ok r := by
  cases op <;> first | exact ⟨_, rfl⟩ | exact absurd rfl h | exact absurd rfl h'

/-- A vector step stops only where its operation does. -/
theorem vectorStep_fault (op : HostOp) (s : State) (f : Fault) (h : vectorStep op s = .fault f) :
    ∃ off : Word, s.params.storeSize ≤ s.programBase + off.toNat ∧ f = .storeRange (s.programBase + off.toNat) := by
  simp only [vectorStep] at h
  split at h
  · rename_i g hg
    cases h
    cases op <;> simp only [hostCall, reduceCtorEq] at hg
    all_goals
      simp only [progStringReply] at hg
      split at hg
      · cases hg
        exact progString_error _ _ _ _ ‹_›
      · cases hg
  · cases h

theorem vectorStep_not_refused (op : HostOp) (s : State) (r : Refusal) : vectorStep op s ≠ .refused r := by
  simp only [vectorStep]
  split <;> simp

/-- A vector step that answers: the operation's answer applied, then the simulated return (48_syscall_vectors.md R272). -/
theorem vectorStep_next (op : HostOp) (s t : State) (h : vectorStep op s = .next t) :
    ∃ r, hostCall op s = .ok r ∧ t = returnFrom (applyReply (s.pair .r22) r s) := by
  simp only [vectorStep] at h
  split at h
  · cases h
  · cases h
    exact ⟨_, ‹_›, rfl⟩

theorem vectorStep_ok (op : HostOp) (s : State) (r : FileReply) (h : hostCall op s = .ok r) :
    vectorStep op s = .next (returnFrom (applyReply (s.pair .r22) r s)) := by
  simp [vectorStep, h]

/-- An answer leaves pc, program base, `running`, class and parameters. -/
theorem applyReply_control (b : Word) (r : FileReply) (s : State) :
    (applyReply b r s).pc = s.pc ∧ (applyReply b r s).programBase = s.programBase ∧
      (applyReply b r s).running = s.running ∧ (applyReply b r s).cls = s.cls ∧
      (applyReply b r s).params = s.params ∧ (applyReply b r s).store = r.store := by
  have k := writeBytes_keeps ((s.setHost r.host).setStore r.store) b r.buffer
  cases hr : r.result <;> simp [applyReply, writeResult, hr, k.programBase, k.running, k.cls, k.params, k.store]

end Sys2Proof.Machine
end

