-- ==== Sys2Proof/Tests/Slice0.lean ====
section
/-! SUPPORT. Tests: ill-formed terms, a written-out word for every constructor, single steps whose expected values are
rows of 95_test_vectors.md, and for every statement with hypotheses a witness that meets them. -/

namespace Sys2Proof.Tests

open Sys2Proof.Machine

-- One theorem after another: each `decide` waits for the kernel, and a thread for each would exhaust the memory.
set_option Elab.async false

/-! ## Ill-formed terms, one for each check (30_encoding.md R82, R84) -/

theorem test_ill_formed_add : wellFormed (.add 7 7) = false := by decide

theorem test_ill_formed_adc : wellFormed (.adc 31 31) = false := by decide

theorem test_ill_formed_cpi : wellFormed (.cpi 15 0x10) = false := by decide

theorem test_ill_formed_sbci : wellFormed (.sbci 0 0x10) = false := by decide

theorem test_ill_formed_subi : wellFormed (.subi 15 0x10) = false := by decide

theorem test_ill_formed_ori : wellFormed (.ori 1 0x10) = false := by decide

theorem test_ill_formed_andi : wellFormed (.andi 15 0x10) = false := by decide

theorem test_ill_formed_ldi : wellFormed (.ldi 15 0x10) = false := by decide

theorem test_ill_formed_rjmp : wellFormed (.rjmp 0xFFF) = false := by decide

/-! ## Decoding: one word for each constructor, bit by bit -/

/-- 30_encoding.md R88, rows 1 and 2: all bits fixed. -/
theorem test_decode_plain :
    decode 0b1100_1111_1111_1111 = .ok .halt ∧
    decode 0b0000_0000_0000_0000 = .ok .nop := by
  decide

/-- 30_encoding.md R88, rows 3 to 15, F-RR: d = 25 = 1_1001, r = 19 = 1_0011. -/
theorem test_decode_registers :
    decode 0b0000_0111_1001_0011 = .ok (.cpc 25 19) ∧
    decode 0b0000_1011_1001_0011 = .ok (.sbc 25 19) ∧
    decode 0b0000_1111_1001_1001 = .ok (.lsl 25) ∧
    decode 0b0000_1111_1001_0011 = .ok (.add 25 19) ∧
    decode 0b0001_0011_1001_0011 = .ok (.cpse 25 19) ∧
    decode 0b0001_0111_1001_0011 = .ok (.cp 25 19) ∧
    decode 0b0001_1011_1001_0011 = .ok (.sub 25 19) ∧
    decode 0b0001_1111_1001_1001 = .ok (.rol 25) ∧
    decode 0b0001_1111_1001_0011 = .ok (.adc 25 19) ∧
    decode 0b0010_0011_1001_0011 = .ok (.and 25 19) ∧
    decode 0b0010_0111_1001_0011 = .ok (.eor 25 19) ∧
    decode 0b0010_1011_1001_0011 = .ok (.or 25 19) ∧
    decode 0b0010_1111_1001_0011 = .ok (.mov 25 19) := by
  decide

/-- 30_encoding.md R88, rows 16 to 20, F-RI: d field 9 for r25, K = 0xA6. -/
theorem test_decode_immediates :
    decode 0b0011_1010_1001_0110 = .ok (.cpi 25 0xA6) ∧
    decode 0b0100_1010_1001_0110 = .ok (.sbci 25 0xA6) ∧
    decode 0b0101_1010_1001_0110 = .ok (.subi 25 0xA6) ∧
    decode 0b0110_1010_1001_0110 = .ok (.ori 25 0xA6) ∧
    decode 0b0111_1010_1001_0110 = .ok (.andi 25 0xA6) := by
  decide

/-- 30_encoding.md R88, rows 21 to 34, F-R1: d = 25. -/
theorem test_decode_loads :
    decode 0b1000_0001_1001_0000 = .ok (.ldZ 25) ∧
    decode 0b1000_0001_1001_1000 = .ok (.ldY 25) ∧
    decode 0b1000_0011_1001_0000 = .ok (.stZ 25) ∧
    decode 0b1000_0011_1001_1000 = .ok (.stY 25) ∧
    decode 0b1001_0001_1001_0001 = .ok (.ldZInc 25) ∧
    decode 0b1001_0001_1001_0010 = .ok (.ldZDec 25) ∧
    decode 0b1001_0001_1001_0100 = .ok (.lpm 25) ∧
    decode 0b1001_0001_1001_0101 = .ok (.lpmInc 25) ∧
    decode 0b1001_0001_1001_1001 = .ok (.ldYInc 25) ∧
    decode 0b1001_0001_1001_1010 = .ok (.ldYDec 25) ∧
    decode 0b1001_0001_1001_1100 = .ok (.ldX 25) ∧
    decode 0b1001_0001_1001_1101 = .ok (.ldXInc 25) ∧
    decode 0b1001_0001_1001_1110 = .ok (.ldXDec 25) ∧
    decode 0b1001_0001_1001_1111 = .ok (.pop 25) := by
  decide

/-- 30_encoding.md R88, rows 35 to 42, F-R1: r = 25. -/
theorem test_decode_stores :
    decode 0b1001_0011_1001_0001 = .ok (.stZInc 25) ∧
    decode 0b1001_0011_1001_0010 = .ok (.stZDec 25) ∧
    decode 0b1001_0011_1001_1001 = .ok (.stYInc 25) ∧
    decode 0b1001_0011_1001_1010 = .ok (.stYDec 25) ∧
    decode 0b1001_0011_1001_1100 = .ok (.stX 25) ∧
    decode 0b1001_0011_1001_1101 = .ok (.stXInc 25) ∧
    decode 0b1001_0011_1001_1110 = .ok (.stXDec 25) ∧
    decode 0b1001_0011_1001_1111 = .ok (.push 25) := by
  decide

/-- 30_encoding.md R88, rows 43 to 50, F-R1: d = 25. -/
theorem test_decode_one_operand :
    decode 0b1001_0101_1001_0000 = .ok (.com 25) ∧
    decode 0b1001_0101_1001_0001 = .ok (.neg 25) ∧
    decode 0b1001_0101_1001_0010 = .ok (.swap 25) ∧
    decode 0b1001_0101_1001_0011 = .ok (.inc 25) ∧
    decode 0b1001_0101_1001_0101 = .ok (.asr 25) ∧
    decode 0b1001_0101_1001_0110 = .ok (.lsr 25) ∧
    decode 0b1001_0101_1001_0111 = .ok (.ror 25) ∧
    decode 0b1001_0101_1001_1010 = .ok (.dec 25) := by
  decide

/-- 30_encoding.md R88, rows 51 and 52, F-S: s = 5. -/
theorem test_decode_status_bits :
    decode 0b1001_0100_0101_1000 = .ok (.bset 5) ∧
    decode 0b1001_0100_1101_1000 = .ok (.bclr 5) := by
  decide

/-- 30_encoding.md R88, rows 53 to 60, F-0. -/
theorem test_decode_fixed :
    decode 0b1001_0101_0000_1000 = .ok .ret ∧
    decode 0b1001_0101_0001_1000 = .ok .reti ∧
    decode 0b1001_0101_1000_1000 = .ok .sleep ∧
    decode 0b1001_0101_1001_1000 = .ok .brk ∧
    decode 0b1001_0101_1010_1000 = .ok .wdr ∧
    decode 0b1001_0101_1100_1000 = .ok .lpmR0 ∧
    decode 0b1001_0100_0000_1001 = .ok .ijmp ∧
    decode 0b1001_0101_0000_1001 = .ok .icall := by
  decide

/-- 30_encoding.md R88, rows 61 and 62, F-PI: p = 2, K = 41 = 10_1001. -/
theorem test_decode_word_immediates :
    decode 0b1001_0110_1010_1001 = .ok (.adiw 2 41) ∧
    decode 0b1001_0111_1010_1001 = .ok (.sbiw 2 41) := by
  decide

/-- 30_encoding.md R88, rows 63 to 66, F-AB: A = 22 = 1_0110, b = 5. -/
theorem test_decode_io_bits :
    decode 0b1001_1000_1011_0101 = .ok (.cbi 22 5) ∧
    decode 0b1001_1001_1011_0101 = .ok (.sbic 22 5) ∧
    decode 0b1001_1010_1011_0101 = .ok (.sbi 22 5) ∧
    decode 0b1001_1011_1011_0101 = .ok (.sbis 22 5) := by
  decide

/-- 30_encoding.md R88, rows 67 and 68, F-IO: d = 25, A = 41 = 10_1001. -/
theorem test_decode_io :
    decode 0b1011_0101_1001_1001 = .ok (.inp 25 41) ∧
    decode 0b1011_1101_1001_1001 = .ok (.out 41 25) := by
  decide

/-- 30_encoding.md R88, rows 69 and 70, F-K12: k = 0xA07. -/
theorem test_decode_relative :
    decode 0b1100_1010_0000_0111 = .ok (.rjmp 0xA07) ∧
    decode 0b1101_1010_0000_0111 = .ok (.rcall 0xA07) := by
  decide

/-- 30_encoding.md R88, row 71, F-RI: d field 9, K = 0xA6. -/
theorem test_decode_ldi :
    decode 0b1110_1010_1001_0110 = .ok (.ldi 25 0xA6) := by
  decide

/-- 30_encoding.md R88, rows 72 and 73, F-BR: k = 101_0011, s = 5. -/
theorem test_decode_branches :
    decode 0b1111_0010_1001_1101 = .ok (.brbs 5 0x53) ∧
    decode 0b1111_0110_1001_1101 = .ok (.brbc 5 0x53) := by
  decide

/-- 30_encoding.md R88, rows 74 to 77, F-RB: d = 25, b = 5. -/
theorem test_decode_register_bits :
    decode 0b1111_1001_1001_0101 = .ok (.bld 25 5) ∧
    decode 0b1111_1011_1001_0101 = .ok (.bst 25 5) ∧
    decode 0b1111_1101_1001_0101 = .ok (.sbrc 25 5) ∧
    decode 0b1111_1111_1001_0101 = .ok (.sbrs 25 5) := by
  decide

/-! ## Words that match no row, and short byte lists -/

/-- 30_encoding.md R86: reserved words, movw, ldd, lds, jmp, des, eijmp, spm, mul, and w[3] = 1 of F-RB. -/
theorem test_decode_unknown :
    [0x0001, 0x0100, 0x8009, 0x9100, 0x940C, 0x940B, 0x9419, 0x95E8, 0x9C00, 0xFF08].map decode =
      [0x0001, 0x0100, 0x8009, 0x9100, 0x940C, 0x940B, 0x9419, 0x95E8, 0x9C00, 0xFF08].map
        (fun w => .error (.unknownWord w)) := by
  decide

theorem test_decode_bytes :
    decodeBytes [0x0A, 0x95, 0x77] = .ok (.dec 16, [0x77]) ∧ decodeBytes [0x0A] = .error .truncated ∧
      decodeTableWord 16 0x950A = some (.dec 16) ∧ decodeTableWord 16 0x940C = none := by
  decide

/-! ## Single steps -/

/-- Reset with SREG, registers, data bytes, program bytes, pc and SP set, and a word at pc. -/
def start (w : Nat) (sreg : Byte) (regs : List (Reg × Byte)) (data : List (Word × Byte) := [])
    (program : List Host.Cell := []) (pc : Word := 0x40) (sp : Word := 0xDF) : State :=
  let s := data.foldl (fun s p => memWrite s p.1 p.2) State.reset
  let s := regs.foldl (fun s p => s.setReg p.1 p.2) s
  let s := ((s.setSreg sreg).setPc pc).setSp sp
  (s.setStore (storeWrites s.params.storeSize s.store program)).withFetchWord 16 w

/-- What one step leaves, as far as a test looks. -/
def after {α : Type} (s : State) (look : State → α) : Option α :=
  match step s with
  | .next t => some (look t)
  | .fault _ | .refused _ => none

/-- The address a step stops at. -/
def stoppedAt (s : State) : Option Nat :=
  match step s with
  | .fault (.storeRange a) => some a
  | .next _ | .refused _ => none

/-! The rows of 95_test_vectors.md T4. -/

theorem test_step_halt :
    after (start 0xCFFF 0x00 [] [] [] 0x00) (fun t => (t.sreg, t.pc, t.cls, t.running)) =
      some (0x00, 0x00, some .halted, false) := by decide

theorem test_step_nop_1 :
    after (start 0x0000 0xFF [(5, 0x55)]) (fun t => (t.reg 5, t.sreg, t.pc)) =
      some (0x55, 0xFF, 0x42) := by decide

theorem test_step_nop_2 :
    after (start 0x0000 0x00 [] [] [] 0xFFFE) (fun t => (t.sreg, t.pc)) =
      some (0x00, 0x00) := by decide

theorem test_step_cpc_1 :
    after (start 0x0713 0x00 [(17, 0x12), (19, 0x12)]) (fun t => (t.reg 17, t.sreg, t.pc)) =
      some (0x12, 0x00, 0x42) := by decide

theorem test_step_cpc_2 :
    after (start 0x0713 0x03 [(17, 0x12), (19, 0x11)]) (fun t => (t.reg 17, t.sreg, t.pc)) =
      some (0x12, 0x02, 0x42) := by decide

theorem test_step_sbc_1 :
    after (start 0x0B01 0x00 [(16, 0x05), (17, 0x05)]) (fun t => (t.reg 16, t.sreg, t.pc)) =
      some (0x00, 0x00, 0x42) := by decide

theorem test_step_sbc_2 :
    after (start 0x0B01 0x01 [(16, 0x00), (17, 0xFF)]) (fun t => (t.reg 16, t.sreg, t.pc)) =
      some (0x00, 0x21, 0x42) := by decide

theorem test_step_lsl :
    after (start 0x0F00 0x00 [(16, 0x88)]) (fun t => (t.reg 16, t.sreg, t.pc)) =
      some (0x10, 0x39, 0x42) := by decide

theorem test_step_add_1 :
    after (start 0x0F01 0x00 [(16, 0x7F), (17, 0x01)]) (fun t => (t.reg 16, t.sreg, t.pc)) =
      some (0x80, 0x2C, 0x42) := by decide

theorem test_step_add_2 :
    after (start 0x0F01 0xC0 [(16, 0x0F), (17, 0x01)]) (fun t => (t.reg 16, t.sreg, t.pc)) =
      some (0x10, 0xE0, 0x42) := by decide

theorem test_step_cpse_1 :
    after (start 0x1301 0x00 [(16, 0xAA), (17, 0xAA)]) (fun t => (t.sreg, t.pc)) =
      some (0x00, 0x44) := by decide

theorem test_step_cpse_2 :
    after (start 0x1301 0x00 [(16, 0xAA), (17, 0xAB)]) (fun t => (t.sreg, t.pc)) =
      some (0x00, 0x42) := by decide

theorem test_step_cp_1 :
    after (start 0x1701 0x00 [(16, 0x05), (17, 0x06)]) (fun t => (t.reg 16, t.sreg, t.pc)) =
      some (0x05, 0x35, 0x42) := by decide

theorem test_step_cp_2 :
    after (start 0x1701 0x00 [(16, 0x80), (17, 0x01)]) (fun t => (t.reg 16, t.sreg, t.pc)) =
      some (0x80, 0x38, 0x42) := by decide

theorem test_step_sub_1 :
    after (start 0x1B01 0x00 [(16, 0x00), (17, 0x01)]) (fun t => (t.reg 16, t.sreg, t.pc)) =
      some (0xFF, 0x35, 0x42) := by decide

theorem test_step_sub_2 :
    after (start 0x1B01 0x00 [(16, 0x80), (17, 0x01)]) (fun t => (t.reg 16, t.sreg, t.pc)) =
      some (0x7F, 0x38, 0x42) := by decide

theorem test_step_rol :
    after (start 0x1F00 0x01 [(16, 0x80)]) (fun t => (t.reg 16, t.sreg, t.pc)) =
      some (0x01, 0x19, 0x42) := by decide

theorem test_step_adc_1 :
    after (start 0x1F01 0x01 [(16, 0xFF), (17, 0x00)]) (fun t => (t.reg 16, t.sreg, t.pc)) =
      some (0x00, 0x23, 0x42) := by decide

theorem test_step_adc_2 :
    after (start 0x1F01 0x01 [(16, 0x7F), (17, 0x00)]) (fun t => (t.reg 16, t.sreg, t.pc)) =
      some (0x80, 0x2C, 0x42) := by decide

theorem test_step_and :
    after (start 0x2301 0x29 [(16, 0xF0), (17, 0x3C)]) (fun t => (t.reg 16, t.sreg, t.pc)) =
      some (0x30, 0x21, 0x42) := by decide

theorem test_step_eor :
    after (start 0x2700 0x1D [(16, 0xA7)]) (fun t => (t.reg 16, t.sreg, t.pc)) =
      some (0x00, 0x03, 0x42) := by decide

theorem test_step_or :
    after (start 0x2B01 0x08 [(16, 0x80), (17, 0x01)]) (fun t => (t.reg 16, t.sreg, t.pc)) =
      some (0x81, 0x14, 0x42) := by decide

theorem test_step_mov :
    after (start 0x2E1F 0xFF [(31, 0x9C), (1, 0x00)]) (fun t => (t.reg 1, t.reg 31, t.sreg, t.pc)) =
      some (0x9C, 0x9C, 0xFF, 0x42) := by decide

theorem test_step_cpi :
    after (start 0x3800 0x00 [(16, 0x7F)]) (fun t => (t.reg 16, t.sreg, t.pc)) =
      some (0x7F, 0x0D, 0x42) := by decide

theorem test_step_sbci_1 :
    after (start 0x4010 0x02 [(17, 0x00)]) (fun t => (t.reg 17, t.sreg, t.pc)) =
      some (0x00, 0x02, 0x42) := by decide

theorem test_step_sbci_2 :
    after (start 0x4810 0x01 [(17, 0x80)]) (fun t => (t.reg 17, t.sreg, t.pc)) =
      some (0xFF, 0x35, 0x42) := by decide

theorem test_step_subi :
    after (start 0x5100 0x00 [(16, 0x0F)]) (fun t => (t.reg 16, t.sreg, t.pc)) =
      some (0xFF, 0x15, 0x42) := by decide

theorem test_step_ori :
    after (start 0x6080 0x21 [(24, 0x00)]) (fun t => (t.reg 24, t.sreg, t.pc)) =
      some (0x00, 0x23, 0x42) := by decide

theorem test_step_andi :
    after (start 0x78F0 0x08 [(31, 0xFF)]) (fun t => (t.reg 31, t.sreg, t.pc)) =
      some (0x80, 0x14, 0x42) := by decide

theorem test_step_ldZ :
    after (start 0x8030 0x00 [(30, 0xE0), (31, 0x00)]) (fun t => (t.reg 3, t.sreg, t.pc)) =
      some (0x00, 0x00, 0x42) := by decide

theorem test_step_ldY_1 :
    after (start 0x8008 0xA5 [(28, 0x5F), (29, 0x00)]) (fun t => (t.reg 0, t.sreg, t.pc)) =
      some (0xA5, 0xA5, 0x42) := by decide

theorem test_step_ldY_2 :
    after (start 0x8008 0x00 [(28, 0x5E), (29, 0x00)] [] [] 0x40 0xFFC1) (fun t => (t.reg 0, t.sreg, t.pc, t.sp)) =
      some (0x03, 0x00, 0x42, 0xFFC1) := by decide

theorem test_step_stZ :
    after (start 0x8200 0x00 [(30, 0x2C), (31, 0x00), (0, 0x48)]) (fun t => (t.sreg, t.pc, t.host.serial)) =
      some (0x00, 0x42, [0x48]) := by decide

theorem test_step_stY_1 :
    after (start 0x8308 0x00 [(28, 0x5E), (29, 0x00), (16, 0xFF)]) (fun t => (t.sreg, t.pc, t.sp)) =
      some (0x00, 0x42, 0x3DF) := by decide

theorem test_step_stY_2 :
    after (start 0x8308 0x00 [(28, 0x5F), (29, 0x00), (16, 0x81)]) (fun t => (t.sreg, t.pc)) =
      some (0x81, 0x42) := by decide

theorem test_step_ldZInc :
    after (start 0x9031 0x00 [(30, 0xFF), (31, 0xFF), (3, 0x44)]) (fun t => (t.reg 3, t.reg 30, t.reg 31, t.sreg, t.pc)) =
      some (0x00, 0x00, 0x00, 0x00, 0x42) := by decide

theorem test_step_ldZDec :
    after (start 0x9032 0x00 [(30, 0x1A), (31, 0x00), (25, 0x42)]) (fun t => (t.reg 3, t.reg 30, t.reg 31, t.sreg, t.pc)) =
      some (0x42, 0x19, 0x00, 0x00, 0x42) := by decide

theorem test_step_lpm_1 :
    after (start 0x9104 0x00 [(30, 0x81), (31, 0x00)] [] [(0x81, 0x69)]) (fun t => (t.reg 16, t.sreg, t.pc)) =
      some (0x69, 0x00, 0x42) := by decide

theorem test_step_lpm_2 :
    after (start 0x9104 0x00 [(30, 0x60), (31, 0x00)] [(0x60, 0xEE)]) (fun t => (t.reg 16, t.sreg, t.pc)) =
      some (0x00, 0x00, 0x42) := by decide

theorem test_step_lpmInc_1 :
    after (start 0x9105 0x00 [(30, 0xFF), (31, 0x00)] [] [(0xFF, 0x9C)]) (fun t => (t.reg 16, t.reg 30, t.reg 31, t.sreg, t.pc)) =
      some (0x9C, 0x00, 0x01, 0x00, 0x42) := by decide

theorem test_step_lpmInc_2 :
    after (start 0x91F5 0x00 [(30, 0x80), (31, 0x00)] [] [(0x80, 0x48)]) (fun t => (t.reg 30, t.reg 31, t.sreg, t.pc)) =
      some (0x81, 0x48, 0x00, 0x42) := by decide

theorem test_step_ldYInc :
    after (start 0x9029 0x00 [(28, 0x10), (29, 0x00), (16, 0xEE)]) (fun t => (t.reg 2, t.reg 28, t.reg 29, t.sreg, t.pc)) =
      some (0xEE, 0x11, 0x00, 0x00, 0x42) := by decide

theorem test_step_ldYDec :
    after (start 0x902A 0x00 [(28, 0x80), (29, 0x00)] [(0x7F, 0x99)]) (fun t => (t.reg 2, t.reg 28, t.reg 29, t.sreg, t.pc)) =
      some (0x99, 0x7F, 0x00, 0x00, 0x42) := by decide

theorem test_step_ldX :
    after (start 0x910C 0x00 [(26, 0x60), (27, 0x00)] [(0x60, 0x5A)]) (fun t => (t.reg 16, t.reg 26, t.reg 27, t.sreg, t.pc)) =
      some (0x5A, 0x60, 0x00, 0x00, 0x42) := by decide

theorem test_step_ldXInc_1 :
    after (start 0x910D 0x00 [(26, 0xDF), (27, 0x00)] [(0xDF, 0x77)]) (fun t => (t.reg 16, t.reg 26, t.reg 27, t.sreg, t.pc)) =
      some (0x77, 0xE0, 0x00, 0x00, 0x42) := by decide

theorem test_step_ldXInc_2 :
    after (start 0x91BD 0x00 [(26, 0xFF), (27, 0x00)]) (fun t => (t.reg 26, t.reg 27, t.sreg, t.pc)) =
      some (0x00, 0x00, 0x00, 0x42) := by decide

theorem test_step_ldXDec_1 :
    after (start 0x910E 0x00 [(26, 0x00), (27, 0x00)]) (fun t => (t.reg 16, t.reg 26, t.reg 27, t.sreg, t.pc)) =
      some (0x00, 0xFF, 0xFF, 0x00, 0x42) := by decide

theorem test_step_ldXDec_2 :
    after (start 0x91AE 0x00 [(26, 0x61), (27, 0x00)] [(0x60, 0xAA)]) (fun t => (t.reg 26, t.reg 27, t.sreg, t.pc)) =
      some (0xAA, 0x00, 0x00, 0x42) := by decide

theorem test_step_pop :
    after (start 0x910F 0x00 [] [(0xDF, 0xCD)] [] 0x40 0xDE) (fun t => (t.reg 16, t.sreg, t.pc, t.sp)) =
      some (0xCD, 0x00, 0x42, 0xDF) := by decide

theorem test_step_stZInc :
    after (start 0x9201 0x00 [(30, 0xFF), (31, 0x00), (0, 0x48)]) (fun t => (t.reg 30, t.reg 31, t.sreg, t.pc)) =
      some (0x00, 0x01, 0x00, 0x42) := by decide

theorem test_step_stZDec :
    after (start 0x9202 0x00 [(30, 0x61), (31, 0x00), (0, 0x48)]) (fun t => (t.reg 30, t.reg 31, memRead t 0x60, t.sreg, t.pc)) =
      some (0x60, 0x00, 0x48, 0x00, 0x42) := by decide

theorem test_step_stYInc :
    after (start 0x9319 0x00 [(28, 0x05), (29, 0x00), (17, 0xC3)]) (fun t => (t.reg 5, t.reg 28, t.reg 29, t.sreg, t.pc)) =
      some (0xC3, 0x06, 0x00, 0x00, 0x42) := by decide

theorem test_step_stYDec :
    after (start 0x931A 0x00 [(28, 0x00), (29, 0x00), (17, 0xC3)]) (fun t => (t.reg 28, t.reg 29, t.sreg, t.pc)) =
      some (0xFF, 0xFF, 0x00, 0x42) := by decide

theorem test_step_stX_1 :
    after (start 0x930C 0x00 [(26, 0x60), (27, 0x00), (16, 0x5A)]) (fun t => (t.reg 26, t.reg 27, memRead t 0x60, t.sreg, t.pc)) =
      some (0x60, 0x00, 0x5A, 0x00, 0x42) := by decide

theorem test_step_stX_2 :
    after (start 0x921C 0x00 [(26, 0x1B), (27, 0x00), (1, 0x77)]) (fun t => (t.reg 26, t.reg 27, t.sreg, t.pc)) =
      some (0x1B, 0x77, 0x00, 0x42) := by decide

theorem test_step_stXInc_1 :
    after (start 0x930D 0x00 [(26, 0xDF), (27, 0x00), (16, 0x5A)]) (fun t => (t.reg 26, t.reg 27, memRead t 0xDF, t.sreg, t.pc)) =
      some (0xE0, 0x00, 0x5A, 0x00, 0x42) := by decide

theorem test_step_stXInc_2 :
    after (start 0x93AD 0x00 [(26, 0x60), (27, 0x00)]) (fun t => (t.reg 26, t.reg 27, memRead t 0x60, t.sreg, t.pc)) =
      some (0x61, 0x00, 0x60, 0x00, 0x42) := by decide

theorem test_step_stXDec_1 :
    after (start 0x930E 0x00 [(26, 0xE0), (27, 0x00), (16, 0x5A)]) (fun t => (t.reg 26, t.reg 27, memRead t 0xDF, t.sreg, t.pc)) =
      some (0xDF, 0x00, 0x5A, 0x00, 0x42) := by decide

theorem test_step_stXDec_2 :
    after (start 0x93AE 0x00 [(26, 0x61), (27, 0x00)]) (fun t => (t.reg 26, t.reg 27, memRead t 0x60, t.sreg, t.pc)) =
      some (0x60, 0x00, 0x61, 0x00, 0x42) := by decide

theorem test_step_push :
    after (start 0x930F 0x00 [(16, 0xAB)] [] [] 0x40 0xDF) (fun t => (memRead t 0xDF, t.sreg, t.pc, t.sp)) =
      some (0xAB, 0x00, 0x42, 0xDE) := by decide

theorem test_step_com :
    after (start 0x9500 0x08 [(16, 0xFF)]) (fun t => (t.reg 16, t.sreg, t.pc)) =
      some (0x00, 0x03, 0x42) := by decide

theorem test_step_neg_1 :
    after (start 0x9501 0x00 [(16, 0x80)]) (fun t => (t.reg 16, t.sreg, t.pc)) =
      some (0x80, 0x0D, 0x42) := by decide

theorem test_step_neg_2 :
    after (start 0x9501 0x3F [(16, 0x00)]) (fun t => (t.reg 16, t.sreg, t.pc)) =
      some (0x00, 0x02, 0x42) := by decide

theorem test_step_swap :
    after (start 0x9502 0x3F [(16, 0xA5)]) (fun t => (t.reg 16, t.sreg, t.pc)) =
      some (0x5A, 0x3F, 0x42) := by decide

theorem test_step_inc_1 :
    after (start 0x9503 0x01 [(16, 0x7F)]) (fun t => (t.reg 16, t.sreg, t.pc)) =
      some (0x80, 0x0D, 0x42) := by decide

theorem test_step_inc_2 :
    after (start 0x9503 0x21 [(16, 0xFF)]) (fun t => (t.reg 16, t.sreg, t.pc)) =
      some (0x00, 0x23, 0x42) := by decide

theorem test_step_asr :
    after (start 0x9505 0x00 [(16, 0x81)]) (fun t => (t.reg 16, t.sreg, t.pc)) =
      some (0xC0, 0x15, 0x42) := by decide

theorem test_step_lsr :
    after (start 0x9506 0x00 [(16, 0x01)]) (fun t => (t.reg 16, t.sreg, t.pc)) =
      some (0x00, 0x1B, 0x42) := by decide

theorem test_step_ror :
    after (start 0x9507 0x01 [(16, 0x01)]) (fun t => (t.reg 16, t.sreg, t.pc)) =
      some (0x80, 0x15, 0x42) := by decide

theorem test_step_dec_1 :
    after (start 0x950A 0x00 [(16, 0x80)]) (fun t => (t.reg 16, t.sreg, t.pc)) =
      some (0x7F, 0x18, 0x42) := by decide

theorem test_step_dec_2 :
    after (start 0x950A 0x01 [(16, 0x01)]) (fun t => (t.reg 16, t.sreg, t.pc)) =
      some (0x00, 0x03, 0x42) := by decide

theorem test_step_bset :
    after (start 0x9478 0x02 []) (fun t => (t.sreg, t.pc)) =
      some (0x82, 0x42) := by decide

theorem test_step_bclr :
    after (start 0x9488 0xFF []) (fun t => (t.sreg, t.pc)) =
      some (0xFE, 0x42) := by decide

theorem test_step_ret_1 :
    after (start 0x9508 0x00 [] [(0xDE, 0x12), (0xDF, 0x34)] [] 0x40 0xDD) (fun t => (t.sreg, t.pc, t.sp, t.cls)) =
      some (0x00, 0x1234, 0xDF, some .ret) := by decide

theorem test_step_ret_2 :
    after (start 0x9508 0x00 [] [] [] 0x40 0xDF) (fun t => (t.sreg, t.pc, t.sp, t.cls)) =
      some (0x00, 0x00, 0xE1, some .ret) := by decide

theorem test_step_reti :
    after (start 0x9518 0x01 [] [(0xDE, 0x01), (0xDF, 0x00)] [] 0x40 0xDD) (fun t => (t.sreg, t.pc, t.sp, t.cls)) =
      some (0x81, 0x100, 0xDF, some .ret) := by decide

theorem test_step_sleep :
    after (start 0x9588 0xA5 [(5, 0x55)]) (fun t => (t.reg 5, t.sreg, t.pc)) =
      some (0x55, 0xA5, 0x42) := by decide

theorem test_step_brk :
    after (start 0x9598 0x80 []) (fun t => (t.sreg, t.pc)) =
      some (0x80, 0x42) := by decide

theorem test_step_wdr :
    after (start 0x95A8 0x00 []) (fun t => (t.sreg, t.pc)) =
      some (0x00, 0x42) := by decide

theorem test_step_lpmR0 :
    after (start 0x95C8 0x00 [(30, 0x80), (31, 0x00)] [] [(0x80, 0x48)]) (fun t => (t.reg 0, t.reg 30, t.reg 31, t.sreg, t.pc)) =
      some (0x48, 0x80, 0x00, 0x00, 0x42) := by decide

theorem test_step_ijmp :
    after (start 0x9409 0x00 [(30, 0x00), (31, 0x80)]) (fun t => (t.sreg, t.pc)) =
      some (0x00, 0x00) := by decide

theorem test_step_icall :
    after (start 0x9509 0x00 [(30, 0x01), (31, 0x00)]) (fun t => ((memRead t 0xDF, memRead t 0xDE, t.sreg), t.pc, t.sp, t.cls)) =
      some ((0x42, 0x00, 0x00), 0x02, 0xDD, some .call) := by decide

theorem test_step_adiw_1 :
    after (start 0x96DF 0x00 [(26, 0xC1), (27, 0xFF)]) (fun t => (t.reg 26, t.reg 27, t.sreg, t.pc)) =
      some (0x00, 0x00, 0x03, 0x42) := by decide

theorem test_step_adiw_2 :
    after (start 0x9621 0x00 [(28, 0xFF), (29, 0x7F)]) (fun t => (t.reg 28, t.reg 29, t.sreg, t.pc)) =
      some (0x00, 0x80, 0x0C, 0x42) := by decide

theorem test_step_sbiw_1 :
    after (start 0x9701 0x00 [(24, 0x00), (25, 0x00)]) (fun t => (t.reg 24, t.reg 25, t.sreg, t.pc)) =
      some (0xFF, 0xFF, 0x15, 0x42) := by decide

theorem test_step_sbiw_2 :
    after (start 0x9721 0x00 [(28, 0x00), (29, 0x80)]) (fun t => (t.reg 28, t.reg 29, t.sreg, t.pc)) =
      some (0xFF, 0x7F, 0x18, 0x42) := by decide

theorem test_step_cbi :
    after (start 0x9860 0x00 []) (fun t => (t.sreg, t.pc, t.host.serial)) =
      some (0x00, 0x42, [0x00]) := by decide

theorem test_step_sbic :
    after (start 0x9960 0x00 []) (fun t => (t.sreg, t.pc)) =
      some (0x00, 0x44) := by decide

theorem test_step_sbi :
    after (start 0x9A66 0x00 []) (fun t => (t.sreg, t.pc, t.host.serial)) =
      some (0x00, 0x42, [0x40]) := by decide

theorem test_step_sbis :
    after (start 0x9B60 0x00 []) (fun t => (t.sreg, t.pc)) =
      some (0x00, 0x42) := by decide

theorem test_step_inp :
    after (start 0xB70F 0xA5 []) (fun t => (t.reg 16, t.sreg, t.pc)) =
      some (0xA5, 0xA5, 0x42) := by decide

theorem test_step_out :
    after (start 0xBF0F 0x00 [(16, 0xFF)]) (fun t => (t.sreg, t.pc)) =
      some (0xFF, 0x42) := by decide

theorem test_step_rjmp_1 :
    after (start 0xCFFE 0x00 []) (fun t => (t.sreg, t.pc)) =
      some (0x00, 0x3E) := by decide

theorem test_step_rjmp_2 :
    after (start 0xC800 0x00 []) (fun t => (t.sreg, t.pc)) =
      some (0x00, 0xF042) := by decide

theorem test_step_rcall_1 :
    after (start 0xDFF1 0x00 [] [] [] 0x1E) (fun t => ((memRead t 0xDF, memRead t 0xDE, t.sreg), t.pc, t.sp, t.cls)) =
      some ((0x20, 0x00, 0x00), 0x02, 0xDD, some .call) := by decide

theorem test_step_rcall_2 :
    after (start 0xD000 0x00 [] [] [] 0x40 0x60) (fun t => ((memRead t 0x60, memRead t 0x5F, t.sreg), t.pc, t.sp, t.cls)) =
      some ((0x42, 0x00, 0x00), 0x42, 0x5E, some .call) := by decide

theorem test_step_ldi :
    after (start 0xE481 0x02 []) (fun t => (t.reg 24, t.sreg, t.pc)) =
      some (0x41, 0x02, 0x42) := by decide

theorem test_step_brbs_1 :
    after (start 0xF011 0x02 []) (fun t => (t.sreg, t.pc)) =
      some (0x02, 0x46) := by decide

theorem test_step_brbs_2 :
    after (start 0xF207 0x80 [] [] [] 0x100) (fun t => (t.sreg, t.pc)) =
      some (0x80, 0x82) := by decide

theorem test_step_brbc_1 :
    after (start 0xF7E9 0x02 []) (fun t => (t.sreg, t.pc)) =
      some (0x02, 0x42) := by decide

theorem test_step_brbc_2 :
    after (start 0xF7FE 0x00 []) (fun t => (t.sreg, t.pc)) =
      some (0x00, 0x40) := by decide

theorem test_step_bld_1 :
    after (start 0xF907 0x40 [(16, 0x00)]) (fun t => (t.reg 16, t.sreg, t.pc)) =
      some (0x80, 0x40, 0x42) := by decide

theorem test_step_bld_2 :
    after (start 0xF900 0x00 [(16, 0xFF)]) (fun t => (t.reg 16, t.sreg, t.pc)) =
      some (0xFE, 0x00, 0x42) := by decide

theorem test_step_bst_1 :
    after (start 0xFB03 0x00 [(16, 0x08)]) (fun t => (t.reg 16, t.sreg, t.pc)) =
      some (0x08, 0x40, 0x42) := by decide

theorem test_step_bst_2 :
    after (start 0xFB03 0xFF [(16, 0xF7)]) (fun t => (t.reg 16, t.sreg, t.pc)) =
      some (0xF7, 0xBF, 0x42) := by decide

theorem test_step_sbrc_1 :
    after (start 0xFD00 0x00 [(16, 0xFE)]) (fun t => (t.sreg, t.pc)) =
      some (0x00, 0x44) := by decide

theorem test_step_sbrc_2 :
    after (start 0xFD00 0x00 [(16, 0x01)]) (fun t => (t.sreg, t.pc)) =
      some (0x00, 0x42) := by decide

theorem test_step_sbrs_1 :
    after (start 0xFF07 0x00 [(16, 0x80)]) (fun t => (t.sreg, t.pc)) =
      some (0x00, 0x44) := by decide

theorem test_step_sbrs_2 :
    after (start 0xFF07 0x00 [(16, 0x7F)]) (fun t => (t.sreg, t.pc)) =
      some (0x00, 0x42) := by decide

/-- 95_test_vectors.md T4, the unknown word of jmp. -/
theorem test_step_unknown :
    after (start 0x940C 0x2A [(16, 0x11)]) (fun t => (t.reg 16, t.sreg, t.pc, t.cls, t.running)) =
      some (0x11, 0x2A, 0x42, some .unknown, false) := by decide

/-! ## Vector steps, the rows of 95_test_vectors.md T5 and T6 -/

/-- A state about to take a vector step: the return offset 0x0020 on the stack. -/
def atVector (pc : Word) (regs : List (Reg × Byte)) (data : List (Word × Byte) := [])
    (program : List Host.Cell := []) : State :=
  start 0x0000 0x00 regs (data ++ [(0xDE, 0x00), (0xDF, 0x20)]) program pc 0xDD

/-- The bytes of "a.txt" at 0x60. -/
def nameAt60 : List (Word × Byte) := [(0x60, 0x61), (0x61, 0x2E), (0x62, 0x74), (0x63, 0x78), (0x64, 0x74)]

/-- The file a.txt holding WXYZ. -/
def aTxt : FileEntry := ⟨[0x61, 0x2E, 0x74, 0x78, 0x74], 4, [0x57, 0x58, 0x59, 0x5A]⟩

/-- The state with a.txt in the host and handle 0 open on it. -/
def withOpenFile (s : State) (cursor : Nat) (mode : OpenMode) : State :=
  s.setHost { s.host with files := [aTxt], slots := [some ⟨0, 4, cursor, mode⟩, none, none, none] }

theorem test_vector_write_char :
    after (atVector 0x02 [(24, 0x48)]) (fun t => (t.host.serial, t.pc, t.sp, t.cls)) =
      some ([0x48], 0x20, 0xDF, some .ret) := by decide

theorem test_vector_print_ram :
    after (atVector 0x04 [(24, 0x60)] [(0x60, 0x4F), (0x61, 0x4B)]) (fun t => (t.host.serial, t.pc)) =
      some ([0x4F, 0x4B], 0x20) := by decide

theorem test_vector_print_progmem :
    after (atVector 0x06 [(24, 0x28)] [] [(0x28, 0x48), (0x29, 0x69)]) (fun t => (t.host.serial, t.pc)) =
      some ([0x48, 0x69], 0x20) := by decide

theorem test_vector_println_ram :
    after (atVector 0x08 [(24, 0x60)] [(0x60, 0x4F), (0x61, 0x4B)]) (fun t => (t.host.serial, t.pc)) =
      some ([0x4F, 0x4B, 0x0D, 0x0A], 0x20) := by decide

theorem test_vector_println_progmem :
    after (atVector 0x0A [(24, 0x28)] [] [(0x28, 0x48), (0x29, 0x69)]) (fun t => (t.host.serial, t.pc)) =
      some ([0x48, 0x69, 0x0D, 0x0A], 0x20) := by decide

theorem test_vector_file_open_creates :
    after (atVector 0x0C [(24, 0x60), (22, 0x01)] nameAt60) (fun t => (t.reg 24, t.reg 25, t.host.files, t.pc)) =
      some (0x00, 0x00, [⟨aTxt.name, 0, []⟩], 0x20) := by decide

theorem test_vector_file_open_no_such_file :
    after (atVector 0x0C [(24, 0x60), (22, 0x00)] nameAt60) (fun t => (t.reg 24, t.reg 25, t.host.files)) =
      some (0xFF, 0x00, []) := by decide

theorem test_vector_file_name :
    after (withOpenFile (atVector 0x0E [(24, 0x00), (25, 0x55), (22, 0x70)] [(0x75, 0xEE)]) 0 .read)
        (fun t => (t.reg 24, t.reg 25, readBytes t 0x70 6)) =
      some (0x05, 0x55, [0x61, 0x2E, 0x74, 0x78, 0x74, 0x00]) := by decide

theorem test_vector_file_size :
    after (withOpenFile (atVector 0x10 [(25, 0x55)]) 0 .read) (fun t => (t.reg 24, t.reg 25)) =
      some (0x04, 0x00) := by decide

theorem test_vector_file_position :
    after (withOpenFile (atVector 0x12 [(25, 0x55)]) 3 .read) (fun t => (t.reg 24, t.reg 25)) =
      some (0x03, 0x00) := by decide

theorem test_vector_file_seek :
    after (withOpenFile (atVector 0x14 [(25, 0x55), (22, 0x04)]) 0 .read)
        (fun t => (t.reg 24, t.reg 25, t.host.slots.head?)) =
      some (0x01, 0x55, some (some ⟨0, 4, 4, .read⟩)) := by decide

theorem test_vector_file_seek_past_size :
    after (withOpenFile (atVector 0x14 [(22, 0x05)]) 0 .read) (fun t => (t.reg 24, t.host.slots.head?)) =
      some (0x00, some (some ⟨0, 4, 0, .read⟩)) := by decide

theorem test_vector_file_read :
    after (withOpenFile (atVector 0x16 [(22, 0x80), (20, 0x02)]) 1 .read)
        (fun t => (t.reg 24, t.reg 25, readBytes t 0x80 3)) =
      some (0x02, 0x00, [0x58, 0x59, 0x00]) := by decide

theorem test_vector_file_read_over_the_registers :
    after (withOpenFile (atVector 0x16 [(22, 0x17), (20, 0x04), (26, 0x11)]) 0 .read)
        (fun t => (t.reg 23, t.reg 24, t.reg 25, t.reg 26)) =
      some (0x57, 0x04, 0x00, 0x5A) := by decide

/-- The last component: the first byte written, in the Byte Store when the step ends (70_reset_and_hazards.md R334). -/
theorem test_vector_file_write :
    after (withOpenFile (atVector 0x18 [(22, 0x60), (20, 0xFF), (21, 0xFF)] nameAt60) 4 .append)
        (fun t => (t.reg 24, t.reg 25, t.host.files.map FileEntry.data, Memory.read t.store (0x8000 + 8 + 4))) =
      some (0x05, 0x00, [[0x57, 0x58, 0x59, 0x5A, 0x61, 0x2E, 0x74, 0x78, 0x74]], 0x61) := by decide

theorem test_vector_file_write_read_handle :
    after (withOpenFile (atVector 0x18 [(22, 0x60), (20, 0x02)] nameAt60) 0 .read) (fun t => (t.reg 24, t.reg 25)) =
      some (0xFF, 0xFF) := by decide

theorem test_vector_file_close :
    after (withOpenFile (atVector 0x1A [(25, 0x55)]) 0 .read) (fun t => (t.reg 24, t.reg 25, t.host.slots)) =
      some (0x00, 0x55, [none, none, none, none]) := by decide

/-- 95_test_vectors.md T6: an odd offset inside the vector range decodes, here `inc r16`. -/
theorem test_step_odd_offset :
    after (start 0x9503 0x00 [(16, 0x05)] [] [] 0x03) (fun t => (t.reg 16, t.pc, t.cls)) =
      some (0x06, 0x05, some .normal) := by decide

/-- 95_test_vectors.md T6: a fetch whose second byte lies outside a store of 256 bytes. -/
theorem test_step_fetch_outside :
    stoppedAt { start 0x0000 0x00 [] [] [] 0xFF with params := { Params.default with storeSize := 256 } } =
      some 0x100 := by decide

/-! ## Witnesses: states and operands that meet the hypotheses of the statements

Each is named after its statement; where a statement has several clauses, a witness stands at a boundary of each. -/

/-- A legal state that is not the reset state: RAM and SREG in use, a file that stands in the Byte Store, a Read and
an Append handle. -/
def legal : State :=
  let s := start 0x9503 0x01 [(16, 0xFF)] [(0x60, 0x61), (0x61, 0x62)]
  (s.setStore (storeWrites 65536 s.store (cellsFrom 0x8000 (filesImage [aTxt])))).setHost
    { HostState.fresh with files := [aTxt], slots := [some ⟨0, 4, 1, .read⟩, some ⟨0, 4, 4, .append⟩, none, none] }

/-- The memories of `legal`, as the start helper leaves them, and the twelve bytes of the file's entry. -/
theorem legal_memories :
    legal.ram = [(0, 0x61), (1, 0x62)] ∧
      legal.store = [(0x40, 0x03), (0x41, 0x95), (0x8000, 0x05), (0x8001, 0x61), (0x8002, 0x2E), (0x8003, 0x74),
        (0x8004, 0x78), (0x8005, 0x74), (0x8006, 0x04), (0x8008, 0x57), (0x8009, 0x58), (0x800A, 0x59),
        (0x800B, 0x5A)] := by decide

theorem legal_host : legal.host.valid := by
  refine ⟨?_, List.pairwise_singleton _ _, ?_, by decide⟩
  · intro f hf
    obtain rfl : f = aTxt := List.mem_singleton.1 hf
    exact ⟨by decide, by decide, by decide, by decide⟩
  · intro sl hsl
    have : sl = ⟨0, 4, 1, .read⟩ ∨ sl = ⟨0, 4, 4, .append⟩ := by
      simpa [legal, State.setHost, HostState.fresh] using hsl
    rcases this with rfl | rfl
    · exact ⟨aTxt, rfl, by decide, by decide, by decide⟩
    · exact ⟨aTxt, rfl, by decide, by decide, by decide⟩

theorem legal_params : ParamsValid legal.params := by unfold ParamsValid; decide

theorem legal_mirrored : legal.host.mirrored legal.params.storeSize legal.store := by
  intro _ i v hi _
  have hlt : i < (filesImage [aTxt]).length := (List.getElem?_eq_some_iff.1 hi).1
  have hw : (start 0x9503 0x01 [(16, 0xFF)] [(0x60, 0x61), (0x61, 0x62)]).store.wf := by decide
  have h12 : i < 12 := hlt
  refine (storeWrites_cellsFrom_read 65536 _ hw 0x8000 _ (0x8000 + i)).trans ?_
  rw [if_pos ⟨by omega, by omega, by omega⟩, Nat.add_sub_cancel_left]
  exact congrArg (Option.getD · blankByte) hi

theorem legal_class : ClassAgrees legal := by unfold ClassAgrees; decide

theorem legal_legal : LegalState legal := by
  refine ⟨?_, ?_, ?_, ?_, legal_params, legal_host, legal_mirrored, legal_class⟩
  · rw [legal_memories.1]; decide
  · rw [legal_memories.1]; decide
  · rw [legal_memories.2]; decide
  · rw [legal_memories.2]; decide

theorem test_witness_EncodeThenDecode :
    WellFormed (.ldi 16 0xFF) ∧ WellFormed (.ldi 31 0x00) ∧ WellFormed (.rjmp 0x7FF) ∧ WellFormed (.rjmp 0xFFE) ∧
      WellFormed (.add 0 31) := by decide

theorem test_witness_DecodeThenEncode :
    decode 0x0000 = .ok .nop ∧ decode 0xFFF7 = .ok (.sbrs 31 7) ∧ decode 0xCFFF = .ok .halt := by decide

/-- The first and last words of the regions, and the listed rows' words beside them. -/
theorem test_witness_UnknownWordsAreTheListedRegions :
    [0x0001, 0x00FF, 0x0100, 0x03FF, 0x8001, 0xA000, 0x9000, 0x9200, 0x9404, 0x940F, 0x9528, 0x95F8, 0x9419, 0x9C00,
        0x9FFF, 0xF808, 0xFFFF].all unknownRegion = true ∧
      [0x0000, 0x0400, 0x8000, 0x9001, 0x9201, 0x9400, 0x9409, 0x9509, 0x95C8, 0xB000, 0xFFF7].any unknownRegion =
        false := by decide

theorem test_witness_OnlyThreeRowPairsOverlap :
    table[0].selects 0xCFFF = true ∧ table[68].selects 0xCFFF = true ∧
      table[4].selects 0x0C00 = true ∧ table[5].selects 0x0C00 = true ∧
      table[9].selects 0x1FFF = true ∧ table[10].selects 0x1FFF = true := by decide

/-- Both cases, and the pc whose second byte lies at offset 0. -/
theorem test_witness_StepRunsDecodedInstruction :
    (State.reset.running = true ∧ vectorOf State.reset.pc = none ∧
      State.reset.programBase + State.reset.pc.toNat < State.reset.params.storeSize ∧ decode 0x0000 = .ok .nop) ∧
    (let s := start 0x0001 0 [] [] [] 0xFFFF;
      s.running = true ∧ vectorOf s.pc = none ∧ s.programBase + s.pc.toNat < s.params.storeSize ∧
        s.programBase + (s.pc + 1).toNat < s.params.storeSize ∧
        joinBytes (Memory.read s.store 0) (Memory.read s.store 0xFFFF) = 0x0001 ∧
        decode 0x0001 = .error (.unknownWord 0x0001)) := by decide

/-- The first and the last vector; below, between and above them. -/
theorem test_witness_VectorTestOnThePreFetchOffset :
    [0x02, 0x1A, 0x00, 0x03, 0x1C].map (fun pc => (fetchWord { State.reset with pc := pc }).toOption) =
        [some 0, some 0, some 0, some 0, some 0] ∧ State.reset.running = true ∧
      [(0x02 : Word), 0x1A, 0x00, 0x03, 0x1C].map (fun pc => decide (pc.toNat % 2 = 0 ∧ 2 ≤ pc.toNat ∧ pc.toNat ≤ 26)) =
        [true, true, false, false, false] := by decide

theorem test_witness_HaltedIsTerminal : ({ State.reset with running := false } : State).running = false := by decide

theorem test_witness_UnknownWordHalts :
    (fetchWord (start 0xFF08 0 [])).toOption = some 0xFF08 ∧ (start 0xFF08 0 []).running = true ∧
      vectorOf (start 0xFF08 0 []).pc = none ∧ unknownRegion 0xFF08 = true := by decide

/-- A store of 256 bytes: the low byte just inside, just outside, and only the high byte outside. -/
def small (pc : Word) : State := { start 0 0 [] [] [] pc with params := { Params.default with storeSize := 256 } }

theorem test_witness_StepStopsExactlyOutsideTheStore :
    stoppedAt (small 0x100) = some 0x100 ∧ (small 0x100).running = true ∧
      (small 0x100).params.storeSize ≤ (small 0x100).programBase + (small 0x100).pc.toNat ∧
      (small 0xFF).running = true ∧ (small 0xFF).programBase + (small 0xFF).pc.toNat < (small 0xFF).params.storeSize ∧
      (small 0xFF).params.storeSize ≤ (small 0xFF).programBase + ((small 0xFF).pc + 1).toNat := by decide

/-- The smallest store that meets the premise. -/
theorem test_witness_LaunchPremiseRunsForever : LaunchSafe State.reset := by unfold LaunchSafe; decide

theorem test_witness_InvariantKept : LegalState legal ∧ after legal (fun t => t.reg 16) = some 0x00 :=
  ⟨legal_legal, by decide⟩

theorem test_witness_ResetMeetsInvariant : LegalState legal := legal_legal

/-- HALT, an unknown word, and a step that goes on. -/
theorem test_witness_OnlyHaltAndUnknownStop :
    (fetchWord (start 0xCFFF 0 [])).toOption = some 0xCFFF ∧ (start 0xCFFF 0 []).running = true ∧
      after (start 0xCFFF 0 []) State.running = some false ∧ after (start 0x0001 0 []) State.running = some false ∧
      after (start 0x0000 0 []) State.running = some true := by decide

theorem test_witness_BaseNeverChanges :
    ∃ t, Sys2Proof.core.run 1 (start 0x9503 0 []) = .next t := ⟨_, rfl⟩

theorem test_witness_StoreWrittenOnlyByFileOpenAndFileWrite :
    (∃ t, exec (.push 1) State.reset = .next t) ∧ mayWriteStore .fileRead = false ∧
      ∃ t, vectorStep .fileRead legal = .next t := ⟨⟨_, rfl⟩, rfl, ⟨_, rfl⟩⟩

theorem test_witness_SerialStreamOnlyGrows :
    (∃ t, exec (.out 0x0C 24) State.reset = .next t) ∧
      after (atVector 0x02 [(24, 0x48)]) (fun t => t.host.serial) = some [0x48] := ⟨⟨_, rfl⟩, by decide⟩

theorem test_witness_ClassesReturned :
    (advance State.reset).cls = some .normal ∧ (∃ t, exec .icall (advance State.reset) = .next t) ∧
      ∃ t, vectorStep .fileClose State.reset = .next t := ⟨rfl, ⟨_, rfl⟩, ⟨_, rfl⟩⟩

theorem test_witness_PcAfterStep : ∃ t, exec (.rjmp 0x800) State.reset = .next t := ⟨_, rfl⟩

theorem test_witness_FlagsOnlyAsListed :
    (∃ t, exec .reti State.reset = .next t) ∧ (∃ t, exec (.out 0x3F 1) State.reset = .next t) ∧
      flagsWritten (.out 0x3F 1) State.reset = allFlags ∧ flagsWritten (.out 0x3E 1) State.reset = [] :=
  ⟨⟨_, rfl⟩, ⟨_, rfl⟩, by decide, by decide⟩

/-- An instruction that computes N and V; and one that keeps the identity, with the store next to SREG_ADDR. -/
theorem test_witness_SignIsNegativeXorOverflow :
    computesSign (.sub 1 2) = true ∧ (∃ t, exec (.sub 1 2) State.reset = .next t) ∧
      ¬writesSregDirectly (.out 0x3E 1) State.reset ∧ (∃ t, exec (.out 0x3E 1) State.reset = .next t) ∧
      State.reset.flag .s = xor (State.reset.flag .n) (State.reset.flag .v) := by
  refine ⟨rfl, ⟨_, rfl⟩, ?_, ⟨_, rfl⟩, by decide⟩
  rintro (⟨f, h | h⟩ | ⟨h, _⟩)
  · cases h
  · cases h
  · exact absurd h (by decide)

/-- Both ends of every range of the default map. -/
theorem test_witness_DataReadByTheMap :
    (0x0000 : Word).toNat = (0 : Reg).val ∧ (0x001F : Word).toNat = (31 : Reg).val ∧
      (let p := State.reset.params;
        0x20 ≤ (0x0020 : Word).toNat ∧ atSpl p 0x5D ∧ atSph p 0x5E ∧ atSreg p 0x5F ∧ atRam p 0x60 0 ∧ atRam p 0xDF 127 ∧
          pastRam p 0x20 ∧ pastRam p 0x5C ∧ pastRam p 0xE0 ∧ pastRam p 0xFFFF) := by decide

theorem test_witness_DataWriteByTheMap : legal.ram.wf := legal_legal.1

theorem test_witness_DataReadAfterWrite : legal.ram.wf := legal_legal.1

theorem test_witness_BooleanFlagFormsAgree :
    (∃ t, exec (.adc 16 0) legal = .next t) ∧ ∃ t, exec (.sbc 16 16) legal = .next t := ⟨⟨_, rfl⟩, ⟨_, rfl⟩⟩

/-- The low destination may be its own source, and the high registers one another. -/
theorem test_witness_AddChainAddsWords : (0 : Reg) ≠ 31 ∧ (0 : Reg) ≠ 1 := by decide

theorem test_witness_CallsPushTheReturnOffset : legal.ram.wf := legal_legal.1

/-- The lowest and the highest SP that meet the premises. -/
theorem test_witness_CallThenReturnComesBack :
    (let s := legal.setSp 0x61; s.ram.wf ∧ atRam s.params s.sp 1 ∧ atRam s.params (s.sp - 1) 0) ∧
      (let s := legal.setSp 0xDF; s.ram.wf ∧ atRam s.params s.sp 127 ∧ atRam s.params (s.sp - 1) 126) :=
  ⟨⟨legal_legal.1, by decide, by decide⟩, ⟨legal_legal.1, by decide, by decide⟩⟩

theorem test_witness_LoadsReadThroughThePointer : (26 : Reg) ≠ RegPair.x.hi ∧ (27 : Reg) ≠ RegPair.x.lo := by decide

theorem test_witness_StoresWriteThroughThePointer : legal.ram.wf := legal_legal.1

/-- The last byte inside a store of 256 bytes and the first outside; destinations off the pointer. -/
theorem test_witness_ProgramLoadsReadTheStore :
    (let s := (small 0x40).setPair .z 0xFF;
        s.programBase + (s.pair .z).toNat < s.params.storeSize) ∧
      (let s := (small 0x40).setPair .z 0x100;
        s.params.storeSize ≤ s.programBase + (s.pair .z).toNat) ∧
      (29 : Reg) ≠ 30 ∧ (29 : Reg) ≠ 31 := by decide

theorem test_witness_InAndOutUseTheIoWindow : legal.ram.wf := legal_legal.1

theorem test_witness_IoBitInstructionsReadModifyWrite : legal.ram.wf := legal_legal.1

theorem test_witness_PushAndPopUseTheStack : legal.ram.wf := legal_legal.1

/-- A store of 256 bytes and the bytes 'H', 'i', 0 at `a`. -/
def text (a : Nat) : State :=
  { atVector 0x06 [(24, BitVec.ofNat 8 a)] [] [(a, 0x48), (a + 1, 0x69)] with
    params := { Params.default with storeSize := 256 } }

/-- "Hi" and its zero byte end with the store; the same with the zero byte just outside; the launch premise. -/
theorem test_witness_ProgramStringsEmit :
    (let s := text 0xFD;
      ScanOf s.params.strScanMax (fun a => Memory.read s.store (s.programBase + a.toNat)) (s.pair .r24) [0x48, 0x69] ∧
        ∀ i, i ≤ 2 → s.programBase + (s.pair .r24 + BitVec.ofNat 16 i).toNat < s.params.storeSize) ∧
    (let s := text 0xFE;
      2 < s.params.strScanMax ∧
        (∀ i, i < 2 → s.programBase + (s.pair .r24 + BitVec.ofNat 16 i).toNat < s.params.storeSize ∧
          Memory.read s.store (s.programBase + (s.pair .r24 + BitVec.ofNat 16 i).toNat) ≠ 0) ∧
        s.params.storeSize ≤ s.programBase + (s.pair .r24 + BitVec.ofNat 16 2).toNat) ∧
    LaunchSafe (atVector 0x06 [(24, 0x28)]) := by
  refine ⟨⟨⟨?_, by decide, .inr (by decide)⟩, by decide⟩, ⟨by decide, by decide, by decide⟩, by unfold LaunchSafe; decide⟩
  intro i h
  have : i = 0 ∨ i = 1 := by simp at h; omega
  rcases this with rfl | rfl
  · exact ⟨(by decide : (0x48 : Byte) = _), (by decide : (0x48 : Byte) ≠ 0)⟩
  · exact ⟨(by decide : (0x69 : Byte) = _), (by decide : (0x69 : Byte) ≠ 0)⟩

/-- A buffer of four bytes that ends just below SP's aliases leaves SREG, SP and RAM off it. -/
theorem test_witness_FileOperationsReturnWithinTheirFrame :
    HostOp.fileRead ∉ [HostOp.writeChar, .printRam, .printProgmem, .printlnRam, .printlnProgmem] ∧ legal.ram.wf ∧
      mayWriteStore .fileRead = false ∧ writesBuffer .fileSize = false ∧ (23 : Reg) ∉ resultRegs .fileRead ∧
      offBuffer 0x59 4 0x5F ∧ offBuffer 0x59 4 0x5D ∧ offBuffer 0x59 4 0x5E ∧ offBuffer 0x59 4 23 ∧
      offBuffer 0x59 4 (0x60 + 127) :=
  ⟨by decide, legal_legal.1, rfl, rfl, by decide, by unfold offBuffer; decide, by unfold offBuffer; decide,
    by unfold offBuffer; decide, by unfold offBuffer; decide, by unfold offBuffer; decide⟩

/-- A state before file_open with a name of `n` letters at 0x60. -/
def naming (n : Nat) (mode : Byte) (h : HostState) : State :=
  { State.reset with
    regs := ((Vector.replicate 32 0).set 24 0x60).set 22 mode
    ram := (List.range n).map fun i => (i, 0x61)
    host := h }

/-- A host with one file of a name of one letter and `free` in slot 3. -/
def oneFile (capacity : Nat) (free : Option Slot) : HostState :=
  { HostState.fresh with
    files := [⟨[0x61], 0, []⟩]
    capacity := capacity
    slots := [some ⟨0, 0, 0, .read⟩, some ⟨0, 0, 0, .read⟩, some ⟨0, 0, 0, .read⟩, free] }

/-- Names of 0, 1, 127 and 128 bytes; the last ends at the first address above RAM. -/
theorem test_witness_ReferenceOpenAnswers_names :
    [0, 1, 127, 128].all (fun n =>
      dataString (naming n 0 HostState.fresh) ((naming n 0 HostState.fresh).pair .r24) 200 = List.replicate n 0x61) =
      true := by decide +kernel

theorem scan_of_name (n : Nat) (s : State) (h : n < s.params.strScanMax)
    (he : dataString s (s.pair .r24) (n + 1) = List.replicate n 0x61) :
    ScanOf s.params.strScanMax (memRead s) (s.pair .r24) (List.replicate n 0x61) := by
  obtain ⟨h1, _, h3⟩ := dataString_spec s (s.pair .r24) (n + 1)
  rw [he] at h3
  refine ⟨fun i hi => ?_, by simp; omega, .inr (h3.resolve_left (by simp))⟩
  have := h1 i (by rw [he]; exact hi)
  simpa only [he] using this

/-- A free slot 3 and mode 2: a new name in a host with room for exactly it, and in one with a byte less;
no free slot; mode 3; and the one file's own name. -/
theorem test_witness_ReferenceOpenAnswers :
    (let s := naming 127 2 (oneFile 134 none);
      s.host.kind = .reference ∧ ScanOf s.params.strScanMax (memRead s) (s.pair .r24) (List.replicate 127 0x61) ∧
        (s.reg 22).toNat ≤ 2 ∧ s.host.slots[3]? = some none ∧
        filesFootprint (s.host.files ++ [⟨List.replicate 127 0x61, 0, []⟩]) = 134 ∧
        ∀ f ∈ s.host.files, f.name ≠ List.replicate 127 0x61) ∧
    (let s := naming 1 0 (oneFile 4 none);
      ScanOf s.params.strScanMax (memRead s) (s.pair .r24) [0x61] ∧ s.host.files[0]? = some ⟨[0x61], 0, []⟩ ∧ (s.reg 22).toNat = 0) ∧
    (let s := naming 128 0 HostState.fresh;
        ScanOf s.params.strScanMax (memRead s) (s.pair .r24) (List.replicate 128 0x61)) ∧
    (let s := naming 0 0 HostState.fresh;
        ScanOf s.params.strScanMax (memRead s) (s.pair .r24) []) ∧
    133 < filesFootprint ((oneFile 133 none).files ++ [⟨List.replicate 127 0x61, 0, []⟩]) ∧
    ((naming 1 1 (oneFile 4 none)).reg 22).toNat = 1 ∧ ((naming 1 2 (oneFile 4 none)).reg 22).toNat = 2 ∧
    (∀ sl ∈ (oneFile 4 (some ⟨0, 0, 0, .read⟩)).slots, sl ≠ none) ∧
    2 < ((naming 1 3 HostState.fresh).reg 22).toNat := by
  refine ⟨⟨rfl, ?_, by decide, rfl, by decide +kernel, by decide +kernel⟩, ⟨?_, rfl, by decide⟩, ?_, ?_,
    by decide +kernel, by decide, by decide, by decide, by decide⟩
  · exact scan_of_name 127 _ (by decide) (by decide +kernel)
  · exact scan_of_name 1 _ (by decide) (by decide +kernel)
  · exact scan_of_name 128 _ (by decide) (by decide +kernel)
  · exact scan_of_name 0 _ (by decide) (by decide +kernel)

/-- Handle 0 is open, handle 9 is not. -/
theorem test_witness_ReferenceReadAnswers :
    LegalState legal ∧ legal.host.kind = .reference ∧ legal.host.slot (legal.reg 24) = some ⟨0, 4, 1, .read⟩ ∧
      (legal.setReg 24 9).host.slot ((legal.setReg 24 9).reg 24) = none :=
  ⟨legal_legal, by decide, by decide, by decide⟩

/-- `legal`, about to write `len` bytes from 0x60 to handle `handle`. -/
def writing (handle : Byte) (len : Word) (capacity : Nat) : State :=
  (((legal.setReg 24 handle).setPair .r20 len).setPair .r22 0x60).setHost { legal.host with capacity := capacity }

theorem writing_legal (handle : Byte) (len : Word) (capacity : Nat) : LegalState (writing handle len capacity) :=
  legal_legal

/-- Handle 1 is open for Append: one byte with exactly the room for it, and with one byte too little; a length
that leaves the size word. Handle 0 is open for Read, handle 2 is closed. -/
theorem test_witness_ReferenceWriteAnswers :
    (writing 1 1 13).host.kind = .reference ∧
      (writing 1 1 13).host.slot ((writing 1 1 13).reg 24) = some ⟨0, 4, 4, .append⟩ ∧
      writeBuffer (writing 1 1 13) ((writing 1 1 13).pair .r22) ((writing 1 1 13).pair .r20) = [0x61] ∧
      filesFootprint (legal.host.files.set 0 ⟨aTxt.name, 5, aTxt.data ++ [0x61]⟩) = 13 ∧
      0xFFFE < max 4 (4 + (writeBuffer (writing 1 0xFFFE 13) 0x60 0xFFFE).length) ∧
      (writing 0 1 13).host.slot ((writing 0 1 13).reg 24) = some ⟨0, 4, 1, .read⟩ ∧
      (writing 2 1 13).host.slot ((writing 2 1 13).reg 24) = none :=
  ⟨by decide, by decide, by decide, by decide, by simp [writeBuffer], by decide, by decide⟩

theorem test_witness_ReferenceWriteThenReadBack :
    legal.host.valid ∧ legal.host.kind = .reference ∧ legal.host.slot 1 = some ⟨0, 4, 4, .append⟩ ∧
      (fileWrite 65536 legal.host [] 1 [0x21, 0x22]).result ≠ .word 0xFFFF :=
  ⟨legal_host, by decide, by decide, by decide⟩

/-- Handle 1 is open for Append: one byte written; and a file_open that answers. -/
theorem test_witness_FileWritesReachTheByteStore :
    LegalState (writing 1 1 13) ∧ (writing 1 1 13).host.kind = .reference ∧
      (∃ t, vectorStep .fileWrite (writing 1 1 13) = .next t ∧ t.pair .r24 ≠ 0xFFFF ∧
        t.host.fileBase + blockOffset t.host.files 0 + (4 + 0) < t.params.storeSize) ∧
      ∃ t, vectorStep .fileOpen (writing 1 1 13) = .next t :=
  ⟨writing_legal 1 1 13, by decide, ⟨_, rfl, by decide, by decide⟩, ⟨_, rfl⟩⟩

/-- Handle 0 is open with size 4: positions 4 and 5; handle 9 is not open. -/
theorem test_witness_ReferenceNameSizePositionSeekClose :
    LegalState legal ∧ legal.host.kind = .reference ∧ legal.host.slot (legal.reg 24) = some ⟨0, 4, 1, .read⟩ ∧
      ((legal.setPair .r22 4).pair .r22).toNat ≤ 4 ∧ 4 < ((legal.setPair .r22 5).pair .r22).toNat ∧
      (legal.setReg 24 9).host.slot ((legal.setReg 24 9).reg 24) = none :=
  ⟨legal_legal, by decide, by decide, by decide, by decide, by decide⟩

end Sys2Proof.Tests
end

section
/-! The register pairs as views of the register file (10_state.md R22, R23): each pair is an even register and its
successor, and reading and writing it goes through these two. -/

namespace Sys2Proof

/-! ## The bytes of a word as numbers -/

theorem Word.lo_eq_ofNat (v : Word) : v.lo = BitVec.ofNat 8 (v.toNat % 256) := by
  apply BitVec.eq_of_toNat_eq
  simp [Word.lo, BitVec.extractLsb'_toNat]

theorem Word.hi_eq_ofNat (v : Word) : v.hi = BitVec.ofNat 8 (v.toNat / 256) := by
  apply BitVec.eq_of_toNat_eq
  simp [Word.hi, BitVec.extractLsb'_toNat, Nat.shiftRight_eq_div_pow]

end Sys2Proof

namespace Sys2Proof.Machine

/-! ## The two registers of a pair -/

theorem RegPair.lo_even (p : RegPair) : p.lo.val % 2 = 0 := by cases p <;> rfl

theorem RegPair.hi_eq_lo_succ (p : RegPair) : p.hi.val = p.lo.val + 1 := by cases p <;> rfl

/-! ## Reading and writing a pair -/

theorem State.pair_toNat (s : State) (p : RegPair) :
    (s.pair p).toNat = 256 * (s.reg p.hi).toNat + (s.reg p.lo).toNat := by
  rw [State.pair, joinBytes_toNat, Nat.mul_comm]

theorem State.setPair_reg_lo (s : State) (p : RegPair) (v : Word) : (s.setPair p v).reg p.lo = v.lo := by
  simp [(RegPair.hi_ne_lo p p).symm]

theorem State.setPair_reg_hi (s : State) (p : RegPair) (v : Word) : (s.setPair p v).reg p.hi = v.hi := by
  simp

/-- Writing a pair touches its two registers only. -/
theorem State.setPair_frame (s : State) (p : RegPair) (v : Word) : Frame [p.lo, p.hi] [] s (s.setPair p v) := by
  have hregs : RegsExcept [p.lo, p.hi] s (s.setPair p v) := by
    intro r hr
    obtain ⟨hlo, hhi⟩ : r ≠ p.lo ∧ r ≠ p.hi := by simpa using hr
    simp [hlo, hhi]
  exact ⟨hregs, fun f _ => State.setPair_flag s p v f, rfl, rfl, rfl, rfl, rfl, rfl, rfl, rfl, rfl⟩

theorem State.setReg_lo_pair (s : State) (p : RegPair) (b : Byte) :
    (s.setReg p.lo b).pair p = joinBytes (s.reg p.hi) b := by
  simp [State.pair, RegPair.hi_ne_lo p p]

theorem State.setReg_hi_pair (s : State) (p : RegPair) (b : Byte) :
    (s.setReg p.hi b).pair p = joinBytes b (s.reg p.lo) := by
  simp [State.pair, (RegPair.hi_ne_lo p p).symm]

/-- Settles O27: the pair is the join of its two registers, so reads and writes follow from the register file's
read-after-write rule and the bytes of a word. -/
theorem pairsAreViewsOfRegisters : Obligations.PairsAreViewsOfRegisters := by
  intro s p v b
  have hlo : (s.setPair p v).reg p.lo = BitVec.ofNat 8 (v.toNat % 256) :=
    (s.setPair_reg_lo p v).trans v.lo_eq_ofNat
  have hhi : (s.setPair p v).reg p.hi = BitVec.ofNat 8 (v.toNat / 256) :=
    (s.setPair_reg_hi p v).trans v.hi_eq_ofNat
  have hnumbers : RegPair.x.lo = 26 ∧ RegPair.y.lo = 28 ∧ RegPair.z.lo = 30 ∧ RegPair.r24.lo = 24 ∧
      RegPair.r22.lo = 22 ∧ RegPair.r20.lo = 20 := ⟨rfl, rfl, rfl, rfl, rfl, rfl⟩
  exact ⟨p.lo_even, p.hi_eq_lo_succ, s.pair_toNat p, hlo, hhi, s.setPair_pair_same p v, s.setPair_frame p v,
    s.setReg_lo_pair p b, s.setReg_hi_pair p b, hnumbers⟩

end Sys2Proof.Machine
end

section
/-! One data-space read and one data-space write (20_memory.md R52, R54, R55): which addresses select which cell of the
map, what a read answers, and each field of the state after a write, by the cell the address selects. -/

namespace Sys2Proof.Machine

/-! ## The map, cell by cell -/

/-- The addresses of a cell: the line of 20_memory.md R54 and R55 that gives it, and no earlier line. -/
def atCell (p : Params) (a : Word) : DataCell → Prop
  | .reg i => a.toNat = i.val
  | .spl => atSpl p a
  | .sph => atSph p a
  | .sreg => atSreg p a
  | .ram i => atRam p a i
  | .charOut => pastRam p a ∧ a = p.charOutAddr
  | .unmapped => pastRam p a ∧ a ≠ p.charOutAddr

/-- Every address lies on the line of the cell it selects. -/
theorem atCell_dataCell (s : State) (a : Word) : atCell s.params a (dataCell s a) := by
  rcases dataCell_cases s a with
    ⟨_, e⟩ | ⟨h0, ⟨h1, e⟩ | ⟨h1, ⟨h2, e⟩ | ⟨h2, ⟨h3, e⟩ | ⟨h3, ⟨i, hi, hsum, e⟩ | ⟨hoff, ⟨h4, e⟩ | ⟨h4, e⟩⟩⟩⟩⟩⟩ <;> rw [e]
  · exact rfl
  · exact ⟨h0, h1⟩
  · exact ⟨h0, h1, h2⟩
  · exact ⟨h0, h1, h2, h3⟩
  · exact ⟨⟨h0, h1, h2, h3⟩, hi, hsum⟩
  · exact ⟨⟨⟨h0, h1, h2, h3⟩, hoff⟩, h4⟩
  · exact ⟨⟨⟨h0, h1, h2, h3⟩, hoff⟩, h4⟩

/-- An address on a cell's line selects that cell: the tests of the earlier lines fail. -/
theorem dataCell_of_atCell (s : State) (a : Word) (c : DataCell) (h : atCell s.params a c) : dataCell s a = c := by
  cases c with
  | reg i =>
    have hlt : a.toNat < Config.regLimit := h ▸ i.isLt
    rw [dataCell, dif_pos hlt]
    exact congrArg DataCell.reg (Fin.ext h)
  | spl =>
    obtain ⟨h0, h1⟩ := h
    rw [dataCell, dif_neg (Nat.not_lt.2 h0), if_pos h1]
  | sph =>
    obtain ⟨h0, h1, h2⟩ := h
    rw [dataCell, dif_neg (Nat.not_lt.2 h0), if_neg h1, if_pos h2]
  | sreg =>
    obtain ⟨h0, h1, h2, h3⟩ := h
    rw [dataCell, dif_neg (Nat.not_lt.2 h0), if_neg h1, if_neg h2, if_pos h3]
  | ram i =>
    obtain ⟨⟨h0, h1, h2, h3⟩, hi, hsum⟩ := h
    rw [dataCell, dif_neg (Nat.not_lt.2 h0), if_neg h1, if_neg h2, if_neg h3, if_pos (by omega), hsum,
      Nat.add_sub_cancel_left]
  | charOut =>
    obtain ⟨⟨⟨h0, h1, h2, h3⟩, hoff⟩, h4⟩ := h
    rw [dataCell, dif_neg (Nat.not_lt.2 h0), if_neg h1, if_neg h2, if_neg h3, if_neg (by omega), if_pos h4]
  | unmapped =>
    obtain ⟨⟨⟨h0, h1, h2, h3⟩, hoff⟩, h4⟩ := h
    rw [dataCell, dif_neg (Nat.not_lt.2 h0), if_neg h1, if_neg h2, if_neg h3, if_neg (by omega), if_neg h4]

theorem dataCell_eq_iff (s : State) (a : Word) (c : DataCell) : dataCell s a = c ↔ atCell s.params a c :=
  ⟨fun h => h ▸ atCell_dataCell s a, dataCell_of_atCell s a c⟩

/-- A cell that holds a byte of the state has one address. -/
theorem atCell_addr_unique {p : Params} {a b : Word} {c : DataCell} (ha : atCell p a c) (hb : atCell p b c)
    (hout : c ≠ .charOut) (hun : c ≠ .unmapped) : a = b := by
  cases c with
  | reg i => exact BitVec.eq_of_toNat_eq (ha.trans hb.symm)
  | spl => exact ha.2.trans hb.2.symm
  | sph => exact ha.2.2.trans hb.2.2.symm
  | sreg => exact ha.2.2.2.trans hb.2.2.2.symm
  | ram i => exact BitVec.eq_of_toNat_eq (ha.2.2.trans hb.2.2.symm)
  | charOut => exact absurd rfl hout
  | unmapped => exact absurd rfl hun

/-- Another address selects another cell, unless the cell holds no byte. -/
theorem dataCell_ne_of_addr_ne {s : State} {a b : Word} {c : DataCell} (hne : b ≠ a) (hb : dataCell s b = c)
    (hout : c ≠ .charOut) (hun : c ≠ .unmapped) : dataCell s a ≠ c := fun ha =>
  hne (atCell_addr_unique ((dataCell_eq_iff s b c).1 hb) ((dataCell_eq_iff s a c).1 ha) hout hun)

theorem emitsAt_eq (s : State) (a : Word) : emitsAt s a = decide (dataCell s a = .charOut) := by
  simp only [emitsAt, dataCell_eq_iff, atCell]

/-! ## The alias bytes of SP (10_state.md R34, R35) -/

/-- `v[1:0]` zero-extended, as a mask. -/
theorem lowTwoBits_eq_and (v : Byte) : (v.extractLsb' 0 2).zeroExtend 8 = v &&& 0x03 := by decide +revert

theorem splByte_eq_ofNat (sp : Word) : splByte sp = BitVec.ofNat 8 (sp.toNat % 256) := Word.lo_eq_ofNat sp

theorem sphByte_eq_ofNat (sp : Word) : sphByte sp = BitVec.ofNat 8 (sp.toNat / 256 % 4) := by
  apply BitVec.eq_of_toNat_eq
  simp [sphByte, BitVec.extractLsb'_toNat, Nat.shiftRight_eq_div_pow]

theorem sphByte_eq_hi_and (sp : Word) : sphByte sp = sp.hi &&& 0x03 := by
  have hbits : sp.extractLsb' 8 2 = sp.hi.extractLsb' 0 2 := by
    ext i hi
    simp [Word.hi, BitVec.getLsbD_eq_getElem, show i < 8 by omega]
  rw [sphByte, hbits, lowTwoBits_eq_and]

theorem withSph_eq_joinBytes (sp : Word) (v : Byte) : withSph sp v = joinBytes (v &&& 0x03) sp.lo := by
  rw [withSph, lowTwoBits_eq_and]

/-- A write of SP's high alias leaves its low alias. -/
@[simp] theorem splByte_withSph (sp : Word) (v : Byte) : splByte (withSph sp v) = splByte sp := by
  simp [splByte, withSph]

/-- A write of SP's low alias leaves its high alias. -/
@[simp] theorem sphByte_withSpl (sp : Word) (v : Byte) : sphByte (withSpl sp v) = sphByte sp := by
  simp [sphByte_eq_hi_and, withSpl]

/-! ## A read -/

theorem memRead_of_reg {s : State} {a : Word} {i : Reg} (h : a.toNat = i.val) : memRead s a = s.reg i := by
  rw [memRead, (dataCell_eq_iff s a (.reg i)).2 h]

/-- The lines of 20_memory.md R54 above the registers. -/
theorem memRead_above_regs {s : State} {a : Word} (h : Config.regLimit ≤ a.toNat) : memRead s a =
    if a = s.params.splAddr then splByte s.sp
    else if a = s.params.sphAddr then sphByte s.sp
    else if a = s.params.sregAddr then s.sreg
    else if s.params.ramBase.toNat ≤ a.toNat ∧ a.toNat < s.params.ramBase.toNat + Config.ramSize then
      Memory.read s.ram (a.toNat - s.params.ramBase.toNat)
    else 0x00 := by
  rw [memRead, dataCell, dif_neg (Nat.not_lt.2 h)]
  split_ifs <;> rfl

/-! ## A write, field by field -/

section
variable (s : State) (a : Word) (v : Byte)

theorem memWrite_reg (r : Reg) : (memWrite s a v).reg r = if dataCell s a = .reg r then v else s.reg r := by
  rw [memWrite]
  cases dataCell s a with
  | reg i => simp [eq_comm]
  | _ => simp

theorem memWrite_sp : (memWrite s a v).sp =
    if dataCell s a = .spl then withSpl s.sp v else if dataCell s a = .sph then withSph s.sp v else s.sp := by
  rw [memWrite]
  cases dataCell s a <;> simp

theorem memWrite_ram_read (hw : s.ram.wf) (i : Nat) :
    Memory.read (memWrite s a v).ram i = if dataCell s a = .ram i then v else Memory.read s.ram i := by
  rw [memWrite]
  cases dataCell s a with
  | ram j =>
    by_cases h : j = i
    · simp [h, Memory.read_write_same s.ram hw]
    · simp [h, Memory.read_write_other s.ram hw j i v (Ne.symm h)]
  | _ => simp

theorem memWrite_host_eq :
    (memWrite s a v).host = s.host.emit (if dataCell s a = .charOut then [v] else []) := by
  rw [memWrite]
  cases dataCell s a <;> simp [HostState.emit_nil]

theorem memWrite_sameControl : SameControl s (memWrite s a v) :=
  ⟨memWrite_pc s a v, memWrite_programBase s a v, memWrite_running s a v, memWrite_cls s a v, memWrite_params s a v,
    memWrite_store s a v⟩

end

/-! ## The frame of a write over the data space -/

/-- Every other address reads as before: its cell is not the written one, and SP's two aliases do not overlap. -/
theorem memRead_memWrite_of_ne {s : State} {a b : Word} (v : Byte) (hw : s.ram.wf) (hne : b ≠ a) :
    memRead (memWrite s a v) b = memRead s b := by
  have hcell : dataCell (memWrite s a v) b = dataCell s b := dataCell_congr s _ (memWrite_params s a v) b
  rw [memRead, memRead, hcell]
  cases hb : dataCell s b with
  | reg i =>
    have ha : dataCell s a ≠ .reg i := dataCell_ne_of_addr_ne hne hb nofun nofun
    simp [memWrite_reg, ha]
  | spl =>
    have ha : dataCell s a ≠ .spl := dataCell_ne_of_addr_ne hne hb nofun nofun
    by_cases hsph : dataCell s a = .sph <;> simp [memWrite_sp, ha, hsph]
  | sph =>
    have ha : dataCell s a ≠ .sph := dataCell_ne_of_addr_ne hne hb nofun nofun
    by_cases hspl : dataCell s a = .spl <;> simp [memWrite_sp, ha, hspl]
  | sreg =>
    have ha : ¬atSreg s.params a := (dataCell_eq_iff s a .sreg).not.1 (dataCell_ne_of_addr_ne hne hb nofun nofun)
    exact (memWrite_sreg s a v).trans (if_neg ha)
  | ram i =>
    have ha : dataCell s a ≠ .ram i := dataCell_ne_of_addr_ne hne hb nofun nofun
    simp [memWrite_ram_read s a v hw, ha]
  | charOut => rfl
  | unmapped => rfl

theorem memWrite_dataWrite {s : State} (a : Word) (v : Byte) (hw : s.ram.wf) : DataWrite a v s (memWrite s a v) where
  regs r := by simp only [memWrite_reg, dataCell_eq_iff, atCell]
  sp := by simp only [memWrite_sp, dataCell_eq_iff, atCell, withSpl, withSph_eq_joinBytes]
  sreg := memWrite_sreg s a v
  ram i := by simp only [memWrite_ram_read s a v hw, dataCell_eq_iff, atCell]
  serial := by simp only [memWrite_host_eq, emitsAt_eq, decide_eq_true_eq, HostState.emit]
  control := memWrite_sameControl s a v
  others _ hne := memRead_memWrite_of_ne v hw hne

/-! ## The statements -/

/-- Settles O24: below the registers' limit the address is a register's number; above it the read is R54's chain of
lines, with SP's alias bytes as numbers. -/
theorem dataReadByTheMap : Obligations.DataReadByTheMap := by
  intro s a
  refine ⟨fun i h => ⟨memRead_of_reg h, fun v r => ?_⟩, fun h => ?_, rfl, rfl, rfl, rfl⟩
  · have hcell : dataCell s a = .reg i := (dataCell_eq_iff s a (.reg i)).2 h
    simp [memWrite_reg, hcell, eq_comm]
  · rw [memRead_above_regs h, splByte_eq_ofNat, sphByte_eq_ofNat]

/-- Settles O25: each field of the written state by the cell of the address, and the frame over the data space. -/
theorem dataWriteByTheMap : Obligations.DataWriteByTheMap := fun _ a v hw => memWrite_dataWrite a v hw

end Sys2Proof.Machine
end

section
/-! The vector test of 40_step_cycle.md R102 as arithmetic on the pre-fetch pc, and what a step at either kind
of offset does. -/

namespace Sys2Proof.Machine

/-- The offsets of the syscall vectors, as 40_step_cycle.md R102 writes them. -/
theorem isVector_iff (pc : Word) :
    isVector pc = true ↔ pc.toNat % 2 = 0 ∧ 2 ≤ pc.toNat ∧ pc.toNat ≤ 26 := by
  simp [isVector, Config.vecFirst, Config.vecLast]

theorem vectorOf_of_isVector {pc : Word} (h : isVector pc = true) : vectorOf pc = hostOps[pc.toNat / 2 - 1]? :=
  if_pos h

theorem vectorOf_of_not_isVector {pc : Word} (h : ¬isVector pc = true) : vectorOf pc = none := if_neg h

/-- Every vector offset has an operation: the last, 26, is number 13, and the table holds thirteen. -/
theorem hostOps_of_isVector {pc : Word} (h : isVector pc = true) : ∃ op, hostOps[pc.toNat / 2 - 1]? = some op := by
  obtain ⟨-, -, hle⟩ := (isVector_iff pc).1 h
  have hlt : pc.toNat / 2 - 1 < hostOps.length := by
    have hlen : hostOps.length = 13 := rfl
    omega
  exact ⟨_, List.getElem?_eq_getElem hlt⟩

/-- Settles O7: the test selects the table's operation at a vector offset, and decoding everywhere else. -/
theorem vectorTestOnThePreFetchOffset : Obligations.VectorTestOnThePreFetchOffset := by
  intro s w hrun hfetch
  rw [← isVector_iff]
  refine ⟨fun hvec => ?_, fun hvec => ?_⟩
  · obtain ⟨op, hop⟩ := hostOps_of_isVector hvec
    exact ⟨op, hop, step_vector s w op hrun hfetch ((vectorOf_of_isVector hvec).trans hop)⟩
  · exact step_word s w hrun hfetch (vectorOf_of_not_isVector hvec)

end Sys2Proof.Machine
end

section
/-! The sign rule `S == N ^ V` (41_arithmetic.md R131): every flag computation establishes it, and an instruction that
computes no N and V leaves the three flags alone unless it writes SREG directly. -/

namespace Sys2Proof.Machine

/-! ## The rule on a status byte -/

/-- `S == N ^ V` in a status byte. -/
def SignAgrees (sr : Byte) : Prop := getFlag .s sr = xor (getFlag .n sr) (getFlag .v sr)

theorem signAgrees_addFlags (a b : Byte) (c : Bool) (sr : Byte) : SignAgrees (addFlags a b c sr) := by
  simp only [SignAgrees, getFlag_addFlags]

theorem signAgrees_subFlags (a b : Byte) (c zero : Bool) (sr : Byte) : SignAgrees (subFlags a b c zero sr) := by
  simp only [SignAgrees, getFlag_subFlags]

theorem signAgrees_subFlagsPlain (a b sr : Byte) : SignAgrees (subFlagsPlain a b sr) := signAgrees_subFlags ..

theorem signAgrees_subFlagsChain (a b sr : Byte) : SignAgrees (subFlagsChain a b sr) := signAgrees_subFlags ..

theorem signAgrees_adiwFlags (a : Word) (k : BitVec 6) (sr : Byte) : SignAgrees (adiwFlags a k sr) := by
  simp only [SignAgrees, getFlag_adiwFlags]

theorem signAgrees_sbiwFlags (a : Word) (k : BitVec 6) (sr : Byte) : SignAgrees (sbiwFlags a k sr) := by
  simp only [SignAgrees, getFlag_sbiwFlags]

theorem signAgrees_logicFlags (r sr : Byte) : SignAgrees (logicFlags r sr) := by
  simp [SignAgrees, getFlag_logicFlags]

/-- COM adds the carry to the logic flags, which hold the rule already. -/
theorem signAgrees_comFlags (r sr : Byte) : SignAgrees (comFlags r sr) := by
  simpa [SignAgrees, getFlag_comFlags] using signAgrees_logicFlags r sr

theorem signAgrees_incFlags (r sr : Byte) : SignAgrees (incFlags r sr) := by
  simp only [SignAgrees, getFlag_incFlags]

theorem signAgrees_decFlags (r sr : Byte) : SignAgrees (decFlags r sr) := by
  simp only [SignAgrees, getFlag_decFlags]

/-- V is N XOR C after a right shift, so the two N cancel and S is C. -/
theorem signAgrees_shiftRightFlags (old r sr : Byte) : SignAgrees (shiftRightFlags old r sr) := by
  simp [SignAgrees, getFlag_shiftRightFlags]

/-! ## The instructions that compute N and V -/

theorem exec_signAgrees {i : Instr} {s t : State} (hc : computesSign i = true) (h : exec i s = .next t) :
    SignAgrees t.sreg := by
  cases i with
  | add | adc | lsl | rol => cases h; exact signAgrees_addFlags ..
  | sub | subi | cp | cpi | neg => cases h; exact signAgrees_subFlagsPlain ..
  | sbc | sbci | cpc => cases h; exact signAgrees_subFlagsChain ..
  | adiw => cases h; exact signAgrees_adiwFlags ..
  | sbiw => cases h; exact signAgrees_sbiwFlags ..
  | and | andi | or | ori | eor => cases h; exact signAgrees_logicFlags ..
  | com => cases h; exact signAgrees_comFlags ..
  | inc => cases h; exact signAgrees_incFlags ..
  | dec => cases h; exact signAgrees_decFlags ..
  | lsr | ror | asr => cases h; exact signAgrees_shiftRightFlags ..
  | _ => nomatch hc

/-! ## SREG after the writes that miss SREG_ADDR -/

theorem memWrite_sreg_off {s : State} {a : Word} (v : Byte) (ha : ¬atSreg s.params a) :
    (memWrite s a v).sreg = s.sreg := by
  rw [memWrite_sreg, if_neg ha]

theorem storeVia_sreg_off {p : RegPair} {mode : PointerMode} {s : State} (r : Reg)
    (ha : ¬atSreg s.params (pointerAddr p mode s)) : (storeVia p mode r s).sreg = s.sreg := by
  cases mode with
  | plain => exact memWrite_sreg_off _ ha
  | postInc => exact memWrite_sreg_off _ ha
  | preDec => exact memWrite_sreg_off (s := s.setPair p (s.pair p - 1)) _ ha

theorem push8_sreg_off {s : State} (v : Byte) (ha : ¬atSreg s.params s.sp) : (push8 s v).sreg = s.sreg :=
  memWrite_sreg_off v ha

/-- Both bytes of a return offset miss SREG_ADDR: the low one at SP, the high one where the first push left SP. -/
theorem callTo_sreg_off {s : State} (target : Word) (hlo : ¬atSreg s.params s.sp)
    (hhi : ¬atSreg s.params (push8 s s.pc.lo).sp) : (callTo target s).sreg = s.sreg := by
  have hhi' : ¬atSreg (push8 s s.pc.lo).params (push8 s s.pc.lo).sp := by rwa [(push8_keeps s s.pc.lo).params]
  exact (push8_sreg_off s.pc.hi hhi').trans (push8_sreg_off s.pc.lo hlo)

/-- An address whose flags the instruction lists is not SREG_ADDR, unless the instruction writes SREG directly. -/
theorem not_atSreg_of_listed {i : Instr} {s : State} {a : Word} (hn : ¬writesSregDirectly i s)
    (hl : flagsAt s.params a ⊆ flagsWritten i s) : ¬atSreg s.params a := by
  intro ha
  have hall : allFlags ⊆ flagsWritten i s := by simpa only [flagsAt, if_pos ha] using hl
  exact hn (.inr ⟨hall (by decide), hall (by decide)⟩)

/-! ## The instructions that compute no N and V -/

/-- They write T (BST) or I (RETI) at most, unless they write SREG directly. -/
theorem exec_flag_of_not_computesSign {i : Instr} {s t : State} (hc : computesSign i = false)
    (hn : ¬writesSregDirectly i s) (h : exec i s = .next t) {f : Flag} (ht : f ≠ .t) (hi : f ≠ .i) :
    t.flag f = s.flag f := by
  have hkept (e : t.sreg = s.sreg) : t.flag f = s.flag f := congrArg (getFlag f) e
  cases i with
  | halt | nop | mov | swap | bld | ldi | inp | pop | ret | sleep | brk | wdr | ijmp | rjmp => cases h; rfl
  | ldX | ldXInc | ldXDec | ldY | ldYInc | ldYDec | ldZ | ldZInc | ldZDec => cases h; exact hkept (loadVia_sreg ..)
  | lpmR0 | lpm | lpmInc =>
    obtain ⟨-, e⟩ | ⟨-, e⟩ := loadProgram_cases _ _ s
    · cases e.symm.trans h; rfl
    · cases e.symm.trans h
  | cpse | sbrc | sbrs | sbic | sbis => cases h; rw [skipIf_spec]; rfl
  | brbs | brbc => cases h; rw [branchIf_spec]; rfl
  | out | sbi | cbi => cases h; exact hkept (memWrite_sreg_off _ (not_atSreg_of_listed hn (List.Subset.refl _)))
  | stX | stXInc | stXDec | stY | stYInc | stYDec | stZ | stZInc | stZDec =>
    cases h; exact hkept (storeVia_sreg_off _ (not_atSreg_of_listed hn (List.Subset.refl _)))
  | push => cases h; exact hkept (push8_sreg_off _ (not_atSreg_of_listed hn (List.Subset.refl _)))
  | rcall | icall =>
    cases h
    exact hkept (callTo_sreg_off _ (not_atSreg_of_listed hn (List.subset_append_left _ _))
      (not_atSreg_of_listed hn (List.subset_append_right _ _)))
  | bst => cases h; exact (getFlag_putFlag ..).trans (if_neg ht)
  | reti => cases h; exact (getFlag_putFlag f .i true s.sreg).trans (if_neg hi)
  | bset b => exact absurd (.inl ⟨b, .inl rfl⟩) hn
  | bclr b => exact absurd (.inl ⟨b, .inr rfl⟩) hn
  | _ => nomatch hc

/-- The rule is kept: established by a flag computation, and otherwise carried over with its three flags. -/
theorem exec_keeps_signAgrees {i : Instr} {s t : State} (hn : ¬writesSregDirectly i s) (h : exec i s = .next t)
    (hs : SignAgrees s.sreg) : SignAgrees t.sreg := by
  cases hc : computesSign i with
  | true => exact exec_signAgrees hc h
  | false =>
    have hflag (f : Flag) : f ≠ .t → f ≠ .i → getFlag f t.sreg = getFlag f s.sreg :=
      exec_flag_of_not_computesSign hc hn h
    rw [SignAgrees, hflag .s nofun nofun, hflag .n nofun nofun, hflag .v nofun nofun]
    exact hs

/-- Settles O23, by the split between the instructions that compute N and V and the others. -/
theorem signIsNegativeXorOverflow : Obligations.SignIsNegativeXorOverflow :=
  ⟨fun _ _ _ => exec_signAgrees, fun _ _ _ => exec_keeps_signAgrees⟩

end Sys2Proof.Machine
end

section
/-! The decode table as a set of masks and patterns: which rows overlap, the round trip between words and
instructions, and the words that no row selects. -/

namespace Sys2Proof

/-! ## Words against a mask and a pattern -/

/-- A word under two masks determines both patterns on the bits the masks share. -/
theorem patterns_agree {w m₁ p₁ m₂ p₂ : Word} (h₁ : w &&& m₁ = p₁) (h₂ : w &&& m₂ = p₂) : p₁ &&& m₂ = p₂ &&& m₁ := by
  rw [← h₁, ← h₂, BitVec.and_assoc, BitVec.and_comm m₁ m₂, ← BitVec.and_assoc]

/-- A word is its pattern together with the bits outside the mask. -/
theorem pattern_or_rest {w mask pattern rest : Word} (h : w &&& mask = pattern) (hall : mask ||| rest = 0xFFFF#16) :
    pattern ||| (w &&& rest) = w := by
  rw [← h, ← BitVec.and_or_distrib_left, hall]
  exact BitVec.and_allOnes

theorem Row.selects_iff (row : Row) (w : Word) :
    row.selects w = true ↔ w &&& row.mask = row.pattern ∧ row.extra w = true := by
  simp [Row.selects]

/-! ## The three overlaps (30_encoding.md R84) -/

/-- The pairs of rows whose patterns agree where both masks look. -/
theorem table_overlaps : table.zipIdx.Pairwise fun a b =>
    a.1.pattern &&& b.1.mask = b.1.pattern &&& a.1.mask → (a.2, b.2) ∈ [(0, 68), (4, 5), (9, 10)] := by
  decide +kernel

/-- Settles O5: two rows that select one word agree where both masks look, and the table has three such pairs. -/
theorem onlyThreeRowPairsOverlap : Obligations.OnlyThreeRowPairsOverlap := by
  intro i j hi hj w hlt hsi hsj
  have hpair := List.pairwise_iff_getElem.1 table_overlaps i j (by simpa using hi) (by simpa using hj) hlt
  simp only [List.getElem_zipIdx, Nat.zero_add] at hpair
  exact hpair (patterns_agree ((Row.selects_iff _ _).1 hsi).1 ((Row.selects_iff _ _).1 hsj).1)

/-! ## The selected row -/

/-- A decoded word is selected by a row that builds the instruction, and by no row before it. -/
theorem decode_eq_ok_iff (w : Word) (i : Instr) :
    decode w = .ok i ↔ ∃ (n : Nat) (hn : n < table.length), table[n].selects w = true ∧ table[n].build w = i ∧
      ∀ m (hm : m < n), table[m].selects w = false := by
  rw [decode]
  cases hfind : table.find? fun row => row.selects w with
  | none =>
    have hnone := List.find?_eq_none.1 hfind
    simp only [reduceCtorEq, false_iff]
    rintro ⟨n, hn, hsel, -⟩
    exact hnone _ (List.getElem_mem hn) hsel
  | some row =>
    obtain ⟨hsel, n, hn, hrow, hfirst⟩ := List.find?_eq_some_iff_getElem.1 hfind
    simp only [Except.ok.injEq]
    constructor
    · rintro rfl
      exact ⟨n, hn, hrow ▸ hsel, by rw [hrow], fun m hm => by simpa using hfirst m hm⟩
    · rintro ⟨k, hk, hksel, hbuild, hkfirst⟩
      have hnk : ¬n < k := fun h => by simpa [hrow, hsel] using hkfirst n h
      have hkn : ¬k < n := fun h => by simpa [hksel] using hfirst k h
      obtain rfl : n = k := by omega
      rw [← hbuild, hrow]

theorem decode_eq_error_iff (w : Word) :
    decode w = .error (.unknownWord w) ↔ ∀ row ∈ table, row.selects w = false := by
  rw [decode]
  cases hfind : table.find? fun row => row.selects w with
  | none => simpa using hfind
  | some row =>
    simp only [reduceCtorEq, false_iff]
    intro hall
    have hmem := hall row (List.mem_of_find?_eq_some hfind)
    exact absurd (List.find?_some hfind) (by simp [hmem])

theorem decode_cases (w : Word) : (∃ i, decode w = .ok i) ∨ decode w = .error (.unknownWord w) := by
  rw [decode]
  cases table.find? fun row => row.selects w with
  | some row => exact .inl ⟨_, rfl⟩
  | none => exact .inr rfl

/-- The row of HALT selects one word. -/
theorem selects_halt_iff (w : Word) : table[0].selects w = true ↔ w = 0xCFFF := by
  have h : table[0].selects w = (w &&& BitVec.allOnes 16 == 0xCFFF && true) := rfl
  simpa [h] using iff_of_eq (congrArg (· = 0xCFFF#16) (BitVec.and_allOnes (x := w)))

/-- The rows of LSL and ROL select words with equal register fields. -/
theorem fieldsEqual_of_selects {row : Row} {w : Word} (hextra : row.extra = fieldsEqual) (h : row.selects w = true) :
    fieldD w = fieldR w := by
  have h' := ((Row.selects_iff row w).1 h).2
  rw [hextra] at h'
  simpa [fieldsEqual] using h'

/-- A well-formed instruction's row is the first that selects its word: at each of the three overlaps the
earlier row's words belong to no instruction of the later one. -/
theorem not_selected_before {w : Word} {m n : Nat} (hn : n < table.length) (hm : m < n)
    (hwf : WellFormed (table[n].build w)) (hsel : table[n].selects w = true) : table[m].selects w = false := by
  by_contra hsm
  have hsm : table[m].selects w = true := by simpa using hsm
  have hpair := onlyThreeRowPairsOverlap m n (hm.trans hn) hn w hm hsm hsel
  obtain ⟨rfl, rfl⟩ | ⟨rfl, rfl⟩ | ⟨rfl, rfl⟩ : (m = 0 ∧ n = 68) ∨ (m = 4 ∧ n = 5) ∨ (m = 9 ∧ n = 10) := by
    simpa using hpair
  · obtain rfl : w = 0xCFFF := (selects_halt_iff w).1 hsm
    exact absurd hwf (show ¬wellFormed (.rjmp (fieldK12 0xCFFF)) = true by decide)
  · have hd : fieldsDiffer (fieldD w) (fieldR w) = true := hwf
    simp [fieldsDiffer, fieldsEqual_of_selects (row := table[4]) rfl hsm] at hd
  · have hd : fieldsDiffer (fieldD w) (fieldR w) = true := hwf
    simp [fieldsDiffer, fieldsEqual_of_selects (row := table[9]) rfl hsm] at hd

namespace Laws.EncodeInRow

/-- The whole family. -/
theorem statement_all : ∀ i, Statement i
  | .halt => halt | .nop => nop | .cpc d r => cpc d r | .sbc d r => sbc d r | .lsl d => lsl d | .add d r => add d r
  | .cpse d r => cpse d r | .cp d r => cp d r | .sub d r => sub d r | .rol d => rol d | .adc d r => adc d r
  | .and d r => and d r | .eor d r => eor d r | .or d r => or d r | .mov d r => mov d r | .cpi d r => cpi d r
  | .sbci d r => sbci d r | .subi d r => subi d r | .ori d r => ori d r | .andi d r => andi d r | .ldZ d => ldZ d
  | .ldY d => ldY d | .stZ d => stZ d | .stY d => stY d | .ldZInc d => ldZInc d | .ldZDec d => ldZDec d
  | .lpm d => lpm d | .lpmInc d => lpmInc d | .ldYInc d => ldYInc d | .ldYDec d => ldYDec d | .ldX d => ldX d
  | .ldXInc d => ldXInc d | .ldXDec d => ldXDec d | .pop d => pop d | .stZInc d => stZInc d | .stZDec d => stZDec d
  | .stYInc d => stYInc d | .stYDec d => stYDec d | .stX d => stX d | .stXInc d => stXInc d | .stXDec d => stXDec d
  | .push d => push d | .com d => com d | .neg d => neg d | .swap d => swap d | .inc d => inc d | .asr d => asr d
  | .lsr d => lsr d | .ror d => ror d | .dec d => dec d | .bset d => bset d | .bclr d => bclr d | .ret => ret
  | .reti => reti | .sleep => sleep | .brk => brk | .wdr => wdr | .lpmR0 => lpmR0 | .ijmp => ijmp | .icall => icall
  | .adiw d r => adiw d r | .sbiw d r => sbiw d r | .cbi d r => cbi d r | .sbic d r => sbic d r | .sbi d r => sbi d r
  | .sbis d r => sbis d r | .inp d r => inp d r | .out d r => out d r | .rjmp d => rjmp d | .rcall d => rcall d
  | .ldi d r => ldi d r | .brbs d r => brbs d r | .brbc d r => brbc d r | .bld d r => bld d r | .bst d r => bst d r
  | .sbrc d r => sbrc d r | .sbrs d r => sbrs d r

end Laws.EncodeInRow

/-! ## Encoding and then decoding -/

theorem decode_encode {i : Instr} (hwf : WellFormed i) : decode (encode i) = .ok i := by
  obtain ⟨row, hmem, hsel, hbuild⟩ := Laws.EncodeInRow.statement_all i hwf
  obtain ⟨n, hn, rfl⟩ := List.getElem_of_mem hmem
  exact (decode_eq_ok_iff _ _).2
    ⟨n, hn, hsel, hbuild, fun m hm => not_selected_before hn hm (hbuild.symm ▸ hwf) hsel⟩

theorem Word.hi_append_lo (w : Word) : w.hi ++ w.lo = w := Machine.joinBytes_hi_lo w

/-- Settles O1: the row of the instruction selects its word, and no earlier row does. -/
theorem encodeThenDecode : Obligations.EncodeThenDecode := by
  intro i hwf
  refine ⟨decode_encode hwf, fun rest => ?_⟩
  have hword : decode ((encode i).hi ++ (encode i).lo) = .ok i := by rw [Word.hi_append_lo, decode_encode hwf]
  simp only [encodeBytes, List.cons_append, List.nil_append, decodeBytes, hword]

/-! ## The fields of a word, put back in their places -/

/-- A field read from a word and put back at its place is the word under the field's mask. -/
theorem placed_extract (w : Word) (pos len : Nat) :
    BitVec.ofNat 16 (w.extractLsb' pos len).toNat <<< pos = w &&& ((BitVec.allOnes len).setWidth 16 <<< pos) := by
  ext i hi
  rw [BitVec.ofNat_toNat]
  simp only [BitVec.getElem_shiftLeft, BitVec.getElem_and, BitVec.getElem_setWidth, BitVec.getLsbD_extractLsb',
    BitVec.getLsbD_allOnes]
  by_cases h : i < pos
  · simp [h]
  · simp [h, show pos + (i - pos) = i by omega, BitVec.getLsbD_eq_getElem hi, Bool.and_comm]

theorem append_toNat_div {m : Nat} (hi : BitVec m) (lo : BitVec 4) : (hi ++ lo).toNat / 16 = hi.toNat := by
  rw [BitVec.toNat_append, Nat.shiftLeft_eq, Nat.mul_comm, ← Nat.two_pow_add_eq_or_of_lt lo.isLt hi.toNat]
  have := lo.isLt
  omega

theorem append_toNat_mod {m : Nat} (hi : BitVec m) (lo : BitVec 4) : (hi ++ lo).toNat % 16 = lo.toNat := by
  rw [BitVec.toNat_append, Nat.shiftLeft_eq, Nat.mul_comm, ← Nat.two_pow_add_eq_or_of_lt lo.isLt hi.toNat]
  have := lo.isLt
  omega

theorem placed_low (w : Word) : BitVec.ofNat 16 (w.extractLsb' 0 4).toNat = w &&& 0x000F#16 :=
  (BitVec.shiftLeft_zero _).symm.trans (placed_extract w 0 4)

/-! Each field of 30_encoding.md R81 under its mask. -/

theorem placeD_fieldD (w : Word) : placeD (fieldD w) = w &&& 0x01F0#16 := placed_extract w 4 5

theorem placeR_fieldR (w : Word) : placeR (fieldR w) = w &&& 0x020F#16 := by
  have h1 : (fieldR w).val / 16 = (w.extractLsb' 9 1).toNat := append_toNat_div _ _
  have h2 : (fieldR w).val % 16 = (w.extractLsb' 0 4).toNat := append_toNat_mod _ _
  rw [placeR, h1, h2, placed_extract w 9 1, placed_low, ← BitVec.and_or_distrib_left]
  rfl

theorem placeHigh_fieldHigh (w : Word) : placeHigh (fieldHigh w) = w &&& 0x00F0#16 := by
  have h : (fieldHigh w).val % 16 = (w.extractLsb' 4 4).toNat := by
    have := (w.extractLsb' 4 4).isLt
    simp only [fieldHigh]
    omega
  rw [placeHigh, h]
  exact placed_extract w 4 4

theorem placeK8_fieldK8 (w : Word) : placeK8 (fieldK8 w) = w &&& 0x0F0F#16 := by
  rw [placeK8, fieldK8, append_toNat_div, append_toNat_mod, placed_extract w 8 4, placed_low,
    ← BitVec.and_or_distrib_left]
  rfl

theorem placeP_fieldP (w : Word) : placeP (fieldP w) = w &&& 0x0030#16 := placed_extract w 4 2

theorem placeK6_fieldK6 (w : Word) : placeK6 (fieldK6 w) = w &&& 0x00CF#16 := by
  rw [placeK6, fieldK6, append_toNat_div, append_toNat_mod, placed_extract w 6 2, placed_low,
    ← BitVec.and_or_distrib_left]
  rfl

theorem placeA5_fieldA5 (w : Word) : placeA5 (fieldA5 w) = w &&& 0x00F8#16 := placed_extract w 3 5

theorem placeA6_fieldA6 (w : Word) : placeA6 (fieldA6 w) = w &&& 0x060F#16 := by
  have h1 : (fieldA6 w).val / 16 = (w.extractLsb' 9 2).toNat := append_toNat_div _ _
  have h2 : (fieldA6 w).val % 16 = (w.extractLsb' 0 4).toNat := append_toNat_mod _ _
  rw [placeA6, h1, h2, placed_extract w 9 2, placed_low, ← BitVec.and_or_distrib_left]
  rfl

theorem placeB_fieldB (w : Word) : placeB (fieldB w) = w &&& 0x0007#16 :=
  (BitVec.shiftLeft_zero _).symm.trans (placed_extract w 0 3)

theorem placeS_fieldS (w : Word) : placeS (fieldS w) = w &&& 0x0070#16 := placed_extract w 4 3

theorem placeK12_fieldK12 (w : Word) : placeK12 (fieldK12 w) = w &&& 0x0FFF#16 := by
  rw [placeK12, BitVec.zeroExtend, ← BitVec.ofNat_toNat, ← BitVec.shiftLeft_zero (BitVec.ofNat 16 _)]
  exact placed_extract w 0 12

theorem placeK7_fieldK7 (w : Word) : placeK7 (fieldK7 w) = w &&& 0x03F8#16 := by
  rw [placeK7, BitVec.zeroExtend, ← BitVec.ofNat_toNat]
  exact placed_extract w 3 7

/-! ## The formats (30_encoding.md R81): a row's pattern and its fields make up the word -/

section
variable {w p : Word}

theorem rebuild_rr (h : w &&& 0xFC00#16 = p) : p ||| placeD (fieldD w) ||| placeR (fieldR w) = w := by
  rw [placeD_fieldD, placeR_fieldR, BitVec.or_assoc, ← BitVec.and_or_distrib_left]
  exact pattern_or_rest h (by decide)

theorem rebuild_ri (h : w &&& 0xF000#16 = p) : p ||| placeHigh (fieldHigh w) ||| placeK8 (fieldK8 w) = w := by
  rw [placeHigh_fieldHigh, placeK8_fieldK8, BitVec.or_assoc, ← BitVec.and_or_distrib_left]
  exact pattern_or_rest h (by decide)

theorem rebuild_r1 (h : w &&& 0xFE0F#16 = p) : p ||| placeD (fieldD w) = w := by
  rw [placeD_fieldD]
  exact pattern_or_rest h (by decide)

theorem rebuild_s (h : w &&& 0xFF8F#16 = p) : p ||| placeS (fieldS w) = w := by
  rw [placeS_fieldS]
  exact pattern_or_rest h (by decide)

theorem rebuild_fixed (h : w &&& 0xFFFF#16 = p) : p = w := h.symm.trans BitVec.and_allOnes

theorem rebuild_pi (h : w &&& 0xFF00#16 = p) : p ||| placeP (fieldP w) ||| placeK6 (fieldK6 w) = w := by
  rw [placeP_fieldP, placeK6_fieldK6, BitVec.or_assoc, ← BitVec.and_or_distrib_left]
  exact pattern_or_rest h (by decide)

theorem rebuild_ab (h : w &&& 0xFF00#16 = p) : p ||| placeA5 (fieldA5 w) ||| placeB (fieldB w) = w := by
  rw [placeA5_fieldA5, placeB_fieldB, BitVec.or_assoc, ← BitVec.and_or_distrib_left]
  exact pattern_or_rest h (by decide)

theorem rebuild_io (h : w &&& 0xF800#16 = p) : p ||| placeD (fieldD w) ||| placeA6 (fieldA6 w) = w := by
  rw [placeD_fieldD, placeA6_fieldA6, BitVec.or_assoc, ← BitVec.and_or_distrib_left]
  exact pattern_or_rest h (by decide)

theorem rebuild_k12 (h : w &&& 0xF000#16 = p) : p ||| placeK12 (fieldK12 w) = w := by
  rw [placeK12_fieldK12]
  exact pattern_or_rest h (by decide)

theorem rebuild_br (h : w &&& 0xFC00#16 = p) : p ||| placeB (fieldB w) ||| placeK7 (fieldK7 w) = w := by
  rw [placeB_fieldB, placeK7_fieldK7, BitVec.or_assoc, ← BitVec.and_or_distrib_left]
  exact pattern_or_rest h (by decide)

theorem rebuild_rb (h : w &&& 0xFE08#16 = p) : p ||| placeD (fieldD w) ||| placeB (fieldB w) = w := by
  rw [placeD_fieldD, placeB_fieldB, BitVec.or_assoc, ← BitVec.and_or_distrib_left]
  exact pattern_or_rest h (by decide)

end

/-! ## Decoding and then encoding -/

/-- Every word the row selects is the word of the instruction the row builds. -/
def Row.Rebuilds (row : Row) : Prop := ∀ w, row.selects w = true → encode (row.build w) = w

theorem Row.rebuilds_of_mask {row : Row} (h : ∀ w, w &&& row.mask = row.pattern → encode (row.build w) = w) :
    row.Rebuilds := fun w hsel => h w ((row.selects_iff w).1 hsel).1

/-- LSL and ROL: both fields hold the one register. -/
theorem Row.rebuilds_of_fieldsEqual {row : Row} (hextra : row.extra = fieldsEqual)
    (h : ∀ w, w &&& row.mask = row.pattern → fieldD w = fieldR w → encode (row.build w) = w) : row.Rebuilds :=
  fun w hsel => h w ((row.selects_iff w).1 hsel).1 (fieldsEqual_of_selects hextra hsel)

theorem sentinelNopRows_rebuild : ∀ row ∈ sentinelNopRows, row.Rebuilds := by
  simp only [sentinelNopRows, List.forall_mem_cons]
  and_intros
  iterate 2 exact Row.rebuilds_of_mask fun _ => rebuild_fixed
  simp

theorem twoRegisterRows_rebuild : ∀ row ∈ twoRegisterRows, row.Rebuilds := by
  have double {w p : Word} (h : w &&& 0xFC00#16 = p) (heq : fieldD w = fieldR w) :
      p ||| placeD (fieldD w) ||| placeR (fieldD w) = w := by
    have hw := rebuild_rr h
    rwa [← heq] at hw
  simp only [twoRegisterRows, List.forall_mem_cons]
  and_intros
  iterate 2 exact Row.rebuilds_of_mask fun _ => rebuild_rr
  exact Row.rebuilds_of_fieldsEqual rfl fun _ => double
  iterate 4 exact Row.rebuilds_of_mask fun _ => rebuild_rr
  exact Row.rebuilds_of_fieldsEqual rfl fun _ => double
  iterate 5 exact Row.rebuilds_of_mask fun _ => rebuild_rr
  simp

theorem immediateRows_rebuild : ∀ row ∈ immediateRows, row.Rebuilds := by
  simp only [immediateRows, List.forall_mem_cons]
  and_intros
  iterate 5 exact Row.rebuilds_of_mask fun _ => rebuild_ri
  simp

theorem loadStoreRows_rebuild : ∀ row ∈ loadStoreRows, row.Rebuilds := by
  simp only [loadStoreRows, List.forall_mem_cons]
  and_intros
  iterate 22 exact Row.rebuilds_of_mask fun _ => rebuild_r1
  simp

theorem oneRegisterRows_rebuild : ∀ row ∈ oneRegisterRows, row.Rebuilds := by
  simp only [oneRegisterRows, List.forall_mem_cons]
  and_intros
  iterate 8 exact Row.rebuilds_of_mask fun _ => rebuild_r1
  simp

theorem fixedRows_rebuild : ∀ row ∈ fixedRows, row.Rebuilds := by
  simp only [fixedRows, List.forall_mem_cons]
  and_intros
  iterate 2 exact Row.rebuilds_of_mask fun _ => rebuild_s
  iterate 8 exact Row.rebuilds_of_mask fun _ => rebuild_fixed
  simp

theorem wordAndIoBitRows_rebuild : ∀ row ∈ wordAndIoBitRows, row.Rebuilds := by
  simp only [wordAndIoBitRows, List.forall_mem_cons]
  and_intros
  iterate 2 exact Row.rebuilds_of_mask fun _ => rebuild_pi
  iterate 4 exact Row.rebuilds_of_mask fun _ => rebuild_ab
  simp

theorem ioAndRelativeRows_rebuild : ∀ row ∈ ioAndRelativeRows, row.Rebuilds := by
  simp only [ioAndRelativeRows, List.forall_mem_cons]
  and_intros
  iterate 2 exact Row.rebuilds_of_mask fun _ => rebuild_io
  iterate 2 exact Row.rebuilds_of_mask fun _ => rebuild_k12
  exact Row.rebuilds_of_mask fun _ => rebuild_ri
  simp

theorem branchAndBitRows_rebuild : ∀ row ∈ branchAndBitRows, row.Rebuilds := by
  simp only [branchAndBitRows, List.forall_mem_cons]
  and_intros
  iterate 2 exact Row.rebuilds_of_mask fun _ => rebuild_br
  iterate 4 exact Row.rebuilds_of_mask fun _ => rebuild_rb
  simp

theorem table_rebuild : ∀ row ∈ table, row.Rebuilds := by
  simp only [table, List.forall_mem_append]
  exact ⟨⟨⟨⟨⟨⟨⟨⟨sentinelNopRows_rebuild, twoRegisterRows_rebuild⟩, immediateRows_rebuild⟩, loadStoreRows_rebuild⟩,
    oneRegisterRows_rebuild⟩, fixedRows_rebuild⟩, wordAndIoBitRows_rebuild⟩, ioAndRelativeRows_rebuild⟩,
    branchAndBitRows_rebuild⟩

theorem encode_of_decode {w : Word} {i : Instr} (h : decode w = .ok i) : encode i = w := by
  obtain ⟨n, hn, hsel, rfl, -⟩ := (decode_eq_ok_iff w i).1 h
  exact table_rebuild _ (List.getElem_mem hn) w hsel

/-- The register that a four-bit field of F-RI means. -/
def highOf (d : Reg) : Reg := ⟨16 + d.val % 16, by omega⟩

/-- The well-formed instruction of the same word. -/
def canonical : Instr → Instr
  | .add d r => if d = r then .lsl d else .add d r
  | .adc d r => if d = r then .rol d else .adc d r
  | .rjmp k => if k = 0xFFF then .halt else .rjmp k
  | .cpi d k => .cpi (highOf d) k
  | .sbci d k => .sbci (highOf d) k
  | .subi d k => .subi (highOf d) k
  | .ori d k => .ori (highOf d) k
  | .andi d k => .andi (highOf d) k
  | .ldi d k => .ldi (highOf d) k
  | i => i

@[simp] theorem isHighReg_highOf (d : Reg) : isHighReg (highOf d) = true := by simp [isHighReg, highOf]

@[simp] theorem placeHigh_highOf (d : Reg) : placeHigh (highOf d) = placeHigh d := by simp [placeHigh, highOf]

theorem canonical_wellFormed (i : Instr) : WellFormed (canonical i) := by
  cases i with
  | add | adc | rjmp => simp only [canonical]; split <;> simp_all [WellFormed, wellFormed, fieldsDiffer, notSentinel]
  | cpi | sbci | subi | ori | andi | ldi => exact isHighReg_highOf _
  | _ => rfl

theorem encode_canonical (i : Instr) : encode (canonical i) = encode i := by
  cases i with
  | add | adc => simp only [canonical]; split <;> simp_all [encode]
  | rjmp => simp only [canonical]; split <;> simp_all [encode, placeK12]
  | cpi | sbci | subi | ori | andi | ldi => simp [canonical, encode]
  | _ => rfl

/-- Settles O2: the selecting row's pattern and fields make up the word, and the word decodes to the well-formed
one of the instructions it encodes. -/
theorem decodeThenEncode : Obligations.DecodeThenEncode := by
  intro w i h
  have hword : encode i = w := encode_of_decode h
  have hcanonical : decode w = .ok (canonical i) := by
    rw [← hword, ← encode_canonical]
    exact decode_encode (canonical_wellFormed i)
  have heq : i = canonical i := by simpa [h] using hcanonical
  exact ⟨heq ▸ canonical_wellFormed i, hword⟩

end Sys2Proof
end

section
/-! The words that no row selects (30_encoding.md R86): each region is a mask and a pattern with exceptions; no row
lies in a region, and the rows and the regions together cover every word. -/

namespace Sys2Proof

/-! ## Regions -/

/-- A region of 30_encoding.md section 4: the words under a mask with a pattern, but for the words under one of
the listed masks and patterns. -/
structure Region where
  mask : Word
  pattern : Word
  exceptions : List (Word × Word) := []

def Region.holds (r : Region) (w : Word) : Bool :=
  w &&& r.mask == r.pattern && r.exceptions.all fun e => w &&& e.1 != e.2

/-- The regions of `unknownRegion`, in its order. -/
def regions : List Region := [
  ⟨0xFF00, 0x0000, [(0xFFFF, 0x0000)]⟩, ⟨0xFF00, 0x0100, []⟩, ⟨0xFF00, 0x0200, []⟩, ⟨0xFF00, 0x0300, []⟩,
  ⟨0xD000, 0x8000, [(0x2C07, 0x0000)]⟩] ++
  [0x9000, 0x9003, 0x9006, 0x9007, 0x9008, 0x900B].map (fun p => ⟨0xFE0F, p, []⟩) ++
  [0x9200, 0x9203, 0x9204, 0x9205, 0x9206, 0x9207, 0x9208, 0x920B].map (fun p => ⟨0xFE0F, p, []⟩) ++
  [⟨0xFE0F, 0x9404, []⟩, ⟨0xFE0F, 0x940B, []⟩, ⟨0xFE0E, 0x940C, []⟩, ⟨0xFE0E, 0x940E, []⟩] ++
  [0x9528, 0x9538, 0x9548, 0x9558, 0x9568, 0x9578, 0x95B8, 0x95D8, 0x95E8, 0x95F8].map (fun p => ⟨0xFFFF, p, []⟩) ++
  [⟨0xFE0F, 0x9409, [(0xFFFF, 0x9409), (0xFFFF, 0x9509)]⟩, ⟨0xFC00, 0x9C00, []⟩, ⟨0xF808, 0xF808, []⟩]

/-- A test of the seven high bits and one of the low four are one test under the joined mask. -/
theorem and_high_low_iff {w p k : Word} (hp : p &&& 0xFE00#16 = p) (hk : k &&& 0x000F#16 = k) :
    w &&& 0xFE00#16 = p ∧ w &&& 0x000F#16 = k ↔ w &&& 0xFE0F#16 = p ||| k := by
  have hsum : w &&& 0xFE0F#16 = w &&& 0xFE00#16 ||| w &&& 0x000F#16 := (BitVec.and_or_distrib_left (x := w)).symm ▸ rfl
  constructor
  · rintro ⟨rfl, rfl⟩
    exact hsum
  · intro h
    have hhigh : w &&& 0xFE00#16 = (w &&& 0xFE0F#16) &&& 0xFE00#16 := by rw [BitVec.and_assoc]; rfl
    have hlow : w &&& 0x000F#16 = (w &&& 0xFE0F#16) &&& 0x000F#16 := by rw [BitVec.and_assoc]; rfl
    rw [hhigh, hlow, h, BitVec.and_or_distrib_right, BitVec.and_or_distrib_right, hp, hk, ← hp, ← hk]
    simp [BitVec.and_assoc]

theorem unknownRegion_iff (w : Word) : Machine.unknownRegion w = true ↔ ∃ r ∈ regions, r.holds w = true := by
  have hw : w &&& 0xFFFF#16 = w := BitVec.and_allOnes
  simp [regions, Machine.unknownRegion, Region.holds, hw, and_high_low_iff, and_or_left, or_assoc, and_assoc,
    -List.all_eq_true]

/-! ## No row lies in a region -/

/-- The row and the region differ on a bit both masks look at, or an exception covers the row. -/
def Row.avoids (row : Row) (r : Region) : Bool :=
  row.pattern &&& r.mask != r.pattern &&& row.mask ||
    r.exceptions.any fun e => e.1 &&& row.mask == e.1 && row.pattern &&& e.1 == e.2

theorem Row.not_holds_of_avoids {row : Row} {r : Region} {w : Word} (h : row.avoids r = true)
    (hsel : row.selects w = true) : r.holds w = false := by
  have hrow := ((row.selects_iff w).1 hsel).1
  by_contra hr
  obtain ⟨hmask, hexc⟩ : w &&& r.mask = r.pattern ∧ ∀ e ∈ r.exceptions, w &&& e.1 ≠ e.2 := by
    simpa only [Region.holds, Bool.not_eq_false, Bool.and_eq_true, beq_iff_eq, List.all_eq_true, bne_iff_ne] using hr
  obtain hne | ⟨e, he, hcover, hpat⟩ : row.pattern &&& r.mask ≠ r.pattern &&& row.mask ∨
      ∃ e ∈ r.exceptions, e.1 &&& row.mask = e.1 ∧ row.pattern &&& e.1 = e.2 := by
    simpa only [Row.avoids, Bool.or_eq_true, bne_iff_ne, List.any_eq_true, Bool.and_eq_true, beq_iff_eq] using h
  · exact hne (patterns_agree hrow hmask)
  · apply hexc e he
    rw [← hpat, ← hrow, BitVec.and_assoc, BitVec.and_comm row.mask, hcover]

theorem table_avoids_regions : ∀ row ∈ table, ∀ r ∈ regions, row.avoids r = true := by
  decide +kernel

/-! ## The rows and the regions cover every word -/

/-- Every word that is `p` on the bits of `m` lies in a row's mask and pattern or in a region. -/
def coveredAt (m p : Word) : Bool :=
  table.any (fun row => row.mask &&& m == row.mask && p &&& row.mask == row.pattern) ||
    regions.any fun r => r.mask &&& m == r.mask && p &&& r.mask == r.pattern &&
      r.exceptions.all fun e => p &&& e.1 != e.2 &&& m

/-- The same, after splitting on the listed bits as far as needed. -/
def covered : List Nat → Word → Word → Bool
  | [], m, p => coveredAt m p
  | b :: bits, m, p =>
    coveredAt m p ||
      (covered bits (m ||| BitVec.twoPow 16 b) p && covered bits (m ||| BitVec.twoPow 16 b) (p ||| BitVec.twoPow 16 b))

/-- An order that keeps the splitting short: the bits of a register field come last. -/
def splitOrder : List Nat := [15, 14, 13, 12, 11, 10, 9, 3, 8, 1, 2, 0, 7, 6, 5, 4]

theorem all_covered : covered splitOrder 0 0 = true := by
  decide +kernel

/-- The word lies in a row's mask and pattern, or in a region. -/
def Covered (w : Word) : Prop :=
  (∃ row ∈ table, w &&& row.mask = row.pattern) ∨ ∃ r ∈ regions, r.holds w = true

/-- What a known part of the word says under a mask inside it. -/
theorem and_known {w m p k : Word} (hw : w &&& m = p) (hk : k &&& m = k) : w &&& k = p &&& k := by
  rw [← hw, BitVec.and_assoc, BitVec.and_comm m k, hk]

theorem coveredAt_sound {m p w : Word} (h : coveredAt m p = true) (hw : w &&& m = p) : Covered w := by
  simp only [coveredAt, Bool.or_eq_true, List.any_eq_true, Bool.and_eq_true, beq_iff_eq, List.all_eq_true,
    bne_iff_ne] at h
  obtain ⟨row, hmem, hmask, hpat⟩ | ⟨r, hmem, ⟨hmask, hpat⟩, hexc⟩ := h
  · exact .inl ⟨row, hmem, (and_known hw hmask).trans hpat⟩
  · refine .inr ⟨r, hmem, ?_⟩
    simp only [Region.holds, Bool.and_eq_true, beq_iff_eq, List.all_eq_true, bne_iff_ne]
    refine ⟨(and_known hw hmask).trans hpat, fun e he heq => hexc e he ?_⟩
    rw [← hw, ← heq, BitVec.and_assoc, BitVec.and_assoc, BitVec.and_comm m e.1]

theorem covered_sound {bits : List Nat} {m p w : Word} (h : covered bits m p = true) (hw : w &&& m = p) :
    Covered w := by
  induction bits generalizing m p with
  | nil => exact coveredAt_sound h hw
  | cons b bits ih =>
    simp only [covered, Bool.or_eq_true, Bool.and_eq_true] at h
    obtain hat | ⟨hclear, hset⟩ := h
    · exact coveredAt_sound hat hw
    · cases hb : w.getLsbD b with
      | false =>
        refine ih hclear ?_
        rw [BitVec.and_or_distrib_left, hw, BitVec.and_twoPow, hb]
        simp
      | true =>
        refine ih hset ?_
        rw [BitVec.and_or_distrib_left, hw, BitVec.and_twoPow, hb]
        simp

theorem covered_every (w : Word) : Covered w := covered_sound all_covered (by simp)

/-- Only LSL and ROL have an extra constraint, and ADD and ADC have their masks and patterns. -/
theorem table_extra : ∀ row ∈ table, row.extra = always ∨
    row.mask = table[5].mask ∧ (row.pattern = table[5].pattern ∨ row.pattern = table[10].pattern) := by
  simp only [table, List.forall_mem_append]
  simp [sentinelNopRows, twoRegisterRows, immediateRows, loadStoreRows, oneRegisterRows, fixedRows, wordAndIoBitRows,
    ioAndRelativeRows, branchAndBitRows]

/-- A word under some row's mask and pattern is selected by a row. -/
theorem exists_selects {w : Word} (h : ∃ row ∈ table, w &&& row.mask = row.pattern) :
    ∃ row ∈ table, row.selects w = true := by
  have of_always {row : Row} (hmem : row ∈ table) (hextra : row.extra = always) (hm : w &&& row.mask = row.pattern) :
      ∃ row ∈ table, row.selects w = true :=
    ⟨row, hmem, (row.selects_iff w).2 ⟨hm, by rw [hextra]; rfl⟩⟩
  obtain ⟨row, hmem, hm⟩ := h
  obtain hextra | ⟨hmask, hpat | hpat⟩ := table_extra row hmem
  · exact of_always hmem hextra hm
  · exact of_always (row := table[5]) (List.getElem_mem _) rfl (by rw [← hmask, ← hpat, hm])
  · exact of_always (row := table[10]) (List.getElem_mem _) rfl (by rw [← hpat, ← hm, hmask]; rfl)

/-! ## The statements -/

/-- Settles O3: no row lies in a region, and a word outside every region lies in a row. -/
theorem unknownWordsAreTheListedRegions : Obligations.UnknownWordsAreTheListedRegions := by
  intro w
  refine ⟨fun hunknown => ?_, fun hknown => ?_⟩
  · obtain ⟨r, hr, hholds⟩ := (unknownRegion_iff w).1 hunknown
    refine (decode_eq_error_iff w).2 fun row hrow => ?_
    by_contra hsel
    have hsel : row.selects w = true := by simpa using hsel
    simp [Row.not_holds_of_avoids (table_avoids_regions row hrow r hr) hsel] at hholds
  · have hrow : ∃ row ∈ table, w &&& row.mask = row.pattern := by
      refine (covered_every w).resolve_right fun hregion => ?_
      simp [(unknownRegion_iff w).2 hregion] at hknown
    obtain ⟨row, hmem, hsel⟩ := exists_selects hrow
    refine (decode_cases w).resolve_right fun herror => ?_
    simp [(decode_eq_error_iff w).1 herror row hmem] at hsel

/-- Settles O4, by running the decoder on the nine words. -/
theorem writtenWordsDecode : Obligations.WrittenWordsDecode := by
  unfold Obligations.WrittenWordsDecode
  decide

end Sys2Proof
end

section
/-! What executing one instruction can do to the fields that registers, SREG, SP and pc leave out, when it stops, and what
follows for one step and for runs of any length. -/

namespace Sys2Proof.Machine

/-! ## What an instruction keeps -/

/-- An instruction of class Normal keeps everything but registers, SREG, SP, pc, RAM bytes and the serial stream. -/
theorem exec_keeps_of_normal {i : Instr} {s t : State} (hc : classOf i = .normal) (h : exec i s = .next t) :
    Keeps s t := by
  cases i with
  | nop | sleep | wdr | brk => cases h; exact .refl s
  | add | adc | lsl | rol => cases h; exact addTo_keeps ..
  | sub | subi => cases h; exact subFrom_keeps ..
  | sbc | sbci => cases h; exact subChainFrom_keeps ..
  | cp | cpi | cpc | bset | bclr | bst => cases h; exact setSreg_keeps ..
  | and | andi | or | ori | eor | com | inc | dec => cases h; exact writeWithFlags_keeps ..
  | neg => cases h; exact (setReg_keeps ..).trans (setSreg_keeps ..)
  | adiw | sbiw => cases h; exact (setPair_keeps ..).trans (setSreg_keeps ..)
  | lsr | ror | asr => cases h; exact shiftRightTo_keeps ..
  | mov | ldi | swap | bld | inp => cases h; exact setReg_keeps ..
  | ldX | ldXInc | ldXDec | ldY | ldYInc | ldYDec | ldZ | ldZInc | ldZDec => cases h; exact loadVia_keeps ..
  | stX | stXInc | stXDec | stY | stYInc | stYDec | stZ | stZInc | stZDec => cases h; exact storeVia_keeps ..
  | lpmR0 | lpm | lpmInc =>
    obtain ⟨-, e⟩ | ⟨-, e⟩ := loadProgram_cases _ _ s
    · cases e.symm.trans h
      exact ((beforeAccess_keeps ..).trans (afterAccess_keeps ..)).trans (setReg_keeps ..)
    · cases e.symm.trans h
  | pop => cases h; exact (pop8State_keeps s).trans (setReg_keeps ..)
  | push => cases h; exact push8_keeps ..
  | cpse | sbrc | sbrs | sbic | sbis => cases h; rw [skipIf_spec]; exact setPc_keeps ..
  | brbs | brbc => cases h; rw [branchIf_spec]; exact setPc_keeps ..
  | cbi | sbi => cases h; exact modifyIo_keeps ..
  | out => cases h; exact memWrite_keeps ..
  | rjmp | ijmp => cases h; exact setPc_keeps ..
  | halt | rcall | icall | ret | reti => nomatch hc

/-- The instructions of another class. -/
theorem classOf_ne_normal {i : Instr} (hc : classOf i ≠ .normal) :
    i = .halt ∨ (∃ k, i = .rcall k) ∨ i = .icall ∨ i = .ret ∨ i = .reti := by
  cases i with
  | halt | rcall | icall | ret | reti => simp
  | _ => exact absurd rfl hc

theorem callTo_keeps (target : Word) (s : State) :
    Keeps s { callTo target s with running := s.running, cls := s.cls } := by
  have k := push16_keeps s s.pc
  rw [callTo_spec]
  exact ⟨k.programBase, rfl, rfl, k.params, k.store, k.ram, k.host⟩

theorem callTo_running (target : Word) (s : State) : (callTo target s).running = s.running := by
  rw [callTo_spec]
  exact (push16_keeps s s.pc).running

/-- HALT, the calls and the returns also write `running` and the class. -/
theorem exec_keeps_but_class {i : Instr} {s t : State} (h : exec i s = .next t) :
    Keeps s { t with running := s.running, cls := s.cls } := by
  by_cases hc : classOf i = .normal
  · have k := exec_keeps_of_normal hc h
    exact ⟨k.programBase, rfl, rfl, k.params, k.store, k.ram, k.host⟩
  · obtain rfl | ⟨k, rfl⟩ | rfl | rfl | rfl := classOf_ne_normal hc <;> cases h
    · exact .of_eq rfl rfl rfl rfl rfl rfl rfl
    · exact callTo_keeps _ s
    · exact callTo_keeps _ s
    · exact .of_eq rfl rfl rfl rfl rfl rfl rfl
    · exact .of_eq rfl rfl rfl rfl rfl rfl rfl

theorem exec_running {i : Instr} {s t : State} (h : exec i s = .next t) :
    t.running = if i = .halt then false else s.running := by
  by_cases hc : classOf i = .normal
  · have hne : i ≠ .halt := by rintro rfl; nomatch hc
    rw [if_neg hne]
    exact (exec_keeps_of_normal hc h).running
  · obtain rfl | ⟨k, rfl⟩ | rfl | rfl | rfl := classOf_ne_normal hc <;> cases h
    · rfl
    · exact callTo_running _ s
    · exact callTo_running _ s
    · rfl
    · rfl

/-- The class that 40_step_cycle.md R106 gives the instruction; Normal is left as the step handed it over. -/
theorem exec_cls {i : Instr} {s t : State} (h : exec i s = .next t) :
    t.cls = if classOf i = .normal then s.cls else some (classOf i) := by
  by_cases hc : classOf i = .normal
  · rw [if_pos hc]
    exact (exec_keeps_of_normal hc h).cls
  · obtain rfl | ⟨k, rfl⟩ | rfl | rfl | rfl := classOf_ne_normal hc <;> cases h <;> rfl

/-! ## When an instruction stops -/

/-- The fault of a program-memory read outside the Byte Store. -/
def OutsideStore (s : State) (f : Fault) : Prop :=
  ∃ off : Word, s.params.storeSize ≤ s.programBase + off.toNat ∧ f = .storeRange (s.programBase + off.toNat)

/-- Every instruction answers a next state; only LPM may fault instead. -/
theorem exec_answers (i : Instr) (s : State) :
    (∃ t, exec i s = .next t) ∨ ∃ f, exec i s = .fault f ∧ OutsideStore s f := by
  cases i with
  | lpmR0 | lpm | lpmInc =>
    obtain ⟨-, e⟩ | ⟨hout, e⟩ := loadProgram_cases _ _ s
    · exact .inl ⟨_, e⟩
    · exact .inr ⟨_, e, _, hout, rfl⟩
  | _ => exact .inl ⟨_, rfl⟩

/-! ## Vector steps -/

/-- A vector step keeps pc aside, program base, `running` and parameters; its class is Return. -/
theorem vectorStep_control {op : HostOp} {s t : State} (h : vectorStep op s = .next t) :
    t.programBase = s.programBase ∧ t.running = s.running ∧ t.params = s.params ∧ t.cls = some .ret := by
  obtain ⟨r, -, rfl⟩ := vectorStep_next op s t h
  obtain ⟨-, hbase, hrun, -, hparams, -⟩ := applyReply_control (s.pair .r22) r s
  exact ⟨hbase, hrun, hparams, rfl⟩

/-! ## When a step stops -/

theorem step_not_refused (s : State) (r : Refusal) : step s ≠ .refused r := by
  obtain ⟨-, e⟩ | ⟨-, f, -, e⟩ | ⟨-, w, op, -, -, e⟩ | ⟨-, w, i, -, -, -, e⟩ | ⟨-, w, _, -, -, -, e⟩ := step_cases s <;>
    rw [e]
  · nofun
  · nofun
  · exact vectorStep_not_refused op _ r
  · obtain ⟨t, h⟩ | ⟨f, h, -⟩ := exec_answers i (advance s) <;> rw [h] <;> nofun
  · nofun

theorem fetchWord_error {s : State} {f : Fault} (h : fetchWord s = .error f) : OutsideStore s f := by
  obtain ⟨-, -, e⟩ | ⟨off, hout, e⟩ := fetchWord_cases s
  · cases e.symm.trans h
  · cases e.symm.trans h
    exact ⟨off, hout, rfl⟩

/-- A fault is a program-memory read outside the Byte Store, by a Running core. -/
theorem step_fault {s : State} {f : Fault} (h : step s = .fault f) : s.running = true ∧ OutsideStore s f := by
  obtain ⟨-, e⟩ | ⟨hr, g, hf, e⟩ | ⟨hr, w, op, -, -, e⟩ | ⟨hr, w, i, -, -, -, e⟩ | ⟨-, w, _, -, -, -, e⟩ :=
    step_cases s <;> rw [e] at h
  · cases h
  · cases h
    exact ⟨hr, fetchWord_error hf⟩
  · exact ⟨hr, vectorStep_fault op (advance s) f h⟩
  · obtain ⟨t, h'⟩ | ⟨g, h', hout⟩ := exec_answers i (advance s)
    · cases h'.symm.trans h
    · cases h'.symm.trans h
      exact ⟨hr, hout⟩
  · cases h

theorem progRead_outside {s : State} {off : Word} (h : s.params.storeSize ≤ s.programBase + off.toNat) :
    progRead s off = .error (.storeRange (s.programBase + off.toNat)) := if_neg (Nat.not_lt.2 h)

theorem progRead_inside {s : State} {off : Word} (h : s.programBase + off.toNat < s.params.storeSize) :
    progRead s off = .ok (Memory.read s.store (s.programBase + off.toNat)) := if_pos h

/-- Settles O11, by the five ways of a step and the one way each of fetch, LPM and string scan can fail. -/
theorem stepStopsExactlyOutsideTheStore : Obligations.StepStopsExactlyOutsideTheStore := by
  refine ⟨step_not_refused, fun s f => step_fault, fun s hr hlo => ?_, fun s hr hlo hhi => ?_⟩
  · exact step_fetch_error s _ hr (by rw [fetchWord, progRead_outside hlo])
  · exact step_fetch_error s _ hr (by rw [fetchWord, progRead_inside hlo, progRead_outside hhi])

/-! ## What a step keeps, and runs -/

theorem step_base_params {s t : State} (h : step s = .next t) : t.programBase = s.programBase ∧ t.params = s.params := by
  obtain ⟨-, e⟩ | ⟨-, f, -, e⟩ | ⟨-, w, op, -, -, e⟩ | ⟨-, w, i, -, -, -, e⟩ | ⟨-, w, _, -, -, -, e⟩ := step_cases s <;>
    rw [e] at h
  · cases h; exact ⟨rfl, rfl⟩
  · cases h
  · obtain ⟨hbase, -, hparams, -⟩ := vectorStep_control h
    exact ⟨hbase, hparams⟩
  · have k := exec_keeps_but_class h
    exact ⟨k.programBase, k.params⟩
  · cases h; exact ⟨rfl, rfl⟩

/-- A property of the start and of every step is one of every state a run answers. -/
theorem run_induction {P : State → Prop} (hstep : ∀ s t, P s → step s = .next t → P t) {k : Nat} {s t : State}
    (hs : P s) (h : Sys2Proof.core.run k s = .next t) : P t := by
  induction k generalizing s with
  | zero => cases (run_zero s).symm.trans h; exact hs
  | succ k ih =>
    cases hn : step s with
    | next u => exact ih (hstep s u hs hn) ((run_succ_of_next k s u hn).symm.trans h)
    | fault f => cases (run_succ_of_fault k s f hn).symm.trans h
    | refused r => cases (run_succ_of_refused k s r hn).symm.trans h

/-- Settles O16: no step changes program base or parameters, so no run does. -/
theorem baseNeverChanges : Obligations.BaseNeverChanges := by
  refine ⟨fun _ _ => rfl, fun k s t h => ?_⟩
  refine run_induction (P := fun u => u.programBase = s.programBase ∧ u.params = s.params) ?_ ⟨rfl, rfl⟩ h
  intro u v ⟨hbase, hparams⟩ huv
  obtain ⟨hbase', hparams'⟩ := step_base_params huv
  exact ⟨hbase'.trans hbase, hparams'.trans hparams⟩

theorem LaunchSafe.not_outside {s : State} (h : LaunchSafe s) (f : Fault) : ¬OutsideStore s f := by
  rintro ⟨off, hout, -⟩
  have := off.isLt
  simp only [LaunchSafe] at h
  omega

theorem LaunchSafe.stepSafe {s : State} (h : LaunchSafe s) : StepSafe s := by
  cases hn : step s with
  | next t => exact ⟨t, hn⟩
  | fault f => exact absurd (step_fault hn).2 (h.not_outside f)
  | refused r => exact absurd hn (step_not_refused s r)

theorem LaunchSafe.step {s t : State} (h : LaunchSafe s) (hn : step s = .next t) : LaunchSafe t := by
  obtain ⟨hbase, hparams⟩ := step_base_params hn
  simpa only [LaunchSafe, hbase, hparams] using h

/-- Settles O12, by induction on the number of steps: the premise excludes the one fault and every step keeps it. -/
theorem launchPremiseRunsForever : Obligations.LaunchPremiseRunsForever := by
  intro s hs k
  induction k generalizing s with
  | zero => exact ⟨s, run_zero s⟩
  | succ k ih =>
    obtain ⟨t, hn⟩ := hs.stepSafe
    obtain ⟨u, hu⟩ := ih t (hs.step hn)
    exact ⟨u, (run_succ_of_next k s t hn).trans hu⟩

/-- Settles O9, by induction on the number of steps: a step of a Halted core answers a Halted core. -/
theorem haltedIsTerminal : Obligations.HaltedIsTerminal := by
  intro s k hr
  induction k generalizing s with
  | zero => exact run_succ_of_next 0 s _ (step_halted s hr)
  | succ k ih => exact (run_succ_of_next (k + 1) s _ (step_halted s hr)).trans (ih _ hr)

/-! ## One decoded step -/

/-- Settles O6: the fetch reads the two bytes, and the step runs their word. -/
theorem stepRunsDecodedInstruction : Obligations.StepRunsDecodedInstruction := by
  intro s hr hv hlo hhi w
  have hfetch : fetchWord s = .ok w := by rw [fetchWord, progRead_inside hlo, progRead_inside hhi]
  have hstep : step s = runWord w (advance s) := step_word s w hr hfetch hv
  exact ⟨fun i hd => hstep.trans (runWord_ok w _ i hd), fun e hd => hstep.trans (runWord_error w _ e hd)⟩

/-- Settles O8, by running the vector test on the offsets. -/
theorem vectorTableNamesThirteenOperations : Obligations.VectorTableNamesThirteenOperations := by
  unfold Obligations.VectorTableNamesThirteenOperations
  decide

/-- Settles O10: such a word decodes to nothing, and taking the exception writes `running` and the class. -/
theorem unknownWordHalts : Obligations.UnknownWordHalts := by
  intro s w hr hv hfetch hunknown
  have hd : decode w = .error (.unknownWord w) := (unknownWordsAreTheListedRegions w).1 hunknown
  rw [step_word s w hr hfetch hv, runWord_error w _ _ hd]
  rfl

theorem decode_halt_iff {w : Word} {i : Instr} (h : decode w = .ok i) : i = .halt ↔ w = 0xCFFF := by
  constructor
  · rintro rfl
    exact (encode_of_decode h).symm
  · rintro rfl
    exact (Except.ok.inj ((decode_encode (i := .halt) rfl).symm.trans h)).symm

/-- Settles O15: of the ways a Running core's step answers, HALT and the exception alone clear `running`. -/
theorem onlyHaltAndUnknownStop : Obligations.OnlyHaltAndUnknownStop := by
  refine ⟨fun s t w hr hfetch hn => ?_, fun s t hn ht => ?_⟩
  · cases hv : vectorOf s.pc with
    | some op =>
      rw [step_vector s w op hr hfetch hv] at hn
      obtain ⟨-, hrun, -, -⟩ := vectorStep_control hn
      have hrun : t.running = true := hrun.trans hr
      exact ⟨iff_of_false (by simp [hrun]) (by simp), by simp [hrun]⟩
    | none =>
      rw [step_word s w hr hfetch hv] at hn
      obtain ⟨i, hd⟩ | hd := decode_cases w
      · rw [runWord_ok w _ i hd] at hn
        have hrun := exec_running hn
        by_cases hhalt : i = .halt
        · have hw := (decode_halt_iff hd).1 hhalt
          subst hhalt
          exact ⟨iff_of_true hrun ⟨rfl, .inl hw⟩, fun _ => by rw [exec_cls hn, if_pos hw]; rfl⟩
        · have hw := mt (decode_halt_iff hd).2 hhalt
          have hrun : t.running = true := by rw [hrun, if_neg hhalt]; exact hr
          refine ⟨iff_of_false (by simp [hrun]) ?_, by simp [hrun]⟩
          rintro ⟨-, h | ⟨e, he⟩⟩
          · exact hw h
          · cases hd.symm.trans he
      · rw [runWord_error w _ _ hd] at hn
        cases hn
        have hw : w ≠ 0xCFFF := by
          rintro rfl
          cases hd.symm.trans (decode_encode (i := .halt) rfl)
        exact ⟨iff_of_true rfl ⟨rfl, .inr ⟨_, hd⟩⟩, fun _ => by rw [if_neg hw]; rfl⟩
  · cases hr : s.running with
    | true => rfl
    | false =>
      cases (step_halted s hr).symm.trans hn
      exact hr.symm.trans ht

/-- Settles O20, from the class an instruction leaves and the simulated return of a vector step. -/
theorem classesReturned : Obligations.ClassesReturned := by
  refine ⟨fun i s t hs h => ?_, fun op s t h => ?_, rfl⟩
  · rw [exec_cls h]
    split
    · rename_i hc
      rw [hs, hc]
    · rfl
  · obtain ⟨-, -, -, hcls⟩ := vectorStep_control h
    exact hcls

/-! ## `init` -/

/-- Settles O19, field by field. -/
theorem resetValues : Obligations.ResetValues := by
  intro base s
  refine ⟨fun r => ?_, rfl, rfl, fun _ => rfl, rfl, rfl, rfl, rfl, rfl, rfl, rfl, rfl, rfl⟩
  simp [State.reg, State.initInstance, State.reset]

theorem reset_legal : LegalState State.reset := by
  have hparams : ParamsValid State.reset.params := by unfold ParamsValid; decide
  have hhost : State.reset.host.valid := by
    refine ⟨nofun, .nil, fun sl hsl => ?_, by decide⟩
    simp [State.reset, HostState.fresh] at hsl
  have hmirrored : State.reset.host.mirrored State.reset.params.storeSize State.reset.store := by
    intro _ i v hi
    simp [State.reset, HostState.fresh] at hi
  exact ⟨Memory.wf_nil, nofun, Memory.wf_nil, nofun, hparams, hhost, hmirrored, by unfold ClassAgrees; decide⟩

/-- Settles O14: `init` clears RAM and the class and leaves store, parameters and host. -/
theorem resetMeetsInvariant : Obligations.ResetMeetsInvariant := by
  refine ⟨reset_legal, fun base s hs => ?_⟩
  obtain ⟨-, -, hstore, hbelow, hparams, hhost, hmirrored, -⟩ := hs
  have hclass : ClassAgrees (s.initInstance base) := by simp [ClassAgrees, State.initInstance, State.reset]
  exact ⟨Memory.wf_nil, nofun, hstore, hbelow, hparams, hhost, hmirrored, hclass⟩

end Sys2Proof.Machine
end

section
/-! What each host operation keeps: the host's invariant, the Byte Store's canonical form, and the files' place in it; and
with it the invariant of the machine, step by step. -/

namespace Sys2Proof.Machine

/-! ## Open slots -/

theorem HostState.slot_eq_some {h : HostState} {handle : Byte} {sl : Slot} :
    h.slot handle = some sl ↔ h.slots[handle.toNat]? = some (some sl) := by
  simp [HostState.slot, Option.join_eq_some_iff]

theorem HostState.valid.slot {h : HostState} (hv : h.valid) {handle : Byte} {sl : Slot}
    (hs : h.slot handle = some sl) : sl.valid h.files := by
  obtain ⟨-, -, hslots, -⟩ := hv
  exact hslots sl (List.mem_of_getElem? (HostState.slot_eq_some.1 hs))

/-! ## The host's invariant under the updates of the operations -/

/-- One slot replaced, and the files by files in which every old slot is still legal. -/
theorem HostState.valid.update {h : HostState} (hv : h.valid) {files : List FileEntry} {k : Nat} {o : Option Slot}
    (hf : ∀ f ∈ files, f.valid) (hn : files.Pairwise fun f g => f.name ≠ g.name)
    (hold : ∀ sl : Slot, sl.valid h.files → sl.valid files) (hnew : ∀ sl, o = some sl → sl.valid files) :
    ({ h with files := files, slots := h.slots.set k o } : HostState).valid := by
  obtain ⟨-, -, hslots, hlen⟩ := hv
  refine ⟨hf, hn, fun sl hsl => ?_, by simpa using hlen⟩
  obtain hmem | heq := List.mem_or_eq_of_mem_set hsl
  · exact hold sl (hslots sl hmem)
  · exact hnew sl heq.symm

theorem HostState.valid.setSlot {h : HostState} (hv : h.valid) {k : Nat} {o : Option Slot}
    (hnew : ∀ sl, o = some sl → sl.valid h.files) :
    ({ h with slots := h.slots.set k o } : HostState).valid :=
  hv.update hv.1 hv.2.1 (fun _ => id) hnew

/-- One file replaced by one of the same name and no shorter a block. -/
theorem HostState.valid.setFile {h : HostState} (hv : h.valid) {file k : Nat} {e e' : FileEntry} {o : Option Slot}
    (he : h.files[file]? = some e) (hname : e'.name = e.name) (hdata : e.data.length ≤ e'.data.length)
    (he' : e'.valid) (hnew : ∀ sl, o = some sl → sl.valid (h.files.set file e')) :
    ({ h with files := h.files.set file e', slots := h.slots.set k o } : HostState).valid := by
  obtain ⟨hf, hn, -, -⟩ := id hv
  obtain ⟨hlt, hget⟩ := List.getElem?_eq_some_iff.1 he
  refine hv.update (fun f hfm => ?_) ?_ (fun sl hsl => ?_) hnew
  · obtain hmem | rfl := List.mem_or_eq_of_mem_set hfm
    · exact hf f hmem
    · exact he'
  · have hmap : (h.files.set file e').map FileEntry.name = h.files.map FileEntry.name := by
      rw [List.map_set, hname, ← hget, ← List.getElem_map FileEntry.name (h := by simpa using hlt), List.set_getElem_self]
    rw [← List.pairwise_map (f := FileEntry.name) (R := (· ≠ ·))] at hn ⊢
    rwa [hmap]
  · obtain ⟨g, hg, hcur, hsize, hword⟩ := hsl
    by_cases hfile : file = sl.file
    · obtain rfl : e = g := by
        rw [← hfile, he] at hg
        exact Option.some.inj hg
      exact ⟨e', by rw [← hfile, List.getElem?_set_self hlt], hcur, hsize.trans hdata, hword⟩
    · exact ⟨g, by rw [List.getElem?_set_ne hfile, hg], hcur, hsize, hword⟩

/-- A file of a new name added. -/
theorem HostState.valid.addFile {h : HostState} (hv : h.valid) {k : Nat} {e : FileEntry} {o : Option Slot}
    (he : e.valid) (hname : ∀ f ∈ h.files, f.name ≠ e.name) (hnew : ∀ sl, o = some sl → sl.valid (h.files ++ [e])) :
    ({ h with files := h.files ++ [e], slots := h.slots.set k o } : HostState).valid := by
  obtain ⟨hf, hn, -, -⟩ := id hv
  refine hv.update (fun f hfm => ?_) ?_ (fun sl hsl => ?_) hnew
  · obtain hmem | rfl : f ∈ h.files ∨ f = e := by simpa using hfm
    · exact hf f hmem
    · exact he
  · exact List.pairwise_append.2 ⟨hn, List.pairwise_singleton _ _, fun f hfm g hg => by
      obtain rfl : g = e := by simpa using hg
      exact hname f hfm⟩
  · obtain ⟨g, hg, hrest⟩ := hsl
    exact ⟨g, by rw [List.getElem?_append_left (List.getElem?_eq_some_iff.1 hg).1, hg], hrest⟩

/-! ## What an answer keeps -/

/-- What every host operation's answer keeps of the host and the Byte Store. -/
structure ReplyKeeps (size : Nat) (h : HostState) (m : Memory) (r : FileReply) : Prop where
  serial : ∃ bytes, r.host.serial = h.serial ++ bytes
  valid : h.valid → r.host.valid
  store : m.wf ∧ m.below size → r.store.wf ∧ r.store.below size
  mirrored : m.wf → h.mirrored size m → r.host.mirrored size r.store

section
variable {size : Nat} {h h' : HostState} {m : Memory} {buffer : List Byte} {result : HostResult}

/-- The reference host: the Byte Store written as its files changed. -/
theorem ReplyKeeps.of_persist (hserial : h'.serial = h.serial) (hkind : h'.kind = h.kind)
    (hbase : h'.fileBase = h.fileBase) (hvalid : h.valid → h'.valid) :
    ReplyKeeps size h m ⟨h', persist size h h' m, buffer, result⟩ where
  serial := ⟨[], by rw [hserial, List.append_nil]⟩
  valid := hvalid
  store := fun ⟨hm, hb⟩ => persist_ok size h h' m hm hb
  mirrored := fun hm hh => persist_mirrored size h h' m hm hh hkind hbase

/-- The reference host with its files untouched. -/
theorem ReplyKeeps.of_files_eq (hserial : h'.serial = h.serial) (hkind : h'.kind = h.kind)
    (hbase : h'.fileBase = h.fileBase) (hfiles : h'.files = h.files) (hvalid : h.valid → h'.valid) :
    ReplyKeeps size h m ⟨h', m, buffer, result⟩ := by
  have k : ReplyKeeps size h m ⟨h', persist size h h' m, buffer, result⟩ := .of_persist hserial hkind hbase hvalid
  rwa [persist_same size h h' m hfiles] at k

theorem ReplyKeeps.plain : ReplyKeeps size h m (plainReply h m result) := .of_files_eq rfl rfl rfl rfl id

/-- The oracle host, with the Byte Store as it was. -/
theorem ReplyKeeps.asked : ReplyKeeps size h m ⟨h.askedOnce, m, buffer, result⟩ := .of_files_eq rfl rfl rfl rfl id

/-- The oracle host may write the Byte Store, which is then no mirror of any files. -/
theorem ReplyKeeps.oracle_writes (hkind : h.kind = .oracle) (l : List Host.Cell) :
    ReplyKeeps size h m ⟨h.askedOnce, storeWrites size m l, buffer, result⟩ where
  serial := ⟨[], (List.append_nil _).symm⟩
  valid := id
  store := fun ⟨hm, hb⟩ => storeWrites_ok size m l hm hb
  mirrored := fun _ _ href => nomatch hkind.symm.trans href

end

/-! ## Operation by operation -/

section
variable (size : Nat) (h : HostState) (m : Memory) (handle : Byte)

theorem HostState.not_mem_name_of_findFile {h : HostState} {name : List Byte} (hn : h.findFile name = none) :
    ∀ f ∈ h.files, f.name ≠ name := by
  simpa [HostState.findFile] using hn

theorem openExisting_valid {h : HostState} {file : Nat} {e : FileEntry} (slot : Nat) (mode : OpenMode)
    (hv : h.valid) (he : h.files[file]? = some e) : (openExisting h slot file e mode).valid := by
  obtain ⟨hname, hzero, hsize, hword⟩ := hv.1 e (List.mem_of_getElem? he)
  cases mode with
  | read | append =>
    refine hv.setSlot fun sl hsl => ?_
    cases hsl
    exact ⟨e, he, by simp, hsize, hword⟩
  | write =>
    refine hv.setFile he rfl le_rfl ⟨hname, hzero, by simp, by simp⟩ fun sl hsl => ?_
    cases hsl
    exact ⟨_, List.getElem?_set_self (List.getElem?_eq_some_iff.1 he).1, by simp, by simp, by simp⟩

theorem openNew_eq_some {h h' : HostState} {slot : Nat} {name : List Byte} {mode : OpenMode}
    (ho : openNew h slot name mode = some h') :
    h' = { h with
      files := h.files ++ [⟨name, 0, []⟩]
      slots := h.slots.set slot (some ⟨h.files.length, 0, 0, mode⟩) } := by
  simp only [openNew] at ho
  split at ho
  · cases ho
  · split at ho
    · cases ho
    · exact (Option.some.inj ho).symm

theorem openNew_valid {h h' : HostState} {slot : Nat} {name : List Byte} {mode : OpenMode} (hv : h.valid)
    (hfit : nameFits name = true) (hzero : (0 : Byte) ∉ name) (hnew : h.findFile name = none)
    (ho : openNew h slot name mode = some h') : h'.valid := by
  rw [openNew_eq_some ho]
  refine hv.addFile ⟨hfit, hzero, by simp, by simp⟩ (HostState.not_mem_name_of_findFile hnew) fun sl hsl => ?_
  cases hsl
  exact ⟨⟨name, 0, []⟩, by simp, by simp, by simp, by simp⟩

/-- A successful open: the mode, the first free slot, and an existing file or a new one. -/
theorem openFile_eq_some {h h' : HostState} {name : List Byte} {mode : Byte} {slot : Nat}
    (ho : openFile h name mode = some (h', slot)) :
    ∃ md, openModeOf mode = some md ∧ h.freeSlot = some slot ∧ nameFits name = true ∧
      ((∃ file e, h.findFile name = some file ∧ h.files[file]? = some e ∧ h' = openExisting h slot file e md) ∨
        (h.findFile name = none ∧ openNew h slot name md = some h')) := by
  simp only [openFile] at ho
  split at ho
  · rename_i md k hmode hfree
    split at ho
    · rename_i hfit
      split at ho
      · rename_i file hfind
        split at ho
        · rename_i e he
          cases ho
          exact ⟨md, hmode, hfree, hfit, .inl ⟨file, e, hfind, he, rfl⟩⟩
        · cases ho
      · rename_i hfind
        obtain ⟨g, hg, hpair⟩ := Option.map_eq_some_iff.1 ho
        cases hpair
        exact ⟨md, hmode, hfree, hfit, .inr ⟨hfind, hg⟩⟩
    · cases ho
  · cases ho

/-- Opening changes no field of the host but files and slots. -/
theorem openFile_fields {h h' : HostState} {name : List Byte} {mode : Byte} {slot : Nat}
    (ho : openFile h name mode = some (h', slot)) :
    h'.serial = h.serial ∧ h'.kind = h.kind ∧ h'.fileBase = h.fileBase := by
  obtain ⟨md, -, -, -, ⟨file, e, -, -, rfl⟩ | ⟨-, hg⟩⟩ := openFile_eq_some ho
  · cases md <;> exact ⟨rfl, rfl, rfl⟩
  · rw [openNew_eq_some hg]
    exact ⟨rfl, rfl, rfl⟩

theorem openFile_valid {h h' : HostState} {name : List Byte} {mode : Byte} {slot : Nat} (hv : h.valid)
    (hzero : (0 : Byte) ∉ name) (ho : openFile h name mode = some (h', slot)) : h'.valid := by
  obtain ⟨md, -, -, hfit, ⟨file, e, -, he, rfl⟩ | ⟨hfind, hg⟩⟩ := openFile_eq_some ho
  · exact openExisting_valid slot md hv he
  · exact openNew_valid hv hfit hzero hfind hg

theorem fileOpen_keeps {name : List Byte} (mode : Byte) (hzero : (0 : Byte) ∉ name) :
    ReplyKeeps size h m (fileOpen size h m name mode) := by
  rw [fileOpen]
  split
  · rename_i hkind
    exact .oracle_writes hkind _
  · split
    · rename_i h' slot ho
      obtain ⟨hserial, hkind, hbase⟩ := openFile_fields ho
      exact .of_persist hserial hkind hbase fun hv => openFile_valid hv hzero ho
    · exact .plain

theorem fileName_keeps : ReplyKeeps size h m (fileName h m handle) := by
  rw [fileName]
  split
  · exact .asked
  · split <;> exact .of_files_eq rfl rfl rfl rfl id

theorem fileSize_keeps : ReplyKeeps size h m (fileSize h m handle) := by
  rw [fileSize]
  split
  · exact .asked
  · split <;> exact .plain

theorem filePosition_keeps : ReplyKeeps size h m (filePosition h m handle) := by
  rw [filePosition]
  split
  · exact .asked
  · split <;> exact .plain

theorem fileSeek_keeps (position : Word) : ReplyKeeps size h m (fileSeek h m handle position) := by
  rw [fileSeek]
  split
  · exact .asked
  · split
    · rename_i sl hs
      split
      · rename_i hle
        refine .of_files_eq rfl rfl rfl rfl fun hv => hv.setSlot fun sl' hsl => ?_
        cases hsl
        obtain ⟨e, he, -, hsize, hword⟩ := hv.slot hs
        exact ⟨e, he, hle, hsize, hword⟩
      · exact .plain
    · exact .plain

theorem readableBytes_length_le (e : FileEntry) (sl : Slot) (maxLen : Nat) :
    (readableBytes e sl maxLen).length ≤ min maxLen (sl.size - sl.cursor) := List.length_take_le _ _

theorem fileRead_keeps (maxLen : Word) : ReplyKeeps size h m (fileRead h m handle maxLen) := by
  rw [fileRead]
  split
  · exact .asked
  · split
    · rename_i sl hs
      split
      · rename_i e _
        refine .of_files_eq rfl rfl rfl rfl fun hv => hv.setSlot fun sl' hsl => ?_
        cases hsl
        obtain ⟨g, hg, hcur, hsize, hword⟩ := hv.slot hs
        have hlen := readableBytes_length_le e sl maxLen.toNat
        exact ⟨g, hg, by simp only; omega, hsize, hword⟩
      · exact .plain
    · exact .plain

theorem overwriteAt_length {data bytes : List Byte} {cursor : Nat} (h : cursor ≤ data.length) :
    (overwriteAt data cursor bytes).length = max data.length (cursor + bytes.length) := by
  simp only [overwriteAt, List.length_append, List.length_take, List.length_drop]
  omega

theorem writeFile_eq_some {h h' : HostState} {handle : Byte} {sl : Slot} {e : FileEntry} {bytes : List Byte}
    (hw : writeFile h handle sl e bytes = some h') :
    sl.mode ≠ .read ∧ (writtenEntry e sl bytes).size ≤ 0xFFFE ∧
      filesFootprint (h.files.set sl.file (writtenEntry e sl bytes)) ≤ h.capacity ∧
      h' = { h with
        files := h.files.set sl.file (writtenEntry e sl bytes)
        slots := h.slots.set handle.toNat (some
          { sl with size := (writtenEntry e sl bytes).size, cursor := sl.cursor + bytes.length }) } := by
  simp only [writeFile] at hw
  split at hw
  · cases hw
  · split at hw
    · cases hw
    · split at hw
      · cases hw
      · exact ⟨‹_›, Nat.le_of_not_lt ‹_›, Nat.le_of_not_lt ‹_›, (Option.some.inj hw).symm⟩

theorem writeFile_valid {h h' : HostState} {sl : Slot} {e : FileEntry} {bytes : List Byte} (hv : h.valid)
    (hs : h.slot handle = some sl) (he : h.entry sl = some e) (hw : writeFile h handle sl e bytes = some h') :
    h'.valid := by
  obtain ⟨-, hmax, -, rfl⟩ := writeFile_eq_some hw
  obtain ⟨g, hg, hcur, hsize, hword⟩ := hv.slot hs
  obtain rfl : e = g := Option.some.inj (he.symm.trans hg)
  obtain ⟨hname, hzero, -, -⟩ := hv.1 e (List.mem_of_getElem? he)
  have hlen : (writtenEntry e sl bytes).data.length = max e.data.length (sl.cursor + bytes.length) :=
    overwriteAt_length (hcur.trans hsize)
  have hsz : (writtenEntry e sl bytes).size = max sl.size (sl.cursor + bytes.length) := rfl
  refine hv.setFile he rfl (by omega) ⟨hname, hzero, by omega, hmax⟩ fun sl' hsl => ?_
  cases hsl
  exact ⟨_, List.getElem?_set_self (List.getElem?_eq_some_iff.1 he).1, by simp only; omega, by simp only; omega, hmax⟩

theorem fileWrite_keeps (bytes : List Byte) : ReplyKeeps size h m (fileWrite size h m handle bytes) := by
  rw [fileWrite]
  split
  · rename_i hkind
    exact .oracle_writes hkind _
  · split
    · rename_i sl hs
      split
      · rename_i e he
        split
        · rename_i h' hw
          obtain ⟨-, -, -, rfl⟩ := writeFile_eq_some hw
          exact .of_persist rfl rfl rfl fun hv => writeFile_valid handle hv hs he hw
        · exact .plain
      · exact .plain
    · exact .plain

theorem fileClose_keeps : ReplyKeeps size h m (fileClose h m handle) := by
  rw [fileClose]
  split
  · exact .asked
  · exact .of_files_eq rfl rfl rfl rfl fun hv => hv.setSlot nofun

end

theorem serialReply_keeps (s : State) (bytes : List Byte) :
    ReplyKeeps s.params.storeSize s.host s.store (serialReply s bytes) :=
  ⟨⟨bytes, rfl⟩, id, id, fun _ => id⟩

theorem progStringReply_eq_ok {s : State} {tail : List Byte} {r : FileReply} (h : progStringReply s tail = .ok r) :
    ∃ bytes, r = serialReply s bytes := by
  simp only [progStringReply] at h
  split at h
  · cases h
  · cases h
    exact ⟨_, rfl⟩

/-- Every operation's answer keeps the host's part of the invariant. -/
theorem hostCall_keeps {op : HostOp} {s : State} {r : FileReply} (h : hostCall op s = .ok r) :
    ReplyKeeps s.params.storeSize s.host s.store r := by
  cases op with
  | writeChar | printRam | printlnRam => cases h; exact serialReply_keeps s _
  | printProgmem | printlnProgmem =>
    obtain ⟨bytes, rfl⟩ := progStringReply_eq_ok h
    exact serialReply_keeps s bytes
  | fileOpen => cases h; exact fileOpen_keeps _ _ _ _ fun hz => dataString_ne_zero s _ _ _ hz rfl
  | fileName => cases h; exact fileName_keeps ..
  | fileSize => cases h; exact fileSize_keeps ..
  | filePosition => cases h; exact filePosition_keeps ..
  | fileSeek => cases h; exact fileSeek_keeps ..
  | fileRead => cases h; exact fileRead_keeps ..
  | fileWrite => cases h; exact fileWrite_keeps ..
  | fileClose => cases h; exact fileClose_keeps ..

end Sys2Proof.Machine
end

section
/-! The invariant of the machine kept by every step; who writes the Byte Store; and the serial stream, which only grows. -/

namespace Sys2Proof.Machine

/-- After an answer's host state and Byte Store, only the buffer and the result registers are written. -/
theorem applyReply_keeps (b : Word) (r : FileReply) (s : State) :
    Keeps ((s.setHost r.host).setStore r.store) (applyReply b r s) := by
  have hbuffer := writeBytes_keeps ((s.setHost r.host).setStore r.store) b r.buffer
  rw [applyReply]
  cases r.result with
  | none => exact hbuffer
  | byte v => exact hbuffer.trans (setReg_keeps ..)
  | word v => exact hbuffer.trans (setPair_keeps ..)

/-! ## The invariant -/

/-- What `Keeps` says, but for `running` and the class, carries the invariant over. -/
theorem LegalState.of_keeps {s t : State} (hs : LegalState s)
    (k : Keeps s { t with running := s.running, cls := s.cls }) (hclass : ClassAgrees t) : LegalState t := by
  obtain ⟨hram, hramb, hstore, hstoreb, hparams, hvalid, hmirrored, -⟩ := hs
  have hp : t.params = s.params := k.params
  have hst : t.store = s.store := k.store
  obtain ⟨hram', hramb'⟩ : t.ram.wf ∧ t.ram.below Config.ramSize := k.ram ⟨hram, hramb⟩
  obtain ⟨bytes, hhost⟩ : ∃ bytes, t.host = s.host.emit bytes := k.host
  refine ⟨hram', hramb', ?_, ?_, ?_, ?_, ?_, hclass⟩
  · rwa [hst]
  · rwa [hst, hp]
  · rwa [hp]
  · rw [hhost]
    exact hvalid
  · rw [hhost, hp, hst]
    exact hmirrored

/-- An answer applied keeps the invariant. -/
theorem LegalState.applyReply {s : State} {r : FileReply} (hs : LegalState s)
    (k : ReplyKeeps s.params.storeSize s.host s.store r) (b : Word) : LegalState (applyReply b r s) := by
  obtain ⟨hram, hramb, hstore, hstoreb, hparams, hvalid, hmirrored, hclass⟩ := hs
  obtain ⟨hstore', hstoreb'⟩ := k.store ⟨hstore, hstoreb⟩
  have hu : LegalState ((s.setHost r.host).setStore r.store) :=
    ⟨hram, hramb, hstore', hstoreb', hparams, k.valid hvalid, k.mirrored hstore hmirrored, hclass⟩
  have kb := applyReply_keeps b r s
  have hclass' : ClassAgrees (Machine.applyReply b r s) := by
    rw [ClassAgrees, kb.running, kb.cls]
    exact hclass
  exact hu.of_keeps ⟨kb.programBase, rfl, rfl, kb.params, kb.store, kb.ram, kb.host⟩ hclass'

/-- Phase 1 of a Running core's step. -/
theorem LegalState.advance {s : State} (hs : LegalState s) (hr : s.running = true) : LegalState (advance s) :=
  hs.of_keeps (setPc_keeps s _) (iff_of_false (by simp [hr]) (by simp))

/-- The simulated return of a Running core. -/
theorem LegalState.returnFrom {s : State} (hs : LegalState s) (hr : s.running = true) : LegalState (returnFrom s) :=
  hs.of_keeps (.of_eq rfl rfl rfl rfl rfl rfl rfl)
    (iff_of_false (by simp [returnFrom_spec, hr]) (by simp [returnFrom_spec]))

theorem classOf_eq_halted_iff (i : Instr) : classOf i = .halted ↔ i = .halt := by
  cases i <;> simp [classOf]

theorem classOf_ne_unknown (i : Instr) : classOf i ≠ .unknown := by
  cases i <;> nofun

/-- An instruction of a Running core leaves it Halted exactly with the class Halted. -/
theorem exec_classAgrees {i : Instr} {s t : State} (hr : s.running = true) (hc : s.cls = some .normal)
    (h : exec i s = .next t) : ClassAgrees t := by
  have hcls : t.cls = some (classOf i) := classesReturned.1 i s t hc h
  simp [ClassAgrees, exec_running h, hcls, hr, classOf_eq_halted_iff, classOf_ne_unknown]

/-- Settles O13: an instruction keeps the host and the Byte Store, and a vector step's answer keeps their legality. -/
theorem invariantKept : Obligations.InvariantKept := by
  intro s t hs h
  obtain ⟨hr, e⟩ | ⟨-, f, -, e⟩ | ⟨hr, w, op, -, -, e⟩ | ⟨hr, w, i, -, -, -, e⟩ | ⟨-, w, _, -, -, -, e⟩ := step_cases s <;>
    rw [e] at h
  · cases h
    exact hs.of_keeps (.refl s) (iff_of_true hr (.inl rfl))
  · cases h
  · obtain ⟨r, hcall, rfl⟩ := vectorStep_next op _ t h
    have hu := (hs.advance hr).applyReply (hostCall_keeps hcall) ((advance s).pair .r22)
    obtain ⟨-, -, hrun, -⟩ := applyReply_control ((advance s).pair .r22) r (advance s)
    exact hu.returnFrom (hrun.trans hr)
  · exact (hs.advance hr).of_keeps (exec_keeps_but_class h) (exec_classAgrees (s := advance s) hr rfl h)
  · cases h
    exact hs.of_keeps (setPc_keeps s _) (iff_of_true rfl (.inr rfl))

/-! ## The Byte Store and the serial stream -/

/-- An operation that may not write the Byte Store answers with the old one. -/
theorem hostCall_store {op : HostOp} {s : State} {r : FileReply} (hop : mayWriteStore op = false)
    (h : hostCall op s = .ok r) : r.store = s.store := by
  cases op with
  | writeChar | printRam | printlnRam => cases h; rfl
  | printProgmem | printlnProgmem =>
    obtain ⟨bytes, rfl⟩ := progStringReply_eq_ok h
    rfl
  | fileName => cases h; simp only [fileName]; split <;> [skip; split] <;> rfl
  | fileSize => cases h; simp only [fileSize]; split <;> [skip; split] <;> rfl
  | filePosition => cases h; simp only [filePosition]; split <;> [skip; split] <;> rfl
  | fileSeek => cases h; simp only [fileSeek]; split <;> [skip; split <;> [split; skip]] <;> rfl
  | fileRead => cases h; simp only [fileRead]; split <;> [skip; split <;> [split; skip]] <;> rfl
  | fileClose => cases h; simp only [fileClose]; split <;> rfl
  | fileOpen | fileWrite => nomatch hop

/-- Settles O17: instructions keep the store, and a vector step's store is its answer's. -/
theorem storeWrittenOnlyByFileOpenAndFileWrite : Obligations.StoreWrittenOnlyByFileOpenAndFileWrite := by
  refine ⟨fun i s t h => (exec_keeps_but_class h).store, fun op s t hop h => ?_⟩
  obtain ⟨r, hcall, rfl⟩ := vectorStep_next op s t h
  exact (applyReply_keeps (s.pair .r22) r s).store.trans (hostCall_store hop hcall)

/-- Settles O18: instructions emit by data-space writes alone; an answer appends its bytes, and its buffer may emit more. -/
theorem serialStreamOnlyGrows : Obligations.SerialStreamOnlyGrows := by
  have hexec (i : Instr) (s t : State) (h : exec i s = .next t) : ∃ bytes, t.host = s.host.emit bytes :=
    (exec_keeps_but_class h).host
  refine ⟨hexec, fun s t h => ?_⟩
  obtain ⟨-, e⟩ | ⟨-, f, -, e⟩ | ⟨-, w, op, -, -, e⟩ | ⟨-, w, i, -, -, -, e⟩ | ⟨-, w, _, -, -, -, e⟩ := step_cases s <;>
    rw [e] at h
  · cases h
    exact ⟨[], (List.append_nil _).symm⟩
  · cases h
  · obtain ⟨r, hcall, rfl⟩ := vectorStep_next op _ t h
    obtain ⟨answered, hanswered⟩ := (hostCall_keeps hcall).serial
    obtain ⟨written, hwritten⟩ := (applyReply_keeps ((advance s).pair .r22) r (advance s)).host
    refine ⟨answered ++ written, ?_⟩
    rw [← List.append_assoc]
    exact (congrArg HostState.serial hwritten).trans (congrArg (· ++ written) hanswered)
  · obtain ⟨bytes, hb⟩ := hexec i _ t h
    exact ⟨bytes, congrArg HostState.serial hb⟩
  · cases h
    exact ⟨[], (List.append_nil _).symm⟩

end Sys2Proof.Machine
end

section
/-! The arithmetic, logic and bit families: the frame of writing one register and SREG, the flag laws as numbers, and
the statements about the instructions that do so. -/

namespace Sys2Proof.Machine

/-! ## Frames -/

theorem RegsExcept.mono {l l' : List Reg} {s t : State} (h : RegsExcept l s t) (hl : l ⊆ l') : RegsExcept l' s t :=
  fun r hr => h r fun hm => hr (hl hm)

theorem FlagsExcept.mono {l l' : List Flag} {s t : State} (h : FlagsExcept l s t) (hl : l ⊆ l') : FlagsExcept l' s t :=
  fun f hf => h f fun hm => hf (hl hm)

theorem setReg_regsExcept (s : State) (d : Reg) (v : Byte) : RegsExcept [d] s (s.setReg d v) := by
  intro r hr
  rw [State.setReg_reg, if_neg (by simpa using hr)]

theorem setReg_frame (s : State) (d : Reg) (v : Byte) : Frame [d] [] s (s.setReg d v) :=
  ⟨setReg_regsExcept s d v, fun _ _ => rfl, rfl, rfl, rfl, rfl, rfl, rfl, rfl, rfl, rfl⟩

/-- SREG written after the registers: the frame gains the flags the new SREG may change. -/
theorem Frame.setSreg {regs : List Reg} {flags : List Flag} {s t : State} {sr : Byte} (h : Frame regs [] s t)
    (hf : ∀ f, f ∉ flags → getFlag f sr = getFlag f s.sreg) : Frame regs flags s (t.setSreg sr) := by
  obtain ⟨hregs, -, hrest⟩ := h
  exact ⟨hregs, hf, hrest⟩

theorem Frame.trans {l l' : List Reg} {flags : List Flag} {s t u : State} (h : Frame l flags s t)
    (k : Frame l' flags t u) : Frame (l ++ l') flags s u := by
  obtain ⟨hr, hf, hsp, hpc, h1, h2, h3, h4, h5, h6, h7⟩ := h
  obtain ⟨kr, kf, ksp, kpc, k1, k2, k3, k4, k5, k6, k7⟩ := k
  refine ⟨fun r hm => ?_, fun f hm => (kf f hm).trans (hf f hm), ksp.trans hsp, kpc.trans hpc, k1.trans h1, k2.trans h2,
    k3.trans h3, k4.trans h4, k5.trans h5, k6.trans h6, k7.trans h7⟩
  obtain ⟨hl, hl'⟩ : r ∉ l ∧ r ∉ l' := by simpa using hm
  exact (kr r hl').trans (hr r hl)

theorem Frame.refl (s : State) : Frame [] [] s s :=
  ⟨fun _ _ => rfl, fun _ _ => rfl, rfl, rfl, rfl, rfl, rfl, rfl, rfl, rfl, rfl⟩

/-! ## The flags each computation leaves alone -/

section
variable {f : Flag} {a b r sr : Byte} {c zero : Bool} {w : Word} {k : BitVec 6}

theorem addFlags_other (hf : f ∉ [Flag.c, .z, .n, .v, .s, .h]) : getFlag f (addFlags a b c sr) = getFlag f sr := by
  rw [getFlag_addFlags]
  cases f with
  | t | i => rfl
  | _ => simp at hf

theorem subFlags_other (hf : f ∉ [Flag.c, .z, .n, .v, .s, .h]) :
    getFlag f (subFlags a b c zero sr) = getFlag f sr := by
  rw [getFlag_subFlags]
  cases f with
  | t | i => rfl
  | _ => simp at hf

theorem logicFlags_other (hf : f ∉ [Flag.z, .n, .v, .s]) : getFlag f (logicFlags r sr) = getFlag f sr := by
  rw [getFlag_logicFlags]
  cases f with
  | c | h | t | i => rfl
  | _ => simp at hf

theorem comFlags_other (hf : f ∉ [Flag.z, .n, .v, .s, .c]) : getFlag f (comFlags r sr) = getFlag f sr := by
  rw [getFlag_comFlags, getFlag_logicFlags]
  cases f with
  | h | t | i => rfl
  | _ => simp at hf

theorem incFlags_other (hf : f ∉ [Flag.z, .n, .v, .s]) : getFlag f (incFlags r sr) = getFlag f sr := by
  rw [getFlag_incFlags]
  cases f with
  | c | h | t | i => rfl
  | _ => simp at hf

theorem decFlags_other (hf : f ∉ [Flag.z, .n, .v, .s]) : getFlag f (decFlags r sr) = getFlag f sr := by
  rw [getFlag_decFlags]
  cases f with
  | c | h | t | i => rfl
  | _ => simp at hf

theorem adiwFlags_other (hf : f ∉ [Flag.c, .z, .n, .v, .s]) :
    getFlag f (adiwFlags w k sr) = getFlag f sr := by
  rw [getFlag_adiwFlags]
  cases f with
  | h | t | i => rfl
  | _ => simp at hf

theorem sbiwFlags_other (hf : f ∉ [Flag.c, .z, .n, .v, .s]) :
    getFlag f (sbiwFlags w k sr) = getFlag f sr := by
  rw [getFlag_sbiwFlags]
  cases f with
  | h | t | i => rfl
  | _ => simp at hf

theorem shiftRightFlags_other (hf : f ∉ [Flag.c, .z, .n, .v, .s]) :
    getFlag f (shiftRightFlags a r sr) = getFlag f sr := by
  rw [getFlag_shiftRightFlags]
  cases f with
  | h | t | i => rfl
  | _ => simp at hf

end

/-! ## Flags as numbers -/

@[simp] theorem bitNat_eq_toNat (c : Bool) : bitNat c = c.toNat := by cases c <;> rfl

theorem testBit_eq_decide (v : Byte) (b : BitNum) : testBit v b = decide (v.toNat / 2 ^ b.val % 2 = 1) := by
  rw [testBit, ← BitVec.testBit_toNat, Nat.testBit_eq_decide_div_mod_eq]

/-- The carry into bit 7 XOR the carry out of it is `A == B` signs and another sign of the sum (decision D21). -/
theorem addOverflow_eq (a b : Byte) (c : Bool) :
    (signBit a == signBit b && signBit (addResult a b c) != signBit a) =
      xor (decide (127 < a.toNat % 128 + b.toNat % 128 + c.toNat)) (decide (255 < a.toNat + b.toNat + c.toNat)) := by
  have ha := a.isLt
  have hb := b.isLt
  have hc := c.toNat_le
  simp only [signBit_eq, addResult_toNat, bitNat_eq_toNat]
  grind

/-- The borrow into bit 7 XOR the borrow out of it (decision D21). -/
theorem subOverflow_eq (a b : Byte) (c : Bool) :
    (signBit a != signBit b && signBit (subResult a b c) != signBit a) =
      xor (decide (a.toNat % 128 < b.toNat % 128 + c.toNat)) (decide (a.toNat < b.toNat + c.toNat)) := by
  have ha := a.isLt
  have hb := b.isLt
  have hc := c.toNat_le
  simp only [signBit_eq, subResult_toNat, bitNat_eq_toNat]
  grind

theorem subBorrow_eq (a b : Byte) (c : Bool) :
    decide ((a.toNat : Int) - b.toNat - bitNat c < 0) = decide (a.toNat < b.toNat + c.toNat) := by
  rw [bitNat_eq_toNat, decide_eq_decide]
  omega

theorem subHalf_eq (a b : Byte) (c : Bool) :
    decide (((a.toNat % 16 : Nat) : Int) - (b.toNat % 16 : Nat) - bitNat c < 0) =
      decide (a.toNat % 16 < b.toNat % 16 + c.toNat) := by
  rw [bitNat_eq_toNat, decide_eq_decide]
  omega

theorem beq_zero_eq_decide {n : Nat} (v : BitVec n) : (v == 0) = decide (v.toNat = 0) := by
  rw [beq_eq_decide, decide_eq_decide, ← BitVec.toNat_inj]
  rfl

/-- `AddFlags(a, b, c)` as the exact sum gives it. -/
theorem addLaw_addFlags {t : State} {a b : Byte} {c : Bool} {sr : Byte} (h : t.sreg = addFlags a b c sr) :
    AddLaw a b c t := by
  simp only [AddLaw, State.flag, h, getFlag_addFlags, addOverflow_eq]
  simp only [signBit_eq, beq_zero_eq_decide, addResult_toNat, bitNat_eq_toNat, gt_iff_lt, and_self]

/-- `SubFlags(a, b, c)` as the exact difference gives it. -/
theorem subLaw_subFlags {t : State} {a b : Byte} {c zero : Bool} {sr : Byte} (h : t.sreg = subFlags a b c zero sr) :
    SubLaw a b c zero t := by
  simp only [SubLaw, State.flag, h, getFlag_subFlags, subOverflow_eq, subBorrow_eq, subHalf_eq]
  simp only [signBit_eq, subResult_toNat, bitNat_eq_toNat, and_self]

theorem logicLaw_logicFlags {t : State} {r sr : Byte} (h : t.sreg = logicFlags r sr) : LogicLaw r t := by
  simp only [LogicLaw, State.flag, h, getFlag_logicFlags, signBit_eq, beq_eq_decide, and_self]

/-- COM adds the carry to the logic flags. -/
theorem logicLaw_comFlags {t : State} {r sr : Byte} (h : t.sreg = comFlags r sr) : LogicLaw r t := by
  simp only [LogicLaw, State.flag, h, getFlag_comFlags, getFlag_logicFlags, reduceCtorEq, if_false, signBit_eq,
    beq_eq_decide, and_self]

theorem shiftRightLaw_shiftRightFlags {t : State} {old r sr : Byte} (h : t.sreg = shiftRightFlags old r sr) :
    ShiftRightLaw old r t := by
  have hbit : testBit old 0 = decide (old.toNat % 2 = 1) := by simpa using testBit_eq_decide old 0
  simp only [ShiftRightLaw, State.flag, h, getFlag_shiftRightFlags, signBit_eq, beq_eq_decide, hbit, and_self]

/-! ## Add and subtract -/

section
variable (d : Reg) (b : Byte) (c : Bool) (s : State)

theorem addTo_reg_toNat : ((addTo d b c s).reg d).toNat = ((s.reg d).toNat + b.toNat + c.toNat) % 256 := by
  simp [addTo, addResult_toNat]

theorem addTo_law : AddLaw (s.reg d) b c (addTo d b c s) := addLaw_addFlags rfl

theorem addTo_frame : Frame [d] [.c, .z, .n, .v, .s, .h] s (addTo d b c s) :=
  (setReg_frame s d _).setSreg fun _ => addFlags_other

theorem subFrom_reg : (subFrom d b s).reg d = subResult (s.reg d) b false := by simp [subFrom]

theorem subFrom_law : SubLaw (s.reg d) b false ((subFrom d b s).reg d == 0) (subFrom d b s) := by
  rw [subFrom_reg]
  exact subLaw_subFlags rfl

theorem subFrom_frame : Frame [d] [.c, .z, .n, .v, .s, .h] s (subFrom d b s) :=
  (setReg_frame s d _).setSreg fun _ => subFlags_other

theorem subChainFrom_reg : (subChainFrom d b s).reg d = subResult (s.reg d) b (s.flag .c) := by simp [subChainFrom]

theorem subChainFrom_law : SubLaw (s.reg d) b (s.flag .c) (s.flag .z && (subChainFrom d b s).reg d == 0)
    (subChainFrom d b s) := by
  rw [subChainFrom_reg]
  exact subLaw_subFlags rfl

theorem subChainFrom_frame : Frame [d] [.c, .z, .n, .v, .s, .h] s (subChainFrom d b s) :=
  (setReg_frame s d _).setSreg fun _ => subFlags_other

end

/-- Settles O28: the four are one shape with its operand and carry. -/
theorem addFamilyAdds : Obligations.AddFamilyAdds := by
  intro d r s
  refine ⟨⟨_, rfl, ?_, addTo_law .., addTo_frame ..⟩, ⟨_, rfl, addTo_reg_toNat .., addTo_law .., addTo_frame ..⟩,
    ⟨_, rfl, ?_, addTo_law .., addTo_frame ..⟩, ⟨_, rfl, ?_, addTo_law .., addTo_frame ..⟩⟩
  · exact addTo_reg_toNat ..
  · rw [addTo_reg_toNat, Nat.two_mul]
    rfl
  · rw [addTo_reg_toNat, Nat.two_mul]

/-- Settles O29: the two shapes, without and with the borrow. -/
theorem subFamilySubtracts : Obligations.SubFamilySubtracts := by
  intro d r k s
  have plain (b : Byte) : ((subFrom d b s).reg d).toNat = ((s.reg d).toNat + 256 - b.toNat) % 256 := by
    have hb := b.isLt
    rw [subFrom_reg, subResult_toNat, bitNat_eq_toNat, Bool.toNat_false]
    omega
  have chain (b : Byte) :
      ((subChainFrom d b s).reg d).toNat = ((s.reg d).toNat + 512 - b.toNat - (s.flag .c).toNat) % 256 := by
    rw [subChainFrom_reg, subResult_toNat, bitNat_eq_toNat]
  exact ⟨⟨_, rfl, plain _, subFrom_law .., subFrom_frame ..⟩, ⟨_, rfl, plain _, subFrom_law .., subFrom_frame ..⟩,
    ⟨_, rfl, chain _, subChainFrom_law .., subChainFrom_frame ..⟩,
    ⟨_, rfl, chain _, subChainFrom_law .., subChainFrom_frame ..⟩⟩

/-- A difference is zero exactly for equal operands, the borrow counted modulo 256. -/
theorem subResult_eq_zero (a b : Byte) (c : Bool) :
    (subResult a b c == 0) = decide (a.toNat = (b.toNat + c.toNat) % 256) := by
  have ha := a.isLt
  have hb := b.isLt
  have hc := c.toNat_le
  rw [beq_zero_eq_decide, subResult_toNat, bitNat_eq_toNat, decide_eq_decide]
  omega

/-- Settles O30: the flags of the subtraction on the unchanged registers. -/
theorem comparesSetFlagsOnly : Obligations.ComparesSetFlagsOnly := by
  intro d r k s
  have frame (a b : Byte) (c zero : Bool) :
      Frame [] [.c, .z, .n, .v, .s, .h] s (s.setSreg (subFlags a b c zero s.sreg)) :=
    (Frame.refl s).setSreg fun _ => subFlags_other
  have equal (a b : Byte) : (subResult a b false == 0) = decide (a = b) := by
    have hb := b.isLt
    rw [subResult_eq_zero, decide_eq_decide, ← BitVec.toNat_inj, Bool.toNat_false]
    omega
  refine ⟨⟨_, rfl, ?_, frame ..⟩, ⟨_, rfl, ?_, frame ..⟩, ⟨_, rfl, ?_, frame ..⟩⟩
  · rw [← equal]
    exact subLaw_subFlags rfl
  · rw [← equal]
    exact subLaw_subFlags rfl
  · rw [← subResult_eq_zero]
    exact subLaw_subFlags rfl

/-! ## The Boolean forms (41_arithmetic.md R128, R129) -/

/-- The carry out of a sum's bit, from the bits of the operands and of the sum. -/
def carryForm (a b x : Bool) : Bool := a && b || b && !x || !x && a

/-- The borrow out of a difference's bit. -/
def borrowForm (a b x : Bool) : Bool := !a && b || b && x || x && !a

/-- Overflow of a sum: equal signs and another sign of the result. -/
def addOverflowForm (a b x : Bool) : Bool := a && b && !x || !a && !b && x

/-- Overflow of a difference: different signs and another sign of the result. -/
def subOverflowForm (a b x : Bool) : Bool := a && !b && !x || !a && b && x

theorem addFlags_forms (a b : Byte) (c : Bool) :
    decide (15 < a.toNat % 16 + b.toNat % 16 + c.toNat) =
        carryForm (testBit a 3) (testBit b 3) (testBit (addResult a b c) 3) ∧
      decide (255 < a.toNat + b.toNat + c.toNat) =
        carryForm (testBit a 7) (testBit b 7) (testBit (addResult a b c) 7) := by
  have ha := a.isLt
  have hb := b.isLt
  have hc := c.toNat_le
  simp only [carryForm, testBit_eq_decide, addResult_toNat, bitNat_eq_toNat]
  constructor
  · rw [Bool.eq_iff_iff]
    simp
    omega
  · rw [Bool.eq_iff_iff]
    simp
    omega

theorem subFlags_forms (a b : Byte) (c : Bool) :
    decide (a.toNat % 16 < b.toNat % 16 + c.toNat) =
        borrowForm (testBit a 3) (testBit b 3) (testBit (subResult a b c) 3) ∧
      decide (a.toNat < b.toNat + c.toNat) =
        borrowForm (testBit a 7) (testBit b 7) (testBit (subResult a b c) 7) := by
  have ha := a.isLt
  have hb := b.isLt
  have hc := c.toNat_le
  simp only [borrowForm, testBit_eq_decide, subResult_toNat, bitNat_eq_toNat]
  constructor
  · rw [Bool.eq_iff_iff]
    simp
    omega
  · rw [Bool.eq_iff_iff]
    simp
    omega

theorem addOverflowForm_eq (a b x : Bool) : addOverflowForm a b x = (a == b && x != a) := by decide +revert

theorem subOverflowForm_eq (a b x : Bool) : subOverflowForm a b x = (a != b && x != a) := by decide +revert

/-- Settles O34: the flags' laws by exact numbers agree with the forms, bit 3 and bit 7 of the result taking the part of
the carry. -/
theorem booleanFlagFormsAgree : Obligations.BooleanFlagFormsAgree := by
  intro d r s t a b x
  constructor
  · intro h
    cases h
    have hx : x = addResult a b (s.flag .c) := by simp [x, a, b, addTo]
    obtain ⟨hcarry, hhalf, -, -, -, -⟩ := addTo_law d b (s.flag .c) s
    obtain ⟨hform3, hform7⟩ := addFlags_forms a b (s.flag .c)
    rw [hx]
    refine ⟨hhalf.trans hform3, hcarry.trans hform7, ?_⟩
    exact (getFlag_addFlags .v a b (s.flag .c) s.sreg).trans (addOverflowForm_eq _ _ _).symm
  · intro h
    cases h
    have hx : x = subResult a b (s.flag .c) := subChainFrom_reg d b s
    obtain ⟨hborrow, hhalf, -, -, -, -⟩ := subChainFrom_law d b s
    obtain ⟨hform3, hform7⟩ := subFlags_forms a b (s.flag .c)
    rw [hx]
    refine ⟨hhalf.trans hform3, hborrow.trans hform7, ?_⟩
    exact (getFlag_subFlags .v a b (s.flag .c) _ s.sreg).trans (subOverflowForm_eq _ _ _).symm

/-! ## Sixteen bits at a time -/

section
variable (a : Word) (k : BitVec 6)

theorem adiw_overflow_eq : (!signBit16 a && signBit16 (adiwResult a k)) =
    decide (a.toNat < 32768 ∧ 32768 ≤ a.toNat + k.toNat) := by
  have ha := a.isLt
  have hk := k.isLt
  rw [signBit16_eq, signBit16_eq, adiwResult_toNat, Bool.eq_iff_iff]
  simp
  omega

theorem adiw_carry_eq : (signBit16 a && !signBit16 (adiwResult a k)) = decide (65536 ≤ a.toNat + k.toNat) := by
  have ha := a.isLt
  have hk := k.isLt
  rw [signBit16_eq, signBit16_eq, adiwResult_toNat, Bool.eq_iff_iff]
  simp
  omega

theorem sbiw_overflow_eq : (signBit16 a && !signBit16 (sbiwResult a k)) =
    decide (32768 ≤ a.toNat ∧ a.toNat < 32768 + k.toNat) := by
  have ha := a.isLt
  have hk := k.isLt
  rw [signBit16_eq, signBit16_eq, sbiwResult_toNat, Bool.eq_iff_iff]
  simp
  omega

theorem sbiw_borrow_eq : (!signBit16 a && signBit16 (sbiwResult a k)) = decide (a.toNat < k.toNat) := by
  have ha := a.isLt
  have hk := k.isLt
  rw [signBit16_eq, signBit16_eq, sbiwResult_toNat, Bool.eq_iff_iff]
  simp
  omega

end

/-- Settles O31: the pair holds the exact result modulo 65536, and the flags are read off its bit 15. -/
theorem wordImmediatesAddAndSubtract : Obligations.WordImmediatesAddAndSubtract := by
  intro p k s
  have pair (r : Word) (sr : Byte) : ((s.setPair (pairOf p) r).setSreg sr).pair (pairOf p) = r := by simp
  have hframe := State.setPair_frame s (pairOf p)
  refine ⟨by fin_cases p <;> rfl, ⟨_, rfl, ?_⟩, ⟨_, rfl, ?_⟩⟩
  · simp only [pair, State.setSreg_flag, getFlag_adiwFlags]
    exact ⟨adiwResult_toNat .., signBit16_eq _, adiw_overflow_eq .., adiw_carry_eq .., beq_eq_decide _ _, trivial,
      (hframe _).setSreg fun _ => adiwFlags_other⟩
  · simp only [pair, State.setSreg_flag, getFlag_sbiwFlags]
    exact ⟨sbiwResult_toNat .., signBit16_eq _, sbiw_overflow_eq .., sbiw_borrow_eq .., beq_eq_decide _ _, trivial,
      (hframe _).setSreg fun _ => sbiwFlags_other⟩

/-- A joined word as a signed number. -/
theorem joinBytes_toInt (hi lo : Byte) :
    (joinBytes hi lo).toInt = if hi.toNat < 128 then (hi.toNat * 256 + lo.toNat : Int)
      else (hi.toNat * 256 + lo.toNat : Int) - 65536 := by
  have hlo := lo.isLt
  rw [BitVec.toInt_eq_toNat_cond, joinBytes_toNat]
  split <;> split <;> omega

section
variable (xh xl yh yl : Byte)

/-! A 16-bit comparison and a 16-bit sum, by bytes: the low borrow or carry enters the high byte's. -/

theorem borrow_chain : decide (xh.toNat < yh.toNat + (decide (xl.toNat < yl.toNat)).toNat) =
    decide ((joinBytes xh xl).toNat < (joinBytes yh yl).toNat) := by
  have hx := xl.isLt
  have hy := yl.isLt
  rw [joinBytes_toNat, joinBytes_toNat, decide_eq_decide]
  by_cases h : xl.toNat < yl.toNat <;> simp [h] <;> omega

theorem zero_chain : (decide (xl = yl) &&
      decide (xh.toNat = (yh.toNat + (decide (xl.toNat < yl.toNat)).toNat) % 256)) =
    decide (joinBytes xh xl = joinBytes yh yl) := by
  have hx := xl.isLt
  have hy := yl.isLt
  have hyh := yh.isLt
  rw [← Bool.decide_and, decide_eq_decide, ← BitVec.toNat_inj, ← BitVec.toNat_inj, joinBytes_toNat, joinBytes_toNat]
  by_cases h : xl.toNat < yl.toNat <;> simp [h] <;> omega

theorem sign_chain (c : Bool) (hc : c = decide (xl.toNat < yl.toNat)) :
    xor (decide (128 ≤ (xh.toNat + 512 - yh.toNat - c.toNat) % 256))
      (xor (decide (xh.toNat % 128 < yh.toNat % 128 + c.toNat)) (decide (xh.toNat < yh.toNat + c.toNat))) =
    decide ((joinBytes xh xl).toInt < (joinBytes yh yl).toInt) := by
  have hx := xl.isLt
  have hy := yl.isLt
  have hxh := xh.isLt
  have hyh := yh.isLt
  rw [joinBytes_toInt, joinBytes_toInt]
  cases c with
  | false =>
    have hlow : ¬xl.toNat < yl.toNat := of_decide_eq_false hc.symm
    rw [Bool.toNat_false]
    split <;> split <;> grind
  | true =>
    have hlow : xl.toNat < yl.toNat := of_decide_eq_true hc.symm
    rw [Bool.toNat_true]
    split <;> split <;> grind

theorem carry_chain : decide (255 < xh.toNat + yh.toNat + (decide (255 < xl.toNat + yl.toNat)).toNat) =
    decide (65536 ≤ (joinBytes xh xl).toNat + (joinBytes yh yl).toNat) := by
  have hx := xl.isLt
  have hy := yl.isLt
  rw [joinBytes_toNat, joinBytes_toNat, decide_eq_decide]
  by_cases h : 255 < xl.toNat + yl.toNat <;> simp [h] <;> omega

theorem overflow_chain (c : Bool) (hc : c = decide (255 < xl.toNat + yl.toNat)) :
    xor (decide (127 < xh.toNat % 128 + yh.toNat % 128 + c.toNat)) (decide (255 < xh.toNat + yh.toNat + c.toNat)) =
    decide ((joinBytes xh xl).toInt + (joinBytes yh yl).toInt < -32768 ∨
      32768 ≤ (joinBytes xh xl).toInt + (joinBytes yh yl).toInt) := by
  have hx := xl.isLt
  have hy := yl.isLt
  have hxh := xh.isLt
  have hyh := yh.isLt
  rw [joinBytes_toInt, joinBytes_toInt]
  rw [Bool.eq_iff_iff]
  cases c with
  | false =>
    have hlow : ¬255 < xl.toNat + yl.toNat := of_decide_eq_false hc.symm
    split <;> split <;> simp <;> omega
  | true =>
    have hlow : 255 < xl.toNat + yl.toNat := of_decide_eq_true hc.symm
    split <;> split <;> simp <;> omega

theorem sum_chain (zh zl : Byte) (hl : zl.toNat = (xl.toNat + yl.toNat) % 256)
    (hh : zh.toNat = (xh.toNat + yh.toNat + (decide (255 < xl.toNat + yl.toNat)).toNat) % 256) :
    joinBytes zh zl = joinBytes xh xl + joinBytes yh yl := by
  have hx := xl.isLt
  have hy := yl.isLt
  apply BitVec.eq_of_toNat_eq
  rw [BitVec.toNat_add, joinBytes_toNat, joinBytes_toNat, joinBytes_toNat, hl, hh]
  by_cases h : 255 < xl.toNat + yl.toNat <;> simp [h] <;> omega
end

/-- Settles O35: the low borrow enters the high subtraction, and Z chains both zero tests. -/
theorem compareChainComparesWords : Obligations.CompareChainComparesWords := by
  intro dl rl dh rh s a b
  obtain ⟨⟨t, ht, ⟨hc, -, -, -, hz, -⟩, hframe⟩, -, -⟩ := comparesSetFlagsOnly dl rl 0 s
  obtain ⟨-, -, u, hu, ⟨hc', -, hn', hv', hz', hs'⟩, hframe'⟩ := comparesSetFlagsOnly dh rh 0 t
  have hreg (r : Reg) : t.reg r = s.reg r := hframe.1 r (by simp)
  rw [hreg, hreg] at hc' hn' hv' hz'
  refine ⟨t, u, ht, hu, ?_, ?_, ?_, hframe.trans hframe'⟩
  · rw [hz', hz, hc]
    exact zero_chain ..
  · rw [hc', hc]
    exact borrow_chain ..
  · rw [hs', hn', hv', hc']
    exact sign_chain _ _ _ _ _ hc

/-- Settles O36: the low carry enters the high sum. -/
theorem addChainAddsWords : Obligations.AddChainAddsWords := by
  intro dl rl dh rh s hne hne' a b
  obtain ⟨⟨t, ht, hlo, ⟨hc, -, -, -, -, -⟩, hframe⟩, -, -, -⟩ := addFamilyAdds dl rl s
  obtain ⟨-, ⟨u, hu, hhi, ⟨hc', -, -, hv', -, -⟩, hframe'⟩, -, -⟩ := addFamilyAdds dh rh t
  have hdh : t.reg dh = s.reg dh := hframe.1 dh (by simpa using hne.symm)
  have hrh : t.reg rh = s.reg rh := hframe.1 rh (by simpa using hne'.symm)
  have hdl : u.reg dl = t.reg dl := hframe'.1 dl (by simpa using hne)
  rw [hdh, hrh] at hhi hc' hv'
  refine ⟨t, u, ht, hu, ?_, ?_, ?_, hframe.trans hframe'⟩
  · rw [hdl]
    rw [hc] at hhi
    exact sum_chain _ _ _ _ _ _ hlo hhi
  · rw [hc', hc]
    exact carry_chain ..
  · rw [hv', hc']
    exact overflow_chain _ _ _ _ _ hc

/-! ## Logic -/

theorem writeWithFlags_reg (d : Reg) (r : Byte) (flags : Byte → Byte → Byte) (s : State) :
    (writeWithFlags d r flags s).reg d = r := by simp [writeWithFlags]

/-- Settles O32: the bits of the result are those of the bit vector operation. -/
theorem logicFamilyComputesBitwise : Obligations.LogicFamilyComputesBitwise := by
  intro d r k s
  have law (v : Byte) : LogicLaw ((writeWithFlags d v logicFlags s).reg d) (writeWithFlags d v logicFlags s) := by
    rw [writeWithFlags_reg]
    exact logicLaw_logicFlags rfl
  have frame (v : Byte) : Frame [d] [.z, .n, .v, .s] s (writeWithFlags d v logicFlags s) :=
    (setReg_frame s d v).setSreg fun _ => logicFlags_other
  have hcom : 0xFF - s.reg d = ~~~s.reg d := BitVec.allOnes_sub_eq_not _
  refine ⟨⟨_, rfl, fun b => ?_, law _, frame _⟩, ⟨_, rfl, fun b => ?_, law _, frame _⟩,
    ⟨_, rfl, fun b => ?_, law _, frame _⟩, ⟨_, rfl, fun b => ?_, law _, frame _⟩,
    ⟨_, rfl, fun b => ?_, law _, frame _⟩,
    ⟨_, rfl, fun b => ?_, ?_, getFlag_comFlags .., (setReg_frame s d _).setSreg fun _ => comFlags_other⟩⟩
  all_goals rw [writeWithFlags_reg]
  · exact BitVec.getLsbD_and
  · exact BitVec.getLsbD_or
  · exact BitVec.getLsbD_xor
  · exact BitVec.getLsbD_and
  · exact BitVec.getLsbD_or
  · rw [hcom]
    simp [testBit]
  · exact logicLaw_comFlags rfl

section
variable (x : Byte)

theorem neg_carry_eq : decide (((0 : Byte).toNat : Int) - x.toNat - bitNat false < 0) =
    decide (subResult 0 x false ≠ 0) := by decide +revert

theorem neg_overflow_eq : (signBit 0 != signBit x && signBit (subResult 0 x false) != signBit 0) =
    decide (subResult 0 x false = 0x80) := by decide +revert

theorem neg_half_eq : decide ((((0 : Byte).toNat % 16 : Nat) : Int) - (x.toNat % 16 : Nat) - bitNat false < 0) =
    decide (x.toNat % 16 ≠ 0) := by decide +revert

theorem neg_half_bits : decide (x.toNat % 16 ≠ 0) = (testBit (subResult 0 x false) 3 || testBit x 3) := by
  decide +revert

theorem neg_toNat : (subResult 0 x false).toNat = (256 - x.toNat) % 256 := by decide +revert

end

/-- Settles O33: NEG is a subtraction from zero; INC and DEC take their flags from the result. -/
theorem negIncDecComplete : Obligations.NegIncDecComplete := by
  intro d s
  refine ⟨⟨_, rfl, ?_⟩, ⟨_, rfl, ?_⟩, ⟨_, rfl, ?_⟩⟩
  · have hreg (v : Byte) (sr : Byte) : ((s.setReg d v).setSreg sr).reg d = v := by simp
    simp only [hreg, State.setSreg_flag, subFlagsPlain, getFlag_subFlags]
    exact ⟨neg_toNat _, neg_carry_eq _, neg_overflow_eq _, (neg_half_eq _).trans (neg_half_bits _), neg_half_eq _,
      signBit_eq _, beq_eq_decide _ _, trivial, (setReg_frame s d _).setSreg fun _ => subFlags_other⟩
  · rw [writeWithFlags_reg]
    exact ⟨BitVec.toNat_add .., (getFlag_incFlags ..).trans (beq_eq_decide _ _),
      (getFlag_incFlags ..).trans (signBit_eq _), (getFlag_incFlags ..).trans (beq_eq_decide _ _),
      signAgrees_incFlags .., (setReg_frame s d _).setSreg fun _ => incFlags_other⟩
  · rw [writeWithFlags_reg]
    refine ⟨?_, (getFlag_decFlags ..).trans (beq_eq_decide _ _),
      (getFlag_decFlags ..).trans (signBit_eq _), (getFlag_decFlags ..).trans (beq_eq_decide _ _),
      signAgrees_decFlags .., (setReg_frame s d _).setSreg fun _ => decFlags_other⟩
    rw [BitVec.toNat_sub, Nat.add_comm]
    rfl

/-! ## Right shifts and moves -/

theorem shiftRightTo_reg (d : Reg) (r : Byte) (s : State) : (shiftRightTo d r s).reg d = r := by simp [shiftRightTo]

theorem rorResult_toNat (x : Byte) (c : Bool) : (putBit (x >>> 1) 7 c).toNat = 128 * c.toNat + x.toNat / 2 := by
  decide +revert

theorem asrResult_toInt (x : Byte) : (x &&& 0x80 ||| x >>> 1).toInt = x.toInt / 2 := by decide +revert

theorem swapResult_toNat (x : Byte) : (x <<< 4 ||| x >>> 4).toNat = 16 * (x.toNat % 16) + x.toNat / 16 := by
  decide +revert

/-- Settles O37: one shape, with the half that each shift computes. -/
theorem rightShiftsHalve : Obligations.RightShiftsHalve := by
  intro d s
  have law (r : Byte) : ShiftRightLaw (s.reg d) ((shiftRightTo d r s).reg d) (shiftRightTo d r s) := by
    rw [shiftRightTo_reg]
    exact shiftRightLaw_shiftRightFlags rfl
  have frame (r : Byte) : Frame [d] [.c, .z, .n, .v, .s] s (shiftRightTo d r s) :=
    (setReg_frame s d r).setSreg fun _ => shiftRightFlags_other
  refine ⟨⟨_, rfl, ?_, law _, frame _⟩, ⟨_, rfl, ?_, law _, frame _⟩, ⟨_, rfl, ?_, law _, frame _⟩⟩
  all_goals rw [shiftRightTo_reg]
  · exact BitVec.toNat_ushiftRight ..
  · exact rorResult_toNat ..
  · exact asrResult_toInt _

/-- Settles O38: each writes its register with its result. -/
theorem registerMovesWriteOneRegister : Obligations.RegisterMovesWriteOneRegister := by
  intro d r k b s
  have reg (v : Byte) : (s.setReg d v).reg d = v := by simp
  refine ⟨⟨_, rfl, reg _, setReg_frame ..⟩, ⟨_, rfl, reg _, setReg_frame ..⟩, ⟨_, rfl, ?_, setReg_frame ..⟩,
    ⟨_, rfl, fun c => ?_, setReg_frame ..⟩⟩
  · rw [reg]
    exact swapResult_toNat _
  · rw [reg]
    exact testBit_putBit ..

/-- Settles O39: the three replace one bit of SREG. -/
theorem statusBitInstructionsWriteOneBit : Obligations.StatusBitInstructionsWriteOneBit := by
  intro f b d s
  exact ⟨⟨_, rfl, fun c => testBit_putBit .., rfl⟩, ⟨_, rfl, fun c => testBit_putBit .., rfl⟩,
    ⟨_, rfl, fun c => testBit_putBit .., rfl⟩⟩

/-! ## No-ops, jumps, skips and branches -/

/-- Settles O40. -/
theorem noOpsChangeNothing : Obligations.NoOpsChangeNothing := fun _ => ⟨rfl, rfl, rfl, rfl⟩

/-- Settles O41, from the targets as arithmetic on words. -/
theorem jumpsMoveThePc : Obligations.JumpsMoveThePc := by
  intro k s
  refine ⟨?_, ?_, rfl⟩
  · rw [← relTarget_k12]
    rfl
  · rw [← indirectTarget_eq]
    rfl

/-- Settles O45: a skip and a branch write the pc under their condition. -/
theorem skipsAndBranchesMoveThePc : Obligations.SkipsAndBranchesMoveThePc := by
  intro d r a b k s
  have skip (c : Bool) : skipIf c s = { s with pc := if c then s.pc + 2 else s.pc } := skipIf_spec c s
  have branch (c : Bool) : branchIf c k s = { s with pc := if c then s.pc + 2 * k.signExtend 16 else s.pc } := by
    rw [branchIf_spec, relTarget_k7]
    rfl
  have ite_not (c : Bool) (x y : Word) : (if !c then x else y) = if c then y else x := by cases c <;> rfl
  refine ⟨?_, ?_, ?_, ?_, ?_, ?_, ?_⟩
  · exact (congrArg Host.Outcome.next (skip _)).trans (by simp)
  · exact (congrArg Host.Outcome.next (skip _)).trans (by rw [ite_not])
  · exact congrArg Host.Outcome.next (skip _)
  · exact (congrArg Host.Outcome.next (skip _)).trans (by rw [ite_not]; rfl)
  · exact congrArg Host.Outcome.next (skip _)
  · exact congrArg Host.Outcome.next (branch _)
  · exact (congrArg Host.Outcome.next (branch _)).trans (by rw [ite_not])

end Sys2Proof.Machine
end

section
/-! The data space, the stack and control transfer: what loads, stores, pushes, pops, calls and returns do; and for every
instruction the pc it leaves and the flags it may write. -/

namespace Sys2Proof.Machine

/-! ## A read after a write -/

theorem pastRam_iff (s : State) (a : Word) :
    pastRam s.params a ↔ dataCell s a = .charOut ∨ dataCell s a = .unmapped := by
  simp only [dataCell_eq_iff, atCell]
  tauto

theorem splByte_withSpl (sp : Word) (v : Byte) : splByte (withSpl sp v) = v := joinBytes_lo _ _

theorem sphByte_withSph (sp : Word) (v : Byte) : sphByte (withSph sp v) = BitVec.ofNat 8 (v.toNat % 4) := by
  have hmask : (v &&& 0x03) &&& 0x03 = BitVec.ofNat 8 (v.toNat % 4) := by decide +revert
  rw [sphByte_eq_hi_and, withSph_eq_joinBytes, joinBytes_hi, hmask]

/-- Settles O26, by the cell the address selects, which the write does not change. -/
theorem dataReadAfterWrite : Obligations.DataReadAfterWrite := by
  intro s a v hw
  have hcell : dataCell (memWrite s a v) a = dataCell s a := dataCell_congr s _ (memWrite_params s a v) a
  rw [memRead, hcell]
  simp only [pastRam_iff, ← show dataCell s a = .sph ↔ atSph s.params a from dataCell_eq_iff s a .sph]
  cases hc : dataCell s a with
  | reg i => simp [memWrite_reg, hc]
  | spl => simp [memWrite_sp, hc, splByte_withSpl]
  | sph => simp [memWrite_sp, hc, sphByte_withSph]
  | sreg =>
    have hsreg : (memWrite s a v).sreg = v := (memWrite_sreg s a v).trans (if_pos ((dataCell_eq_iff s a .sreg).1 hc))
    simp [hsreg]
  | ram i => simp [memWrite_ram_read s a v hw, hc]
  | charOut => simp
  | unmapped => simp

theorem memWrite_ram_wf {s : State} (a : Word) (v : Byte) (hw : s.ram.wf) : (memWrite s a v).ram.wf := by
  obtain ⟨_, h⟩ | ⟨_, h⟩ | ⟨-, h⟩ | ⟨i, -, h⟩ | h | h := memWrite_cases s a v <;> rw [h]
  · exact hw
  · exact hw
  · exact hw
  · exact Memory.write_wf s.ram hw i v
  · exact hw
  · exact hw

/-! ## Loads and stores through a pointer -/

/-- A load by R215's order: only a destination inside the pointer hides the pointer's new byte. -/
theorem loads_of_exec {i : Instr} {p : RegPair} {mode : PointerMode} {d : Reg} {s : State}
    (h : exec i s = .next (loadVia p mode d s)) : Loads i p mode d s := by
  refine ⟨_, h, ?_, fun hlo => ?_, fun hhi => ?_, fun r hr => ?_, loadVia_sreg .., ?_, loadVia_pc .., ?_⟩
  · cases mode <;> simp [loadVia, beforeAccess, afterAccess, atAccess, pointerAddr]
  · cases mode <;>
      simp [loadVia, beforeAccess, afterAccess, pointerAddr, pointerAfter, hlo.symm, (RegPair.hi_ne_lo p p).symm, State.pair]
  · cases mode <;> simp [loadVia, beforeAccess, afterAccess, pointerAddr, pointerAfter, hhi.symm, State.pair]
  · obtain ⟨hd, hlo, hhi⟩ : r ≠ d ∧ r ≠ p.lo ∧ r ≠ p.hi := by simpa using hr
    cases mode <;> simp [loadVia, beforeAccess, afterAccess, hd, hlo, hhi]
  · cases mode <;> rfl
  · cases mode <;> exact ⟨rfl, rfl, rfl, rfl, rfl, rfl, rfl⟩

/-- Settles O46: the nine are one shape. -/
theorem loadsReadThroughThePointer : Obligations.LoadsReadThroughThePointer := by
  intro d s
  exact ⟨loads_of_exec rfl, loads_of_exec rfl, loads_of_exec rfl, loads_of_exec rfl, loads_of_exec rfl,
    loads_of_exec rfl, loads_of_exec rfl, loads_of_exec rfl, loads_of_exec rfl⟩

/-- A pair's write shows at its two registers' addresses alone. -/
theorem memRead_setPair_other {s : State} {p : RegPair} {b : Word} (v : Word) (hlo : b.toNat ≠ p.lo.val)
    (hhi : b.toNat ≠ p.hi.val) : memRead (s.setPair p v) b = memRead s b := by
  have hcell : dataCell (s.setPair p v) b = dataCell s b := dataCell_congr s _ rfl b
  rw [memRead, memRead, hcell]
  cases hc : dataCell s b with
  | reg i =>
    have hi : b.toNat = i.val := (dataCell_eq_iff s b (.reg i)).1 hc
    have hne : i ≠ p.lo ∧ i ≠ p.hi := ⟨fun e => hlo (e ▸ hi), fun e => hhi (e ▸ hi)⟩
    simp [hne]
  | _ => rfl

/-- A store by R215's order: the pointer's write before or after the one data-space write. -/
theorem stores_of_exec {i : Instr} {p : RegPair} {mode : PointerMode} {r : Reg} {s : State} (hw : s.ram.wf)
    (h : exec i s = .next (storeVia p mode r s)) : Stores i p mode r s := by
  refine ⟨memWrite (atAccess p mode s) (pointerAddr p mode s) (s.reg r), _, h, ?_, ?_, fun b hne hb => ?_⟩
  · exact memWrite_dataWrite _ _ (by cases mode <;> exact hw)
  · cases mode <;> rfl
  · cases mode with
    | plain => exact memRead_memWrite_of_ne _ hw hne
    | postInc =>
      obtain ⟨hlo, hhi⟩ := hb.resolve_left nofun
      exact (memRead_setPair_other _ hlo hhi).trans (memRead_memWrite_of_ne _ hw hne)
    | preDec =>
      obtain ⟨hlo, hhi⟩ := hb.resolve_left nofun
      exact (memRead_memWrite_of_ne (s := s.setPair p (s.pair p - 1)) _ hw hne).trans (memRead_setPair_other _ hlo hhi)

/-- Settles O47: the nine are one shape. -/
theorem storesWriteThroughThePointer : Obligations.StoresWriteThroughThePointer := by
  intro r s hw
  exact ⟨stores_of_exec hw rfl, stores_of_exec hw rfl, stores_of_exec hw rfl, stores_of_exec hw rfl,
    stores_of_exec hw rfl, stores_of_exec hw rfl, stores_of_exec hw rfl, stores_of_exec hw rfl, stores_of_exec hw rfl⟩

/-! ## Program memory and I/O -/

theorem Frame.mono_regs {l l' : List Reg} {flags : List Flag} {s t : State} (h : Frame l flags s t) (hl : l ⊆ l') :
    Frame l' flags s t := by
  obtain ⟨hregs, hrest⟩ := h
  exact ⟨hregs.mono hl, hrest⟩

theorem loadProgram_inside {mode : PointerMode} {d : Reg} {s : State}
    (h : s.programBase + (pointerAddr .z mode s).toNat < s.params.storeSize) :
    loadProgram mode d s = .next ((afterAccess .z mode (pointerAddr .z mode s)
      (beforeAccess .z mode (pointerAddr .z mode s) s)).setReg d
        (Memory.read s.store (s.programBase + (pointerAddr .z mode s).toNat))) := by
  simp only [loadProgram, progRead_inside h]

theorem loadProgram_outside {mode : PointerMode} {d : Reg} {s : State}
    (h : s.params.storeSize ≤ s.programBase + (pointerAddr .z mode s).toNat) :
    loadProgram mode d s = .fault (.storeRange (s.programBase + (pointerAddr .z mode s).toNat)) := by
  simp only [loadProgram, progRead_outside h]

/-- Settles O48: the byte inside, the fault outside, and the pointer written before the destination. -/
theorem programLoadsReadTheStore : Obligations.ProgramLoadsReadTheStore := by
  intro d s a
  have same (t : State) (e : Reg) (v : Byte) : (t.setReg e v).reg e = v := by simp
  refine ⟨fun h => ⟨⟨_, loadProgram_inside (mode := .plain) h, same .., setReg_frame ..⟩,
    ⟨_, loadProgram_inside (mode := .plain) h, same .., setReg_frame ..⟩,
    ⟨_, loadProgram_inside (mode := .postInc) h, same .., fun hlo => ?_, fun hhi => ?_, ?_⟩⟩,
    fun h => ⟨loadProgram_outside (mode := .plain) h, loadProgram_outside (mode := .plain) h,
      loadProgram_outside (mode := .postInc) h⟩⟩
  · simp [afterAccess, beforeAccess, pointerAddr, hlo.symm, RegPair.hi, RegPair.lo]
  · simp [afterAccess, beforeAccess, pointerAddr, hhi.symm, RegPair.hi]
  · exact ((State.setPair_frame s .z _).trans (setReg_frame _ d _)).mono_regs (by simp [RegPair.lo, RegPair.hi])

/-- Settles O49: a register write and a data-space write. -/
theorem inAndOutUseTheIoWindow : Obligations.InAndOutUseTheIoWindow := by
  intro d a s
  have hreg (v : Byte) : (s.setReg d v).reg d = v := by simp
  exact ⟨⟨_, rfl, hreg _, setReg_frame ..⟩, fun hw => ⟨_, rfl, memWrite_dataWrite _ _ hw⟩⟩

/-- Settles O50: the byte read, with one bit replaced, is written back. -/
theorem ioBitInstructionsReadModifyWrite : Obligations.IoBitInstructionsReadModifyWrite := by
  intro a b s hw addr
  exact ⟨⟨_, _, rfl, memWrite_dataWrite _ _ hw, fun c => testBit_putBit ..⟩,
    ⟨_, _, rfl, memWrite_dataWrite _ _ hw, fun c => testBit_putBit ..⟩⟩

/-! ## The stack -/

/-- Settles O51: PUSH writes at SP and then moves the SP that is left; POP moves SP first. -/
theorem pushAndPopUseTheStack : Obligations.PushAndPopUseTheStack := by
  intro r s
  refine ⟨fun hw => ⟨_, memWrite_dataWrite _ _ hw, rfl⟩, ⟨_, rfl, ?_, rfl, setReg_regsExcept _ r _, rfl, rfl, ?_⟩⟩
  · rw [State.setReg_reg, if_pos rfl]
    rfl
  · exact ⟨rfl, rfl, rfl, rfl, rfl, rfl, rfl⟩

/-- Settles O42: two pushes, then the target, which is computed before them. -/
theorem callsPushTheReturnOffset : Obligations.CallsPushTheReturnOffset := by
  intro k s hw
  have hw' : (push8 s s.pc.lo).ram.wf := memWrite_ram_wf s.sp s.pc.lo hw
  refine ⟨_, _, memWrite_dataWrite s.sp s.pc.lo hw, memWrite_dataWrite (push8 s s.pc.lo).sp s.pc.hi hw', ?_, ?_⟩
  · rw [← relTarget_k12]
    rfl
  · rw [← indirectTarget_eq]
    rfl

/-- Settles O43: the two pops, each at the SP it has moved. -/
theorem returnsPopThePc : Obligations.ReturnsPopThePc := by
  intro s hi lo
  have hsp : s.sp + 1 + 1 = s.sp + 2 := BitVec.add_assoc ..
  have hlo : pop8 (pop8State s) = lo := by
    rw [pop8, pop8State_sp, pop8State_sp, hsp]
    exact congrArg (fun a => memRead { s with sp := a } (s.sp + 2)) hsp
  have hpc : pop16 s = joinBytes hi lo := by rw [pop16, hlo]; rfl
  have hret : returnFrom s = { s with sp := s.sp + 2, pc := joinBytes hi lo, cls := some .ret } := by
    rw [returnFrom_spec, hsp, hpc]
  have hreti : returnFromInterrupt s = { returnFrom s with sreg := s.sreg ||| 0x80 } := rfl
  exact ⟨congrArg Host.Outcome.next hret, congrArg Host.Outcome.next (by rw [hreti, hret])⟩

theorem memRead_of_atRam {s : State} {a : Word} {i : Nat} (h : atRam s.params a i) : memRead s a = Memory.read s.ram i := by
  rw [memRead, dataCell_of_atCell s a (.ram i) h]

theorem memWrite_of_atRam {s : State} {a : Word} {i : Nat} (v : Byte) (h : atRam s.params a i) :
    memWrite s a v = s.setRam (Memory.write s.ram i v) := by
  rw [memWrite, dataCell_of_atCell s a (.ram i) h]

theorem push8_of_atRam {s : State} {i : Nat} (v : Byte) (h : atRam s.params s.sp i) :
    push8 s v = { s with ram := s.ram.write i v, sp := s.sp - 1 } := by
  rw [push8, memWrite_of_atRam v h]
  rfl

/-- With both stack bytes in RAM, a call is two RAM writes, SP down by two, the pc and the class. -/
theorem callTo_of_atRam {s : State} {i j : Nat} (target : Word) (hi : atRam s.params s.sp i)
    (hj : atRam s.params (s.sp - 1) j) :
    callTo target s = { s with
      ram := (s.ram.write i s.pc.lo).write j s.pc.hi, sp := s.sp - 1 - 1, pc := target, cls := some .call } := by
  rw [callTo_spec, push16, push8_of_atRam s.pc.lo hi, push8_of_atRam s.pc.hi (by exact hj)]

/-- Settles O44: the two pushed bytes stand in different RAM cells, and the return reads them back in the other order. -/
theorem callThenReturnComesBack : Obligations.CallThenReturnComesBack := by
  intro k s i j hw hi hj call hcall
  have hij : i ≠ j := by
    rintro rfl
    have : s.sp = s.sp - 1 := BitVec.eq_of_toNat_eq (hi.2.2.trans hj.2.2.symm)
    bv_omega
  have hw1 : (s.ram.write i s.pc.lo).wf := Memory.write_wf _ hw _ _
  obtain ⟨target, hexec⟩ : ∃ target, exec call s = .next (callTo target s) := by
    obtain rfl | rfl := hcall <;> exact ⟨_, rfl⟩
  rw [callTo_of_atRam target hi hj] at hexec
  have low (t : State) (ht : t.params = s.params) (hm : t.ram = (s.ram.write i s.pc.lo).write j s.pc.hi) :
      memRead t s.sp = s.pc.lo := by
    rw [memRead_of_atRam (ht ▸ hi), hm, Memory.read_write_other _ hw1 _ _ _ hij, Memory.read_write_same _ hw]
  have high (t : State) (ht : t.params = s.params) (hm : t.ram = (s.ram.write i s.pc.lo).write j s.pc.hi) :
      memRead t (s.sp - 1) = s.pc.hi := by
    rw [memRead_of_atRam (ht ▸ hj), hm, Memory.read_write_same _ hw1]
  have hsp1 : s.sp - 1 - 1 + 1 = s.sp - 1 := by bv_omega
  have hsp2 : s.sp - 1 - 1 + 2 = s.sp := by bv_omega
  refine ⟨_, _, hexec, low _ rfl rfl, high _ rfl rfl, by simp only; bv_omega, (returnsPopThePc _).1, ?_, fun n hni hnj => ?_⟩
  · simp only [hsp1, hsp2, low, high, joinBytes_hi_lo]
  · exact (Memory.read_write_other _ hw1 _ _ _ hnj).trans (Memory.read_write_other _ hw _ _ _ hni)

end Sys2Proof.Machine
end

section
/-! The pc every instruction leaves and the flags it may write (10_state.md R26, R28). -/

namespace Sys2Proof.Machine

/-! ## The pc -/

theorem ite_not_bool {α : Type} (c : Bool) (x y : α) : (if !c then x else y) = if c then y else x := by cases c <;> rfl

/-- Settles O21, constructor by constructor: writes of registers, SREG and memory leave the pc, and the jumps, skips and
branches write the target. -/
theorem pcAfterStep : Obligations.PcAfterStep := by
  intro i s t h
  cases i with
  | lpmR0 | lpm | lpmInc =>
    obtain ⟨-, e⟩ | ⟨-, e⟩ := loadProgram_cases _ _ s
    · cases e.symm.trans h; rfl
    · cases e.symm.trans h
  | ldX | ldXInc | ldXDec | ldY | ldYInc | ldYDec | ldZ | ldZInc | ldZDec => cases h; exact loadVia_pc ..
  | stX | stXInc | stXDec | stY | stYInc | stYDec | stZ | stZInc | stZDec => cases h; exact storeVia_pc ..
  | push => cases h; exact push8_pc ..
  | cbi | sbi | out => cases h; exact memWrite_pc ..
  | rjmp k | rcall k => cases h; exact relTarget_k12 s.pc k
  | ijmp | icall => cases h; exact indirectTarget_eq _
  | cpse => cases h; rw [skipIf_spec]; simp [pcAfter]
  | sbrs | sbis => cases h; rw [skipIf_spec]; rfl
  | sbrc | sbic => cases h; rw [skipIf_spec, State.setPc_pc, ite_not_bool]; rfl
  | brbs f k => cases h; rw [branchIf_spec, relTarget_k7]; rfl
  | brbc f k => cases h; rw [branchIf_spec, relTarget_k7, State.setPc_pc, ite_not_bool]; rfl
  | _ => cases h; rfl

/-! ## The flags -/

/-- An address whose flags do not hold the flag is not SREG_ADDR. -/
theorem not_atSreg_of_not_mem {p : Params} {a : Word} {f : Flag} (h : f ∉ flagsAt p a) : ¬atSreg p a := by
  intro ha
  rw [flagsAt, if_pos ha] at h
  cases f <;> simp [allFlags] at h

theorem flagsExcept_of_sreg_eq {s t : State} (l : List Flag) (h : t.sreg = s.sreg) : FlagsExcept l s t :=
  fun f _ => congrArg (getFlag f) h

/-- A write of a status byte that keeps the flags outside the list. -/
theorem flagsExcept_of_sreg {s t : State} {l l' : List Flag} (h : ∀ f, f ∉ l → getFlag f t.sreg = getFlag f s.sreg)
    (hl : l ⊆ l') : FlagsExcept l' s t := FlagsExcept.mono h hl

/-- Settles O22, constructor by constructor: the flag computations by the flags they leave alone, the data-space writes
by the one address that reaches SREG. -/
theorem flagsOnlyAsListed : Obligations.FlagsOnlyAsListed := by
  have six : [Flag.c, .z, .n, .v, .s, .h] ⊆ [Flag.h, .s, .v, .n, .z, .c] := by decide
  have five : [Flag.c, .z, .n, .v, .s] ⊆ [Flag.s, .v, .n, .z, .c] := by decide
  have five' : [Flag.z, .n, .v, .s, .c] ⊆ [Flag.s, .v, .n, .z, .c] := by decide
  have four : [Flag.z, .n, .v, .s] ⊆ [Flag.s, .v, .n, .z] := by decide
  intro i s t h
  cases i with
  | add | adc | lsl | rol => cases h; exact flagsExcept_of_sreg (fun _ => addFlags_other) six
  | sub | subi | sbc | sbci | cp | cpi | cpc | neg => cases h; exact flagsExcept_of_sreg (fun _ => subFlags_other) six
  | and | andi | or | ori | eor => cases h; exact flagsExcept_of_sreg (fun _ => logicFlags_other) four
  | inc => cases h; exact flagsExcept_of_sreg (fun _ => incFlags_other) four
  | dec => cases h; exact flagsExcept_of_sreg (fun _ => decFlags_other) four
  | com => cases h; exact flagsExcept_of_sreg (fun _ => comFlags_other) five'
  | adiw => cases h; exact flagsExcept_of_sreg (fun _ => adiwFlags_other) five
  | sbiw => cases h; exact flagsExcept_of_sreg (fun _ => sbiwFlags_other) five
  | lsr | ror | asr => cases h; exact flagsExcept_of_sreg (fun _ => shiftRightFlags_other) five
  | bset b | bclr b =>
    cases h
    intro f hf
    have hne : f.bit ≠ b := fun e => hf (by cases f <;> simp [flagsWritten, allFlags, ← e])
    exact (getFlag_putBit ..).trans (if_neg hne)
  | bst =>
    cases h
    intro f hf
    exact (getFlag_putFlag ..).trans (if_neg (by simpa [flagsWritten] using hf))
  | reti =>
    cases h
    intro f hf
    exact (getFlag_putFlag f .i true s.sreg).trans (if_neg (by simpa [flagsWritten] using hf))
  | out | sbi | cbi =>
    cases h
    exact fun f hf => congrArg (getFlag f) (memWrite_sreg_off _ (not_atSreg_of_not_mem hf))
  | stX | stXInc | stXDec | stY | stYInc | stYDec | stZ | stZInc | stZDec =>
    cases h
    exact fun f hf => congrArg (getFlag f) (storeVia_sreg_off _ (not_atSreg_of_not_mem hf))
  | push =>
    cases h
    exact fun f hf => congrArg (getFlag f) (push8_sreg_off _ (not_atSreg_of_not_mem hf))
  | rcall | icall =>
    cases h
    intro f hf
    obtain ⟨hlo, hhi⟩ := not_or.1 (mt List.mem_append.2 hf)
    exact congrArg (getFlag f) (callTo_sreg_off _ (not_atSreg_of_not_mem hlo) (not_atSreg_of_not_mem hhi))
  | ldX | ldXInc | ldXDec | ldY | ldYInc | ldYDec | ldZ | ldZInc | ldZDec =>
    cases h
    exact flagsExcept_of_sreg_eq _ (loadVia_sreg ..)
  | lpmR0 | lpm | lpmInc =>
    obtain ⟨-, e⟩ | ⟨-, e⟩ := loadProgram_cases _ _ s
    · cases e.symm.trans h; exact flagsExcept_of_sreg_eq _ rfl
    · cases e.symm.trans h
  | cpse | sbrc | sbrs | sbic | sbis => cases h; rw [skipIf_spec]; exact flagsExcept_of_sreg_eq _ rfl
  | brbs | brbc => cases h; rw [branchIf_spec]; exact flagsExcept_of_sreg_eq _ rfl
  | _ => cases h; exact flagsExcept_of_sreg_eq _ rfl

end Sys2Proof.Machine
end

section
/-! The vector operations on strings, and the frame of the file operations: what an answer applied to the core can change. -/

namespace Sys2Proof.Machine

/-- A vector step that answers is RET from the state with the answer applied. -/
theorem vectorStep_eq_ret {op : HostOp} {s : State} {r : FileReply} (h : hostCall op s = .ok r) :
    vectorStep op s = exec .ret (applyReply (s.pair .r22) r s) := vectorStep_ok op s r h

/-- A serial operation's answer changes nothing but the serial stream. -/
theorem vectorStep_serialReply {op : HostOp} {s : State} {bytes : List Byte}
    (h : hostCall op s = .ok (serialReply s bytes)) : vectorStep op s = exec .ret (s.setHost (s.host.emit bytes)) :=
  vectorStep_eq_ret h

/-- Settles O52: `dataString` is the string that `ScanOf` describes. -/
theorem serialOperationsEmit : Obligations.SerialOperationsEmit := fun s =>
  ⟨vectorStep_serialReply rfl, dataString s (s.pair .r24) s.params.strScanMax, dataString_spec ..,
    vectorStep_serialReply rfl, vectorStep_serialReply rfl⟩

/-! ## Program-memory strings -/

/-- A scan whose offsets all lie inside the Byte Store gives the string that is there. -/
theorem progString_eq_ok {s : State} {a : Word} {n : Nat} {str : List Byte}
    (hstr : ScanOf n (fun b => Memory.read s.store (s.programBase + b.toNat)) a str)
    (hin : ∀ i, i ≤ str.length → i < n → scanInside s a i) : progString s a n = .ok str := by
  obtain ⟨str', hok, hstr', -⟩ | ⟨k, hk, hbefore, hout, -⟩ := progString_cases s a n
  · rw [hok, scanOf_unique n _ a str' str hstr' hstr]
  · obtain ⟨-, -, hfull | hzero⟩ := hstr
    · exact absurd (hin k (by omega) hk) hout
    · have hlt : str.length < k := Nat.lt_of_not_le fun hle => hout (hin k hle hk)
      exact absurd hzero (hbefore str.length hlt).2

/-- A scan that meets an offset outside the Byte Store before a zero byte faults there. -/
theorem progString_eq_error {s : State} {a : Word} {limit n : Nat} (hn : n < limit)
    (hbefore : ∀ i, i < n →
      scanInside s a i ∧ Memory.read s.store (s.programBase + (a + BitVec.ofNat 16 i).toNat) ≠ 0)
    (hout : ¬scanInside s a n) :
    progString s a limit = .error (.storeRange (s.programBase + (a + BitVec.ofNat 16 n).toNat)) := by
  obtain ⟨str, -, ⟨-, -, hend⟩, hin⟩ | ⟨k, -, hbefore', hout', e⟩ := progString_cases s a limit
  · have hlt : str.length < n := Nat.lt_of_not_le fun hle => hout (hin n hle hn)
    exact absurd (hend.resolve_left (by omega)) (hbefore str.length hlt).2
  · have hnk : ¬n < k := fun h => hout (hbefore' n h).1
    have hkn : ¬k < n := fun h => hout' (hbefore k h).1
    obtain rfl : k = n := by omega
    exact e

theorem vectorStep_progString {s : State} {str : List Byte}
    (h : progString s (s.pair .r24) s.params.strScanMax = .ok str) :
    vectorStep .printProgmem s = exec .ret (s.setHost (s.host.emit str)) ∧
      vectorStep .printlnProgmem s = exec .ret (s.setHost (s.host.emit (str ++ s.params.newline))) := by
  have hreply (tail : List Byte) : progStringReply s tail = .ok (serialReply s (str ++ tail)) := by
    rw [progStringReply, h]
  exact ⟨vectorStep_serialReply ((hreply []).trans (by rw [List.append_nil])), vectorStep_serialReply (hreply _)⟩

theorem vectorStep_progString_fault {s : State} {f : Fault}
    (h : progString s (s.pair .r24) s.params.strScanMax = .error f) :
    vectorStep .printProgmem s = .fault f ∧ vectorStep .printlnProgmem s = .fault f := by
  simp [vectorStep, hostCall, progStringReply, h]

/-- Settles O53: the scan stops at its zero byte or at the first offset outside, and under the launch premise none is outside. -/
theorem programStringsEmit : Obligations.ProgramStringsEmit := by
  intro s
  refine ⟨fun str hstr hin => vectorStep_progString (progString_eq_ok hstr hin),
    fun n hn hbefore hout =>
      vectorStep_progString_fault (progString_eq_error hn hbefore (Nat.not_lt.2 hout)),
    fun hsafe => ?_⟩
  obtain ⟨str, hok, hstr, -⟩ | ⟨k, -, -, hout, -⟩ := progString_cases s (s.pair .r24) s.params.strScanMax
  · exact ⟨str, hstr, vectorStep_progString hok⟩
  · refine absurd ?_ hout
    have hoff := (s.pair .r24 + BitVec.ofNat 16 k).isLt
    have hbound : s.programBase + 0xFFFF < s.params.storeSize := hsafe
    rw [scanInside]
    omega

/-! ## A buffer written into the data space -/

/-- What every write to a buffer address keeps, the whole buffer keeps. -/
theorem writeBytes_induction {P : State → Prop} {s : State} {a : Word} {l : List Byte} (h0 : P s)
    (hstep : ∀ u j v, j < l.length → P u → P (memWrite u (a + BitVec.ofNat 16 j) v)) : P (writeBytes s a l) := by
  induction l generalizing s a with
  | nil => exact h0
  | cons v l ih =>
    refine ih (by simpa using hstep s 0 v (by simp) h0) fun u j w hj hu => ?_
    rw [← scanAddr_succ]
    exact hstep u (j + 1) w (by simpa using hj) hu

section
variable {s : State} {a : Word} {l : List Byte}

theorem writeBytes_reg {r : Reg} (h : offBuffer a l.length r.val) : (writeBytes s a l).reg r = s.reg r :=
  writeBytes_induction (P := fun u => u.reg r = s.reg r) rfl fun u j v hj hu => by
    have hcell : dataCell u (a + BitVec.ofNat 16 j) ≠ .reg r := fun e => h j hj ((dataCell_eq_iff ..).1 e)
    rw [memWrite_reg, if_neg hcell, hu]

theorem writeBytes_sp (hl : offBuffer a l.length s.params.splAddr.toNat)
    (hh : offBuffer a l.length s.params.sphAddr.toNat) : (writeBytes s a l).sp = s.sp := by
  refine (writeBytes_induction (P := fun u => u.params = s.params ∧ u.sp = s.sp) ⟨rfl, rfl⟩
    fun u j v hj ⟨hp, hu⟩ => ⟨(memWrite_params ..).trans hp, ?_⟩).2
  have hspl : dataCell u (a + BitVec.ofNat 16 j) ≠ .spl := fun e =>
    hl j hj (by rw [((dataCell_eq_iff ..).1 e).2, hp])
  have hsph : dataCell u (a + BitVec.ofNat 16 j) ≠ .sph := fun e =>
    hh j hj (by rw [((dataCell_eq_iff ..).1 e).2.2, hp])
  rw [memWrite_sp, if_neg hspl, if_neg hsph, hu]

theorem writeBytes_ram (hw : s.ram.wf) {i : Nat} (h : offBuffer a l.length (s.params.ramBase.toNat + i)) :
    Memory.read (writeBytes s a l).ram i = Memory.read s.ram i := by
  refine (writeBytes_induction
    (P := fun u => u.params = s.params ∧ u.ram.wf ∧ Memory.read u.ram i = Memory.read s.ram i) ⟨rfl, hw, rfl⟩
    fun u j v hj ⟨hp, hu, hread⟩ => ⟨(memWrite_params ..).trans hp, memWrite_ram_wf _ _ hu, ?_⟩).2.2
  have hcell : dataCell u (a + BitVec.ofNat 16 j) ≠ .ram i := fun e =>
    h j hj (by rw [((dataCell_eq_iff ..).1 e).2.2, hp])
  rw [memWrite_ram_read _ _ _ hu, if_neg hcell, hread]

end

/-! ## The frame of an answer -/

/-- The registers a result is returned in (48_syscall_vectors.md R273). -/
def HostResult.regs : HostResult → List Reg
  | .none => []
  | .byte _ => [24]
  | .word _ => [24, 25]

theorem writeResult_reg {res : HostResult} {r : Reg} (s : State) (h : r ∉ res.regs) :
    (writeResult res s).reg r = s.reg r := by
  cases res with
  | none => rfl
  | byte v =>
    have hne : r ≠ 24 := by simpa [HostResult.regs] using h
    exact (State.setReg_reg ..).trans (if_neg hne)
  | word v =>
    obtain ⟨hlo, hhi⟩ : r ≠ 24 ∧ r ≠ 25 := by simpa [HostResult.regs] using h
    exact (State.setPair_reg ..).trans ((if_neg hhi).trans (if_neg hlo))

/-- A result writes registers and nothing else. -/
theorem writeResult_rest (res : HostResult) (s : State) :
    (writeResult res s).sreg = s.sreg ∧ (writeResult res s).sp = s.sp ∧ (writeResult res s).ram = s.ram := by
  cases res <;> exact ⟨rfl, rfl, rfl⟩

/-! ## What each operation answers -/

/-- The bounds of an operation's answer: its result registers, and whether it has a buffer (48_syscall_vectors.md R275). -/
def ReplyWithin (op : HostOp) (r : FileReply) : Prop :=
  (∀ i, i ∈ r.result.regs → i ∈ resultRegs op) ∧ (writesBuffer op = false → r.buffer = [])

theorem replyWithin_plain {op : HostOp} {h : HostState} {m : Memory} {res : HostResult}
    (hres : ∀ i, i ∈ res.regs → i ∈ resultRegs op) : ReplyWithin op (plainReply h m res) := ⟨hres, fun _ => rfl⟩

theorem fileName_reply (h : HostState) (m : Memory) (handle : Byte) :
    (fileName h m handle).buffer.length ≤ 256 ∧
      (fileName h m handle).result = .byte (BitVec.ofNat 8 ((fileName h m handle).buffer.length - 1)) := by
  have hname (h' : HostState) (bytes : List Byte) : (nameReply h' m bytes).buffer.length ≤ 256 ∧
      (nameReply h' m bytes).result = .byte (BitVec.ofNat 8 ((nameReply h' m bytes).buffer.length - 1)) :=
    ⟨List.length_take_le _ _, rfl⟩
  rw [fileName]
  split
  · exact hname ..
  · split <;> exact hname ..

theorem fileRead_reply (h : HostState) (m : Memory) (handle : Byte) (maxLen : Word) :
    (fileRead h m handle maxLen).buffer.length ≤ maxLen.toNat ∧
      (fileRead h m handle maxLen).result = .word (BitVec.ofNat 16 (fileRead h m handle maxLen).buffer.length) := by
  rw [fileRead]
  split
  · exact ⟨List.length_take_le _ _, rfl⟩
  · split
    · split
      · exact ⟨(readableBytes_length_le ..).trans (min_le_left _ _), rfl⟩
      · exact ⟨Nat.zero_le _, rfl⟩
    · exact ⟨Nat.zero_le _, rfl⟩

/-- Every operation answers in its own result registers, and only file_name and file_read with a buffer. -/
theorem hostCall_within {op : HostOp} {s : State} {r : FileReply} (h : hostCall op s = .ok r) : ReplyWithin op r := by
  cases op with
  | writeChar | printRam | printlnRam => cases h; exact ⟨nofun, fun _ => rfl⟩
  | printProgmem | printlnProgmem =>
    obtain ⟨bytes, rfl⟩ := progStringReply_eq_ok h
    exact ⟨nofun, fun _ => rfl⟩
  | fileOpen =>
    cases h
    rw [fileOpen]
    split
    · exact ⟨fun _ => id, fun _ => rfl⟩
    · split <;> exact replyWithin_plain fun _ => id
  | fileName =>
    cases h
    refine ⟨fun i hi => ?_, nofun⟩
    rwa [(fileName_reply ..).2] at hi
  | fileSize => cases h; rw [fileSize]; split <;> [skip; split] <;> exact replyWithin_plain fun _ => id
  | filePosition => cases h; rw [filePosition]; split <;> [skip; split] <;> exact replyWithin_plain fun _ => id
  | fileSeek =>
    cases h
    rw [fileSeek]
    split <;> [skip; split <;> [split; skip]] <;> exact replyWithin_plain fun _ => id
  | fileRead =>
    cases h
    refine ⟨fun i hi => ?_, nofun⟩
    rwa [(fileRead_reply ..).2] at hi
  | fileWrite =>
    cases h
    rw [fileWrite]
    split
    · exact ⟨fun _ => id, fun _ => rfl⟩
    · split <;> [split <;> [split; skip]; skip] <;> exact replyWithin_plain fun _ => id
  | fileClose => cases h; rw [fileClose]; split <;> exact replyWithin_plain nofun

/-- Settles O54: the answer's bounds, and what a buffer and a result leave unchanged. -/
theorem fileOperationsReturnWithinTheirFrame : Obligations.FileOperationsReturnWithinTheirFrame := by
  intro op s hop hw
  obtain ⟨r, hcall⟩ := hostCall_ok op s (fun e => hop (by simp [e])) (fun e => hop (by simp [e]))
  obtain ⟨hregs, hbuffer⟩ := hostCall_within hcall
  obtain ⟨hpc, hbase, hrun, hcls, hparams, hstore⟩ := applyReply_control (s.pair .r22) r s
  obtain ⟨hsreg, hsp, hram⟩ := writeResult_rest r.result
    (writeBytes ((s.setHost r.host).setStore r.store) (s.pair .r22) r.buffer)
  refine ⟨applyReply (s.pair .r22) r s, r.buffer.length, vectorStep_eq_ret hcall, fun hb => by rw [hbuffer hb]; rfl,
    ?_, ?_, fun i hi hoff => ?_, fun hoff => ?_, fun hl hh => ?_, fun i hoff => ?_, hpc, hbase, hrun, hcls, hparams,
    fun hstoreop => hstore.trans (hostCall_store hstoreop hcall)⟩
  · rintro rfl
    cases hcall
    obtain ⟨hlen, hres⟩ := fileName_reply s.host s.store (s.reg 24)
    refine ⟨hlen, ?_⟩
    rw [applyReply, hres, writeResult, State.setReg_reg, if_pos rfl, BitVec.toNat_ofNat]
    omega
  · rintro rfl
    cases hcall
    obtain ⟨hlen, hres⟩ := fileRead_reply s.host s.store (s.reg 24) (s.pair .r20)
    refine ⟨hlen, ?_⟩
    rw [applyReply, hres, writeResult, State.setPair_pair_same, BitVec.toNat_ofNat]
    omega
  · exact (writeResult_reg _ fun hmem => hi (hregs i hmem)).trans (writeBytes_reg hoff)
  · exact hsreg.trans (writeBytes_sreg _ _ _ hoff)
  · exact hsp.trans (writeBytes_sp hl hh)
  · exact (congrArg (Memory.read · i) hram).trans (writeBytes_ram (s := (s.setHost r.host).setStore r.store) hw hoff)

end Sys2Proof.Machine
end

section
/-! The reference host, operation by operation: what file_open, file_read, file_write and the five small operations answer,
what a write leaves to be read back, and where it stands in the Byte Store. -/

namespace Sys2Proof.Machine

/-- An answer without a buffer, applied. -/
theorem vectorStep_plainReply {op : HostOp} {s : State} {h : HostState} {m : Memory} {res : HostResult}
    (hcall : hostCall op s = .ok (plainReply h m res)) :
    vectorStep op s = exec .ret (writeResult res ((s.setHost h).setStore m)) := vectorStep_eq_ret hcall

/-! ## Slots and entries -/

theorem HostState.slot_setSlot {h : HostState} {handle : Byte} {sl : Slot} (o : Option Slot)
    (hs : h.slot handle = some sl) : (h.setSlot handle o).slot handle = o := by
  have hlt : handle.toNat < h.slots.length := (List.getElem?_eq_some_iff.1 (HostState.slot_eq_some.1 hs)).1
  simp [HostState.slot, HostState.setSlot, hlt]

/-- Closing a handle that is not open changes nothing. -/
theorem HostState.setSlot_none_of_bad {h : HostState} {handle : Byte} (hs : h.slot handle = none) :
    h.setSlot handle none = h := by
  have hset : h.slots.set handle.toNat none = h.slots := by
    refine List.ext_getElem? fun i => ?_
    rw [List.getElem?_set]
    split
    · rename_i hi
      subst hi
      split
      · rename_i hlt
        have hget : h.slots[handle.toNat] = none := by simpa [HostState.slot, hlt] using hs
        rw [List.getElem?_eq_getElem hlt, hget]
      · rename_i hge
        exact (List.getElem?_eq_none (Nat.le_of_not_lt hge)).symm
    · rfl
  rw [HostState.setSlot, hset]

theorem HostState.freeSlot_eq_some {h : HostState} {slot : Nat} (hfree : h.slots[slot]? = some none)
    (hfirst : ∀ i, i < slot → h.slots[i]? ≠ some none) : h.freeSlot = some slot := by
  obtain ⟨hlt, hget⟩ := List.getElem?_eq_some_iff.1 hfree
  refine List.findIdx?_eq_some_iff_getElem.2 ⟨hlt, by simp [hget], fun i hi => ?_⟩
  have hne := hfirst i hi
  rw [List.getElem?_eq_getElem (hi.trans hlt)] at hne
  simpa using hne

theorem HostState.freeSlot_eq_none {h : HostState} (hfull : ∀ sl ∈ h.slots, sl ≠ none) : h.freeSlot = none := by
  simpa [HostState.freeSlot, Option.isSome_iff_ne_none] using hfull

theorem HostState.findFile_eq_none {h : HostState} {name : List Byte} (hno : ∀ f ∈ h.files, f.name ≠ name) :
    h.findFile name = none := by
  simpa [HostState.findFile] using hno

theorem HostState.findFile_eq_some {h : HostState} {name : List Byte} {i : Nat} {e : FileEntry}
    (he : h.files[i]? = some e) (hname : e.name = name)
    (hfirst : ∀ j f, j < i → h.files[j]? = some f → f.name ≠ name) : h.findFile name = some i := by
  obtain ⟨hlt, hget⟩ := List.getElem?_eq_some_iff.1 he
  refine List.findIdx?_eq_some_iff_getElem.2 ⟨hlt, by simp [hget, hname], fun j hj => ?_⟩
  simpa using hfirst j _ hj (List.getElem?_eq_getElem (hj.trans hlt))

/-! ## Opening -/

theorem openModeOf_eq_none {m : Byte} (h : 2 < m.toNat) : openModeOf m = none := by
  decide +revert

theorem openModeOf_eq_some {m : Byte} (h : m.toNat ≤ 2) :
    openModeOf m = some (if m.toNat = 0 then .read else if m.toNat = 1 then .write else .append) := by
  decide +revert

theorem nameFits_iff {name : List Byte} : nameFits name = true ↔ 1 ≤ name.length ∧ name.length ≤ 127 := by
  simp [nameFits]

section
variable {h : HostState} {name : List Byte} {m : Byte} {slot : Nat}

theorem openFile_eq_none
    (hfail : 2 < m.toNat ∨ name.length = 0 ∨ 127 < name.length ∨ ∀ sl ∈ h.slots, sl ≠ none) :
    openFile h name m = none := by
  by_contra hsome
  obtain ⟨⟨h', slot⟩, ho⟩ := Option.ne_none_iff_exists'.1 hsome
  obtain ⟨md, hmode, hfree, hfit, -⟩ := openFile_eq_some ho
  obtain ⟨hpos, hmax⟩ := nameFits_iff.1 hfit
  obtain hm | hlen | hlen | hfull := hfail
  · exact nomatch hmode.symm.trans (openModeOf_eq_none hm)
  · omega
  · omega
  · exact nomatch hfree.symm.trans (HostState.freeSlot_eq_none hfull)

theorem openFile_of_found {i : Nat} {e : FileEntry} {mode : OpenMode} (hmode : openModeOf m = some mode)
    (hslot : h.freeSlot = some slot) (hfit : nameFits name = true) (hfind : h.findFile name = some i)
    (he : h.files[i]? = some e) : openFile h name m = some (openExisting h slot i e mode, slot) := by
  simp [openFile, hmode, hslot, hfit, hfind, he]

theorem openFile_of_new {mode : OpenMode} (hmode : openModeOf m = some mode) (hslot : h.freeSlot = some slot)
    (hfit : nameFits name = true) (hfind : h.findFile name = none) :
    openFile h name m = (openNew h slot name mode).map fun h' => (h', slot) := by
  simp [openFile, hmode, hslot, hfit, hfind]

end

section
variable {s : State} (hk : s.host.kind = .reference)
include hk

theorem vectorStep_fileOpen_of_none
    (ho : openFile s.host (dataString s (s.pair .r24) s.params.strScanMax) (s.reg 22) = none) :
    vectorStep .fileOpen s = exec .ret (s.setReg 24 0xFF) := by
  have hcall : hostCall .fileOpen s = .ok (plainReply s.host s.store (.byte 0xFF)) := by
    simp only [hostCall, fileOpen, hk, ho]
  exact vectorStep_plainReply hcall

theorem vectorStep_fileOpen_of_some {h' : HostState} {slot : Nat}
    (ho : openFile s.host (dataString s (s.pair .r24) s.params.strScanMax) (s.reg 22) = some (h', slot)) :
    vectorStep .fileOpen s = exec .ret (((s.setHost h').setStore
      (persist s.params.storeSize s.host h' s.store)).setReg 24 (BitVec.ofNat 8 slot)) := by
  have hcall : hostCall .fileOpen s =
      .ok (plainReply h' (persist s.params.storeSize s.host h' s.store) (.byte (BitVec.ofNat 8 slot))) := by
    simp only [hostCall, fileOpen, hk, ho]
  exact vectorStep_plainReply hcall

end

/-- Settles O55: the first free slot and the first file of the name are what the model finds. -/
theorem referenceOpenAnswers : Obligations.ReferenceOpenAnswers := by
  intro s name hk hname
  obtain rfl : dataString s (s.pair .r24) s.params.strScanMax = name :=
    scanOf_unique _ _ _ _ _ (dataString_spec ..) hname
  refine ⟨fun hfail => vectorStep_fileOpen_of_none hk (openFile_eq_none hfail), ?_⟩
  intro slot hm hpos hmax hfree hfirst
  have hmode := openModeOf_eq_some hm
  have hslot := HostState.freeSlot_eq_some hfree hfirst
  have hfit := nameFits_iff.2 ⟨hpos, hmax⟩
  refine ⟨fun hno => ?_, fun i e he hname hfirstName => ?_⟩
  · have hopen := openFile_of_new hmode hslot hfit (HostState.findFile_eq_none hno)
    refine ⟨fun h0 => ?_, fun h0 hfull => ?_, fun h0 hroom => ?_⟩
    · refine vectorStep_fileOpen_of_none hk (hopen.trans ?_)
      simp [openNew, h0]
    · refine vectorStep_fileOpen_of_none hk (hopen.trans ?_)
      simp [openNew, hfull]
    · refine vectorStep_fileOpen_of_some hk (hopen.trans ?_)
      have hread : (if (s.reg 22).toNat = 1 then OpenMode.write else .append) ≠ .read := by split <;> nofun
      simp [openNew, h0, hread, Nat.not_lt.2 hroom]
  · have hopen := openFile_of_found hmode hslot hfit (HostState.findFile_eq_some he hname hfirstName) he
    refine ⟨fun h0 => ?_, fun h1 => ?_, fun h2 => ?_⟩
    · exact vectorStep_fileOpen_of_some hk (hopen.trans (by simp [openExisting, h0]))
    · exact vectorStep_fileOpen_of_some hk (hopen.trans (by simp [openExisting, h1]))
    · exact vectorStep_fileOpen_of_some hk (hopen.trans (by simp [openExisting, h2]))

/-! ## Reading -/

theorem readableBytes_length {e : FileEntry} {sl : Slot} (maxLen : Nat) (h : sl.size ≤ e.data.length) :
    (readableBytes e sl maxLen).length = min maxLen (sl.size - sl.cursor) := by
  simp only [readableBytes, List.length_take, List.length_drop]
  omega

theorem readableBytes_getElem? {e : FileEntry} {sl : Slot} {maxLen i : Nat}
    (h : i < (readableBytes e sl maxLen).length) : (readableBytes e sl maxLen)[i]? = e.data[sl.cursor + i]? := by
  have hlt := h.trans_le (readableBytes_length_le e sl maxLen)
  rw [readableBytes, List.getElem?_take_of_lt hlt, List.getElem?_drop]

section
variable {h : HostState} (hk : h.kind = .reference) (m : Memory) {handle : Byte}
include hk

theorem fileRead_of_bad (hs : h.slot handle = none) (maxLen : Word) :
    fileRead h m handle maxLen = plainReply h m (.word 0) := by
  simp only [fileRead, hk, hs]

theorem fileRead_of_open {sl : Slot} {e : FileEntry} (hs : h.slot handle = some sl) (he : h.files[sl.file]? = some e)
    (maxLen : Word) :
    fileRead h m handle maxLen =
      ⟨h.setSlot handle (some { sl with cursor := sl.cursor + (readableBytes e sl maxLen.toNat).length }), m,
        readableBytes e sl maxLen.toNat, .word (BitVec.ofNat 16 (readableBytes e sl maxLen.toNat).length)⟩ := by
  simp only [fileRead, hk, hs, HostState.entry, he]

end

/-- Settles O56: a legal slot's file holds every byte up to the slot's size. -/
theorem referenceReadAnswers : Obligations.ReferenceReadAnswers := by
  intro s ⟨_, _, _, _, _, hvalid, _, _⟩ hk
  refine ⟨fun hs => vectorStep_plainReply (op := .fileRead) (congrArg Except.ok (fileRead_of_bad hk s.store hs _)), fun sl hs => ?_⟩
  obtain ⟨e, he, -, hsize, -⟩ := hvalid.slot hs
  refine ⟨e, readableBytes e sl (s.pair .r20).toNat, he, readableBytes_length _ hsize,
    fun i hi => readableBytes_getElem? hi, ?_⟩
  rw [vectorStep_eq_ret (op := .fileRead) (congrArg Except.ok (fileRead_of_open hk s.store hs he _))]
  rfl

/-! ## Writing -/

theorem overwriteAt_getElem? {data bytes : List Byte} {cursor : Nat} (h : cursor ≤ data.length) (i : Nat) :
    (overwriteAt data cursor bytes)[i]? =
      if cursor ≤ i ∧ i < cursor + bytes.length then bytes[i - cursor]? else data[i]? := by
  have htake : (data.take cursor).length = cursor := List.length_take_of_le h
  rw [overwriteAt, List.append_assoc]
  obtain hlt | hge := Nat.lt_or_ge i cursor
  · rw [if_neg (by omega), List.getElem?_append_left (by omega), List.getElem?_take_of_lt hlt]
  · rw [List.getElem?_append_right (by omega), htake]
    by_cases hin : i < cursor + bytes.length
    · rw [if_pos ⟨hge, hin⟩, List.getElem?_append_left (by omega)]
    · rw [if_neg (by omega), List.getElem?_append_right (by omega), List.getElem?_drop]
      congr 1
      omega

/-- A byte of the buffer in the block written at the cursor. -/
theorem overwriteAt_written {data bytes : List Byte} {cursor j : Nat} {v : Byte} (h : cursor ≤ data.length)
    (hv : bytes[j]? = some v) : (overwriteAt data cursor bytes)[cursor + j]? = some v := by
  have hlt : j < bytes.length := (List.getElem?_eq_some_iff.1 hv).1
  rw [overwriteAt_getElem? h, if_pos (by omega), Nat.add_sub_cancel_left, hv]

/-- The host after a successful write through an open handle (48_syscall_vectors.md R292). -/
def HostState.written (h : HostState) (handle : Byte) (sl : Slot) (e : FileEntry) (bytes : List Byte) : HostState :=
  { h with
    files := h.files.set sl.file (writtenEntry e sl bytes)
    slots := h.slots.set handle.toNat (some
      { sl with size := (writtenEntry e sl bytes).size, cursor := sl.cursor + bytes.length }) }

/-- A write succeeds exactly where the handle is writable, the size word suffices and the host has room. -/
def WriteFits (h : HostState) (sl : Slot) (e : FileEntry) (bytes : List Byte) : Prop :=
  sl.mode ≠ .read ∧ (writtenEntry e sl bytes).size ≤ 0xFFFE ∧
    filesFootprint (h.files.set sl.file (writtenEntry e sl bytes)) ≤ h.capacity

theorem writeFile_of_fits {h : HostState} {handle : Byte} {sl : Slot} {e : FileEntry} {bytes : List Byte}
    (hfits : WriteFits h sl e bytes) : writeFile h handle sl e bytes = some (h.written handle sl e bytes) := by
  obtain ⟨hmode, hsize, hroom⟩ := hfits
  simp only [writeFile, if_neg hmode, if_neg (Nat.not_lt.2 hsize), if_neg (Nat.not_lt.2 hroom)]
  rfl

theorem writeFile_of_not_fits {h : HostState} {handle : Byte} {sl : Slot} {e : FileEntry} {bytes : List Byte}
    (hno : ¬WriteFits h sl e bytes) : writeFile h handle sl e bytes = none := by
  by_contra hsome
  obtain ⟨h', hw⟩ := Option.ne_none_iff_exists'.1 hsome
  obtain ⟨hmode, hsize, hroom, -⟩ := writeFile_eq_some hw
  exact hno ⟨hmode, hsize, hroom⟩

section
variable (size : Nat) {h : HostState} (hk : h.kind = .reference) (m : Memory) {handle : Byte}
include hk

theorem fileWrite_of_bad (hs : h.slot handle = none) (bytes : List Byte) :
    fileWrite size h m handle bytes = plainReply h m (.word 0xFFFF) := by
  simp only [fileWrite, hk, hs]

variable {sl : Slot} {e : FileEntry} {bytes : List Byte} (hs : h.slot handle = some sl)
  (he : h.files[sl.file]? = some e)
include hs he

theorem fileWrite_of_fits (hfits : WriteFits h sl e bytes) :
    fileWrite size h m handle bytes =
      plainReply (h.written handle sl e bytes) (persist size h (h.written handle sl e bytes) m)
        (.word (BitVec.ofNat 16 bytes.length)) := by
  simp only [fileWrite, hk, hs, HostState.entry, he, writeFile_of_fits hfits]

theorem fileWrite_of_not_fits (hno : ¬WriteFits h sl e bytes) :
    fileWrite size h m handle bytes = plainReply h m (.word 0xFFFF) := by
  simp only [fileWrite, hk, hs, HostState.entry, he, writeFile_of_not_fits hno]

end

/-- Settles O57: the write fits or fails, and the block after it is `overwriteAt`. -/
theorem referenceWriteAnswers : Obligations.ReferenceWriteAnswers := by
  intro s ⟨_, _, _, _, _, hvalid, _, _⟩ hk
  refine ⟨fun hs => vectorStep_plainReply (op := .fileWrite) (congrArg Except.ok (fileWrite_of_bad _ hk s.store hs _)), fun sl hs => ?_⟩
  obtain ⟨e, he, hcur, hsize, -⟩ := hvalid.slot hs
  have hfails (hno : ¬WriteFits s.host sl e (writeBuffer s (s.pair .r22) (s.pair .r20))) :
      vectorStep .fileWrite s = exec .ret (s.setPair .r24 0xFFFF) :=
    vectorStep_plainReply (op := .fileWrite) (congrArg Except.ok (fileWrite_of_not_fits _ hk s.store hs he hno))
  refine ⟨fun hread => hfails fun ⟨hmode, _⟩ => hmode hread, fun hmode => ?_⟩
  refine ⟨e, overwriteAt e.data sl.cursor (writeBuffer s (s.pair .r22) (s.pair .r20)), he,
    overwriteAt_getElem? (hcur.trans hsize), fun hbad => hfails ?_, fun hword hroom => ?_⟩
  · rintro ⟨-, hword, hroom⟩
    exact hbad.elim (Nat.not_lt.2 hword) (Nat.not_lt.2 hroom)
  · exact vectorStep_plainReply (op := .fileWrite) (congrArg Except.ok (fileWrite_of_fits _ hk s.store hs he ⟨hmode, hword, hroom⟩))

/-! ## Seeking, and reading back what was written -/

section
variable {h : HostState} (hk : h.kind = .reference) (m : Memory) {handle : Byte}
include hk

theorem fileSeek_of_bad (hs : h.slot handle = none) (position : Word) :
    fileSeek h m handle position = plainReply h m (.byte 0) := by
  simp only [fileSeek, hk, hs]

theorem fileSeek_of_le {sl : Slot} (hs : h.slot handle = some sl) {position : Word} (hle : position.toNat ≤ sl.size) :
    fileSeek h m handle position =
      plainReply (h.setSlot handle (some { sl with cursor := position.toNat })) m (.byte 1) := by
  simp only [fileSeek, hk, hs, if_pos hle]

theorem fileSeek_of_lt {sl : Slot} (hs : h.slot handle = some sl) {position : Word} (hlt : sl.size < position.toNat) :
    fileSeek h m handle position = plainReply h m (.byte 0) := by
  simp only [fileSeek, hk, hs, if_neg (Nat.not_le.2 hlt)]

end

/-- The bytes just written, read from where the write began. -/
theorem readableBytes_writtenEntry {e : FileEntry} {sl sl' : Slot} {bytes : List Byte}
    (hcur : sl.cursor ≤ e.data.length) (hcursor : sl'.cursor = sl.cursor)
    (hsize : sl.cursor + bytes.length ≤ sl'.size) :
    readableBytes (writtenEntry e sl bytes) sl' bytes.length = bytes := by
  have htake : (e.data.take sl.cursor).length = sl.cursor := List.length_take_of_le hcur
  rw [readableBytes, Nat.min_eq_left (by omega), hcursor]
  simp only [writtenEntry, overwriteAt, List.append_assoc]
  rw [List.drop_left' htake, List.take_left]

/-- A read after a seek starts at the position sought. -/
theorem fileRead_after_fileSeek {h : HostState} (hk : h.kind = .reference) (m : Memory) {handle : Byte} {sl : Slot}
    {e : FileEntry} (hs : h.slot handle = some sl) (he : h.files[sl.file]? = some e) {position : Word}
    (hle : position.toNat ≤ sl.size) (maxLen : Word) :
    let k := fileSeek h m handle position
    let bytes := readableBytes e { sl with cursor := position.toNat } maxLen.toNat
    k.result = .byte 1 ∧ (fileRead k.host k.store handle maxLen).buffer = bytes ∧
      (fileRead k.host k.store handle maxLen).result = .word (BitVec.ofNat 16 bytes.length) := by
  rw [fileSeek_of_le hk m hs hle]
  have hread := fileRead_of_open (h := h.setSlot handle (some { sl with cursor := position.toNat })) hk m
    (HostState.slot_setSlot _ hs) he maxLen
  exact ⟨rfl, congrArg FileReply.buffer hread, congrArg FileReply.result hread⟩

/-- Settles O58: the write fits, the seek goes back inside the new size, and the block there holds the bytes. -/
theorem referenceWriteThenReadBack : Obligations.ReferenceWriteThenReadBack := by
  intro size h m handle sl bytes hvalid hk hs hres
  obtain ⟨e, he, hcur, hsize, -⟩ := hvalid.slot hs
  have hfits : WriteFits h sl e bytes := by
    by_contra hno
    exact hres (by rw [fileWrite_of_not_fits size hk m hs he hno]; rfl)
  obtain ⟨-, hword, -⟩ := id hfits
  have hend : max sl.size (sl.cursor + bytes.length) ≤ 0xFFFE := hword
  have hposition : (BitVec.ofNat 16 sl.cursor).toNat = sl.cursor := Nat.mod_eq_of_lt (by omega)
  have hcount : (BitVec.ofNat 16 bytes.length).toNat = bytes.length := Nat.mod_eq_of_lt (by omega)
  have hslot : (h.written handle sl e bytes).slot handle =
      some { sl with size := max sl.size (sl.cursor + bytes.length), cursor := sl.cursor + bytes.length } :=
    HostState.slot_setSlot _ hs
  have hfile : (h.written handle sl e bytes).files[sl.file]? = some (writtenEntry e sl bytes) :=
    List.getElem?_set_self (List.getElem?_eq_some_iff.1 he).1
  have hback := fileRead_after_fileSeek (h := h.written handle sl e bytes) hk
    (persist size h (h.written handle sl e bytes) m) hslot hfile (position := BitVec.ofNat 16 sl.cursor)
    (by simp only [hposition]; omega) (BitVec.ofNat 16 bytes.length)
  rw [hcount, readableBytes_writtenEntry (hcur.trans hsize) hposition (le_max_right _ _)] at hback
  rw [fileWrite_of_fits size hk m hs he hfits]
  exact ⟨rfl, hback⟩

/-! ## The five small operations -/

section
variable {h : HostState} (hk : h.kind = .reference) (m : Memory) {handle : Byte}
include hk

theorem fileName_of_bad (hs : h.slot handle = none) : fileName h m handle = plainReply h m (.byte 0) := by
  simp only [fileName, hk, hs, Option.bind_none]
  rfl

/-- A legal name and its zero byte fit the 256 bytes of the buffer. -/
theorem fileName_of_open {sl : Slot} {e : FileEntry} (hs : h.slot handle = some sl) (he : h.files[sl.file]? = some e)
    (hname : e.name.length ≤ 127) :
    fileName h m handle = ⟨h, m, e.name ++ [0x00], .byte (BitVec.ofNat 8 e.name.length)⟩ := by
  have hlen : (e.name ++ [0x00]).length = e.name.length + 1 := by simp
  have hwhole : (e.name ++ [0x00]).take 256 = e.name ++ [0x00] := List.take_of_length_le (by omega)
  simp only [fileName, hk, hs, Option.bind_some, HostState.entry, he, nameReply, hwhole, hlen, Nat.add_sub_cancel]

theorem fileSize_of_bad (hs : h.slot handle = none) : fileSize h m handle = plainReply h m (.word 0xFFFF) := by
  simp only [fileSize, hk, hs]

theorem fileSize_of_open {sl : Slot} (hs : h.slot handle = some sl) :
    fileSize h m handle = plainReply h m (.word (BitVec.ofNat 16 sl.size)) := by
  simp only [fileSize, hk, hs]

theorem filePosition_of_bad (hs : h.slot handle = none) :
    filePosition h m handle = plainReply h m (.word 0xFFFF) := by
  simp only [filePosition, hk, hs]

theorem filePosition_of_open {sl : Slot} (hs : h.slot handle = some sl) :
    filePosition h m handle = plainReply h m (.word (BitVec.ofNat 16 sl.cursor)) := by
  simp only [filePosition, hk, hs]

theorem fileClose_reference : fileClose h m handle = plainReply (h.setSlot handle none) m .none := by
  simp only [fileClose, hk]

end

/-- Settles O59: each operation's answer to an open and to a bad handle, applied. -/
theorem referenceNameSizePositionSeekClose : Obligations.ReferenceNameSizePositionSeekClose := by
  intro s ⟨_, _, _, _, _, hvalid, _, _⟩ hk
  refine ⟨fun hs => ⟨?_, ?_, ?_, ?_, ?_⟩, fun sl hs => ⟨?_, ?_, ?_, fun hle => ?_, fun hlt => ?_, ?_⟩⟩
  · exact vectorStep_plainReply (op := .fileName) (congrArg Except.ok (fileName_of_bad hk _ hs))
  · exact vectorStep_plainReply (op := .fileSize) (congrArg Except.ok (fileSize_of_bad hk _ hs))
  · exact vectorStep_plainReply (op := .filePosition) (congrArg Except.ok (filePosition_of_bad hk _ hs))
  · exact vectorStep_plainReply (op := .fileSeek) (congrArg Except.ok (fileSeek_of_bad hk _ hs _))
  · have hclose : fileClose s.host s.store (s.reg 24) = plainReply s.host s.store .none := by
      rw [fileClose_reference hk, HostState.setSlot_none_of_bad hs]
    exact vectorStep_plainReply (op := .fileClose) (congrArg Except.ok hclose)
  · obtain ⟨e, he, -⟩ := hvalid.slot hs
    obtain ⟨hfit, -⟩ := hvalid.1 e (List.mem_of_getElem? he)
    have hname := fileName_of_open hk s.store hs he (nameFits_iff.1 hfit).2
    exact ⟨e, he, vectorStep_eq_ret (op := .fileName) (congrArg Except.ok hname)⟩
  · exact vectorStep_plainReply (op := .fileSize) (congrArg Except.ok (fileSize_of_open hk _ hs))
  · exact vectorStep_plainReply (op := .filePosition) (congrArg Except.ok (filePosition_of_open hk _ hs))
  · exact vectorStep_plainReply (op := .fileSeek) (congrArg Except.ok (fileSeek_of_le hk _ hs hle))
  · exact vectorStep_plainReply (op := .fileSeek) (congrArg Except.ok (fileSeek_of_lt hk _ hs hlt))
  · exact vectorStep_plainReply (op := .fileClose) (congrArg Except.ok (fileClose_reference hk _))

/-! ## Files in the Byte Store -/

/-- An answer of the reference host that goes from `h` to `r.host` and writes the Byte Store as the files changed. -/
def Persists (size : Nat) (h : HostState) (m : Memory) (r : FileReply) : Prop :=
  r.store = persist size h r.host m ∧ r.host.kind = h.kind ∧ r.host.fileBase = h.fileBase ∧ r.buffer = []

theorem persists_failure (size : Nat) (h : HostState) (m : Memory) (res : HostResult) :
    Persists size h m (plainReply h m res) := ⟨(persist_same size h h m rfl).symm, rfl, rfl, rfl⟩

theorem fileOpen_persists (size : Nat) {h : HostState} (hk : h.kind = .reference) (m : Memory) (name : List Byte)
    (mode : Byte) : Persists size h m (fileOpen size h m name mode) := by
  simp only [fileOpen, hk]
  split
  · rename_i h' slot ho
    obtain ⟨-, hkind, hbase⟩ := openFile_fields ho
    exact ⟨rfl, hkind, hbase, rfl⟩
  · exact persists_failure ..

theorem fileWrite_persists (size : Nat) {h : HostState} (hk : h.kind = .reference) (m : Memory) (handle : Byte)
    (bytes : List Byte) : Persists size h m (fileWrite size h m handle bytes) := by
  simp only [fileWrite, hk]
  split
  · split
    · split
      · rename_i h' hw
        obtain ⟨-, -, -, rfl⟩ := writeFile_eq_some hw
        exact ⟨rfl, rfl, rfl, rfl⟩
      · exact persists_failure ..
    · exact persists_failure ..
  · exact persists_failure ..

theorem hostCall_persists {op : HostOp} {s : State} {r : FileReply} (hk : s.host.kind = .reference)
    (hop : op = .fileOpen ∨ op = .fileWrite) (h : hostCall op s = .ok r) :
    Persists s.params.storeSize s.host s.store r := by
  obtain rfl | rfl := hop <;> cases h
  · exact fileOpen_persists _ hk _ _ _
  · exact fileWrite_persists _ hk _ _ _

/-- In a Byte Store that holds the files, a byte of a block stands at its block's place. -/
theorem HostState.mirrored.block {h : HostState} {size : Nat} {m : Memory} (hm : h.mirrored size m)
    (hk : h.kind = .reference) {file : Nat} {f : FileEntry} {j : Nat} {v : Byte} (hf : h.files[file]? = some f)
    (hv : f.data[j]? = some v) (hs : h.fileBase + blockOffset h.files file + j < size) :
    Memory.read m (h.fileBase + blockOffset h.files file + j) = v := by
  rw [Nat.add_assoc] at hs ⊢
  exact hm hk _ v (filesImage_block h.files file f hf j v hv) hs

/-- A result word other than 0xFFFF is that of a write that fits. -/
theorem fileWrite_fits_of_result {size : Nat} {h : HostState} {m : Memory} {handle : Byte} {bytes : List Byte}
    (hvalid : h.valid) (hk : h.kind = .reference) (hres : (fileWrite size h m handle bytes).result ≠ .word 0xFFFF) :
    ∃ sl e, h.slot handle = some sl ∧ h.files[sl.file]? = some e ∧ sl.cursor ≤ e.data.length ∧
      WriteFits h sl e bytes := by
  cases hs : h.slot handle with
  | none => exact absurd (congrArg FileReply.result (fileWrite_of_bad size hk m hs bytes)) hres
  | some sl =>
    obtain ⟨e, he, hcur, hsize, -⟩ := hvalid.slot hs
    refine ⟨sl, e, rfl, he, hcur.trans hsize, ?_⟩
    by_contra hno
    exact hres (congrArg FileReply.result (fileWrite_of_not_fits size hk m hs he hno))

/-- An answer without a buffer puts the answer's host in place. -/
theorem applyReply_host_of_nil (b : Word) {r : FileReply} (s : State) (h : r.buffer = []) :
    (applyReply b r s).host = r.host := by
  rw [applyReply, h]
  cases r.result <;> rfl

/-- The result word of an answer, read from r25:r24. -/
theorem applyReply_pair (b : Word) {r : FileReply} (s : State) {v : Word} (h : r.result = .word v) :
    (applyReply b r s).pair .r24 = v := by
  rw [applyReply, h]
  exact State.setPair_pair_same ..

/-- Settles O60: the Byte Store mirrors the files after the step, and `persist` writes nowhere else. -/
theorem fileWritesReachTheByteStore : Obligations.FileWritesReachTheByteStore := by
  intro op s t ⟨_, _, hstore, _, _, hvalid, hmirrored, _⟩ hk hop h
  obtain ⟨r, hcall, ht⟩ := vectorStep_next op s t h
  obtain ⟨hpersist, hkind, hbase, hbuffer⟩ := hostCall_persists hk hop hcall
  obtain ⟨-, -, -, -, hparams, hreplied⟩ := applyReply_control (s.pair .r22) r s
  have hthost : t.host = r.host := by rw [ht]; exact applyReply_host_of_nil _ s hbuffer
  have htparams : t.params = s.params := by rw [ht]; exact hparams
  have htstore : t.store = r.store := by rw [ht]; exact hreplied
  have hmirror : r.host.mirrored s.params.storeSize r.store := (hostCall_keeps hcall).mirrored hstore hmirrored
  rw [hthost, htparams, htstore]
  refine ⟨fun file f j v hf hv hs => hmirror.block (hkind.trans hk) hf hv hs, fun a ha => ?_, ?_⟩
  · rw [hpersist]
    exact persist_read_other _ _ _ _ hstore a (ha.imp_right .inl)
  · rintro rfl hne
    have hres : r.result ≠ .word 0xFFFF := fun e => hne (by rw [ht]; exact applyReply_pair _ s e)
    cases hcall
    obtain ⟨sl, e, hs, he, hcur, hfits⟩ := fileWrite_fits_of_result hvalid hk hres
    refine ⟨sl, hs, fun j v hv hplace => ?_⟩
    have hhost := congrArg FileReply.host (fileWrite_of_fits s.params.storeSize hk s.store hs he hfits)
    refine hmirror.block (hkind.trans hk) (f := writtenEntry e sl _) ?_ (overwriteAt_written hcur hv) hplace
    exact (congrArg (·.files[sl.file]?) hhost).trans (List.getElem?_set_self (List.getElem?_eq_some_iff.1 he).1)

end Sys2Proof.Machine
end
